-- ==== Sys2Proof/Word.lean ====
section
/-! DEFINITION. The words of the block: bytes, palette words, and the shape of a buffer. -/

namespace Sys2Proof

/-- `u8` of rule R11: the unit of `IN`, `IMG` and `OUT` (R50). -/
abbrev Byte := BitVec 8

/-- `u16`: one raw palette entry, the unit of `PAL_RAW` (R50, R87). -/
abbrev RawEntry := BitVec 16

/-- `u24`: one truecolour value, the unit of `PAL_EXP` (R50, R88). -/
abbrev Colour := BitVec 24

/-- The contents of one buffer: the units that hold a value, each with its index. A unit that is not
listed holds no value (R57). For the byte spaces this is a list of the host's `Host.Cell`. -/
abbrev Cells (w : Nat) := List (Nat × BitVec w)

end Sys2Proof
end

