-- ==== Sys2Proof/Config.lean ====
section
/-! DEFINITION. The parameters of the block (00_scope.md R5 to R10). The open ones have no value here. -/

namespace Sys2Proof

/-- `PAL_LAYOUT` (R10): where red and blue sit in a raw palette entry. -/
inductive PalLayout where
  /-- red in bits 4:0, green in bits 9:5, blue in bits 14:10; the value the spec takes -/
  | redLow
  /-- red in bits 14:10, green in bits 9:5, blue in bits 4:0 -/
  | redHigh
  deriving DecidableEq, Repr

/-- The parameters fixed for the life of the block (R46): `WIDTH`, `HEIGHT`, `IN_CAP`, `PAL_LAYOUT`. -/
structure Params where
  width : Nat
  height : Nat
  inCap : Nat
  layout : PalLayout
  deriving DecidableEq, Repr

/-- `NPIX = WIDTH * HEIGHT` (R5). -/
def Params.npix (p : Params) : Nat := p.width * p.height

/-- `IMG_CAP = NPIX` (R7). -/
def Params.imgCap (p : Params) : Nat := p.npix

/-- `OUT_LEN = 3 * NPIX` (R7). -/
def Params.outLen (p : Params) : Nat := 3 * p.npix

/-- `PAL_SIZE = 256` (R6). -/
def palSize : Nat := 256

/-- `DIST_MIN`, `DIST_MAX`, `LEN_MIN`, `LEN_MAX` of R9: the values a back-reference can carry. -/
def distMin : Nat := 1
def distMax : Nat := 4096
def lenMin : Nat := 3
def lenMax : Nat := 18

/-- `DECL_MAX = 2^24 - 1` (R9): the largest length a header can declare. -/
def declMax : Nat := 16777215

/-- What the spec requires of the parameters (R5, R8). The last part is DEDUCED (log entry 2): the
register `IN_LEN` that holds every length up to `IN_CAP` has 32 bits (R44). -/
structure Params.wf (p : Params) : Prop where
  width_pos : 1 ≤ p.width
  height_pos : 1 ≤ p.height
  npix_le : p.npix ≤ declMax
  inCap_ge : 4 ≤ p.inCap
  inCap_lt : p.inCap < 4294967296

/-- `WIDTH`, `HEIGHT` and `IN_CAP` are OPEN (R5, R8): three draws that nothing fixes. -/
opaque Config.heightDraw : Nat
opaque Config.widthDraw : Nat
opaque Config.inCapDraw : Nat

/-- The height of the block that `State.reset` describes: any number from 1 to `2^24 - 1`. -/
def Config.height : Nat := Config.heightDraw % declMax + 1

/-- The width of that block: any number from 1 up that keeps `NPIX <= 2^24 - 1`. -/
def Config.width : Nat := Config.widthDraw % (declMax / Config.height) + 1

/-- The input capacity of that block: any number from 4 up that fits `IN_LEN`. -/
def Config.inCap : Nat := Config.inCapDraw % 4294967292 + 4

/-- The parameters of the block that `State.reset` describes: an arbitrary legal geometry, and
`PAL_LAYOUT = RED_LOW` as the spec takes it (R10; log entry 3). -/
def Config.params : Params :=
  { width := Config.width, height := Config.height, inCap := Config.inCap, layout := .redLow }

/-- FREE VALUES (log entry 26): which fault code from 1 to 9 and what `FAULT_INFO` the n-th fault records whose
cause the spec does not name. -/
opaque Config.faultCodeDraw : Nat → Nat
opaque Config.faultInfoDraw : Nat → BitVec 32

/-- The free fault code as the 4 bits of `FAULT_CAUSE`: never 0, which means no fault, and never 10 to 15 (R40,
R190). -/
def Config.freeFaultCode (n : Nat) : BitVec 4 := BitVec.ofNat 4 (Config.faultCodeDraw n % 9 + 1)

end Sys2Proof
end

