-- ==== Sys2Proof/Syntax.lean ====
section
/-! DEFINITION. The instructions: one constructor for each row of spec/opcode_table.json, and the kinds
of item that the state of the block selects between (30_encoding.md R91, R100). -/

namespace Sys2Proof

/-- What the next item is. No item carries its own kind (R91): the state of the running unit selects it,
and a command comes from a write to `CMD`. -/
inductive Kind where
  | hdr | ctl | lit | ref | fin | pexp | pfin | pix | rfin | cmd
  deriving DecidableEq, Repr

/-- The steps of the block, with their operands. -/
inductive Instr where
  /-- HDR (R112, format H): the declared length and the ignored tag -/
  | hdr (declared : BitVec 24) (tag : Byte)
  /-- CTL (R114, format C): eight flag bits, bit 7 for the first token -/
  | ctl (flags : Byte)
  /-- LIT (R116, format L): the byte to write -/
  | lit (value : Byte)
  /-- REF (R118, format B): distance 1 to 4096 and length 3 to 18, the operands as assembled by R86 -/
  | ref (dist len : Nat)
  /-- FIN (R122): no encoding -/
  | fin
  /-- PEXP (R145, format P): one raw palette entry -/
  | pexp (entry : RawEntry)
  /-- PFIN (R147): no encoding -/
  | pfin
  /-- PIX (R158, format X): a palette index -/
  | pix (index : Byte)
  /-- RFIN (R159): no encoding -/
  | rfin
  /-- DECOMP (R172, format K code 1) -/
  | decomp
  /-- PALX (R173, format K code 2) -/
  | palx
  /-- RECON (R174, format K code 3) -/
  | recon
  /-- FRAME (R175, format K code 4) -/
  | frame
  deriving DecidableEq, Repr

/-- The kind of item an instruction is. -/
def Instr.kind : Instr → Kind
  | .hdr _ _ => .hdr
  | .ctl _ => .ctl
  | .lit _ => .lit
  | .ref _ _ => .ref
  | .fin => .fin
  | .pexp _ => .pexp
  | .pfin => .pfin
  | .pix _ => .pix
  | .rfin => .rfin
  | .decomp => .cmd
  | .palx => .cmd
  | .recon => .cmd
  | .frame => .cmd

end Sys2Proof
end

