-- ==== Sys2Proof/WellFormed.lean ====
section
/-! DEFINITION. Which instructions an encoding can carry (30_encoding.md R86, R97). -/

namespace Sys2Proof

/-- The operand ranges of R97. Only a back-reference can be out of range: every other operand field has
exactly the values of its type, and each of them is legal (R83, R84, R89, R92, R93, R95). -/
def Instr.wf : Instr → Bool
  | .hdr _ _ => true
  | .ctl _ => true
  | .lit _ => true
  | .ref dist len =>
    decide (distMin ≤ dist) && decide (dist ≤ distMax) && decide (lenMin ≤ len) && decide (len ≤ lenMax)
  | .fin => true
  | .pexp _ => true
  | .pfin => true
  | .pix _ => true
  | .rfin => true
  | .decomp => true
  | .palx => true
  | .recon => true
  | .frame => true

end Sys2Proof
end

