-- ==== Sys2Proof/Decode.lean ====
section
/-! DEFINITION. The decoder, total on any kind and bytes, and the encoder (30_encoding.md). Bytes stand in
stream order, lowest index first. A raw palette entry is given as its low byte and its high byte (R60; log
entry 23), a command code as one byte (log entry 22). -/

namespace Sys2Proof

/-- Why bytes are not an item of the kind asked for. -/
inductive DecodeError where
  /-- fewer bytes than the item takes -/
  | short (k : Kind)
  /-- a value written to `CMD` that names no command (R96) -/
  | noSuchCommand (code : Byte)
  deriving DecidableEq, Repr

/-- `MemRead(IN, a, 4)` of R13: four bytes as a little-endian word, `w` of R82. -/
def leWord32 (b0 b1 b2 b3 : Byte) : BitVec 32 := b3 ++ b2 ++ b1 ++ b0

/-- Two bytes as a little-endian word (R13, R60). -/
def leWord16 (b0 b1 : Byte) : BitVec 16 := b1 ++ b0

/-- `declared = w[31:8]` (R82). -/
def headerDeclared (w : BitVec 32) : BitVec 24 := w.extractLsb' 8 24

/-- `tag = w[7:0]` (R82), ignored by the LZD (R92). -/
def headerTag (w : BitVec 32) : Byte := w.extractLsb' 0 8

/-- `dist = ((b0[3:0] << 8) | b1) + 1` (R86). -/
def refDist (b0 b1 : Byte) : Nat := (b0.extractLsb' 0 4 ++ b1).toNat + 1

/-- `len = b0[7:4] + 3` (R86). -/
def refLen (b0 : Byte) : Nat := (b0.extractLsb' 4 4).toNat + 3

/-- `b0 = ((len - 3) << 4) | ((dist - 1) >> 8)` (R86, the inverse). -/
def refByte0 (dist len : Nat) : Byte := BitVec.ofNat 8 ((len - 3) * 16 + (dist - 1) / 256)

/-- `b1 = (dist - 1) & 0xFF` (R86, the inverse). -/
def refByte1 (dist : Nat) : Byte := BitVec.ofNat 8 (dist - 1)

/-- The command that a code written to `CMD` selects (R90). -/
def commandOf (code : Byte) : Option Instr :=
  if code = 1 then some .decomp
  else if code = 2 then some .palx
  else if code = 3 then some .recon
  else if code = 4 then some .frame
  else none

/-- The item of kind `k` at the head of the bytes, and the bytes after it. -/
def decode : Kind → List Byte → Except DecodeError (Instr × List Byte)
  | .hdr, b0 :: b1 :: b2 :: b3 :: rest =>
    .ok (.hdr (headerDeclared (leWord32 b0 b1 b2 b3)) (headerTag (leWord32 b0 b1 b2 b3)), rest)
  | .hdr, _ => .error (.short .hdr)
  | .ctl, b :: rest => .ok (.ctl b, rest)
  | .ctl, [] => .error (.short .ctl)
  | .lit, b :: rest => .ok (.lit b, rest)
  | .lit, [] => .error (.short .lit)
  | .ref, b0 :: b1 :: rest => .ok (.ref (refDist b0 b1) (refLen b0), rest)
  | .ref, _ => .error (.short .ref)
  | .fin, bs => .ok (.fin, bs)
  | .pexp, b0 :: b1 :: rest => .ok (.pexp (leWord16 b0 b1), rest)
  | .pexp, _ => .error (.short .pexp)
  | .pfin, bs => .ok (.pfin, bs)
  | .pix, b :: rest => .ok (.pix b, rest)
  | .pix, [] => .error (.short .pix)
  | .rfin, bs => .ok (.rfin, bs)
  | .cmd, b :: rest =>
    match commandOf b with
    | some i => .ok (i, rest)
    | none => .error (.noSuchCommand b)
  | .cmd, [] => .error (.short .cmd)

/-- The bytes of a well-formed instruction (R82 to R90, R97). -/
def encode : Instr → List Byte
  | .hdr declared tag =>
    [tag, declared.extractLsb' 0 8, declared.extractLsb' 8 8, declared.extractLsb' 16 8]
  | .ctl flags => [flags]
  | .lit value => [value]
  | .ref dist len => [refByte0 dist len, refByte1 dist]
  | .fin => []
  | .pexp entry => [entry.extractLsb' 0 8, entry.extractLsb' 8 8]
  | .pfin => []
  | .pix index => [index]
  | .rfin => []
  | .decomp => [1]
  | .palx => [2]
  | .recon => [3]
  | .frame => [4]

/-- `n` bytes of a number, least significant first. -/
def leBytes : Nat → Nat → List Byte
  | 0, _ => []
  | n + 1, w => BitVec.ofNat 8 w :: leBytes n (w / 256)

/-- The kind under which the host's table check reads a row's bits. The table's rows have no opcode (R100),
so a number of bits and a value select a kind here: DESIGN CHOICE, log entry 20. -/
def tableKind (nbits w : Nat) : Option Kind :=
  if nbits = 32 then some .hdr
  else if nbits = 16 then some .ref
  else if nbits = 8 ∨ nbits = 3 then
    if 1 ≤ w ∧ w ≤ 4 then some .cmd else if nbits = 8 then some .ctl else none
  else if nbits = 0 then some .fin
  else none

/-- The instruction the decoder reads from the bits `w` of a row of `nbits` bits. -/
def decodeTableWord (nbits w : Nat) : Option Instr :=
  match tableKind nbits w with
  | none => none
  | some k =>
    match decode k (leBytes 4 w) with
    | .ok (i, _) => some i
    | .error _ => none

end Sys2Proof
end

