-- ==== Sys2Proof/Machine/State.lean ====
section
/-! DEFINITION. The state of the block as plain data (10_state.md), why a step can stop, and reset. -/

namespace Sys2Proof.Machine

/-- `run` (R30). -/
inductive Run where
  | idle | busy | fault
  deriving DecidableEq, Repr

/-- `cmd` (R30): the command being executed. -/
inductive Cmd where
  | decomp | palx | recon | frame
  deriving DecidableEq, Repr

/-- `unit` (R30): the unit that steps next. -/
inductive UnitId where
  | lzd | pex | frc
  deriving DecidableEq, Repr

/-- `phase` (R30): whether the LZD has read the header. -/
inductive Phase where
  | hdr | tok
  deriving DecidableEq, Repr

/-- The five memory spaces (R50). -/
inductive Space where
  | inp | img | palRaw | palExp | out
  deriving DecidableEq, Repr

/-- The fault causes (R190). -/
inductive Cause where
  | inputUnderrun | lengthExceedsCapacity | distanceBeforeStart | copyOverrun | imageIncomplete
  | paletteNotLoaded | paletteNotExpanded | badCommand | hostProtocol
  deriving DecidableEq, Repr

/-- A move of the host (R181). -/
inductive HostMove where
  /-- reset (R220) -/
  | reset
  /-- HostLoadIn (R179) -/
  | loadIn (bytes : List Byte)
  /-- HostLoadPal (R180) -/
  | loadPal (entries : List RawEntry)
  /-- a write of a 3-bit value to `CMD` (R90, R171, R177) -/
  | writeCmd (code : BitVec 3)
  /-- a write to the register `IN_LEN` (R44) -/
  | writeInLen (value : BitVec 32)
  /-- a write to any other register number; no such register can be written (R39 to R44) -/
  | writeOther (number : Nat)
  /-- a read of a register by its number (R44, R181) -/
  | readReg (number : Nat)
  /-- a read of `IMG[0 .. img_valid - 1]` (R181) -/
  | readImg
  /-- a read of `OUT[0 .. OUT_LEN - 1]` (R181) -/
  | readOut
  deriving DecidableEq, Repr

/-- Who moves next (R207; log entry 6). -/
inductive Turn where
  /-- the block takes its enabled step, if it has one -/
  | block
  /-- the block steps until it no longer runs: the host waits for the end of the run (R183) -/
  | await
  /-- the host makes a move -/
  | host (m : HostMove)
  deriving DecidableEq, Repr

/-- What the host got back from its last read (R181; log entry 6). -/
inductive Reply where
  | nothing
  | register (value : BitVec 32)
  | bytes (bs : List Byte)
  deriving DecidableEq, Repr

/-- The whole state of the block (R20), with the model's own fields `params`, `turns`, `reply` and
`draws`. -/
structure State where
  /-- the parameters `WIDTH`, `HEIGHT`, `IN_CAP`, `PAL_LAYOUT` (R46): never written (log entry 1) -/
  params : Params
  /-- `ip`, the input cursor and program counter (R21) -/
  ip : Nat
  /-- `op`, the output cursor (R22) -/
  op : Nat
  /-- `end`, one past the last byte the LZD is to write (R23) -/
  endAt : Nat
  /-- `ctl`, the control byte shift register (R24) -/
  ctl : BitVec 8
  /-- `nbits`, the tokens the control byte still governs (R25) -/
  nbits : Nat
  /-- `pidx`, the next raw palette entry (R26) -/
  pidx : Nat
  /-- `fy`, the row of the next pixel (R27) -/
  fy : Nat
  /-- `fx`, the column of the next pixel (R27) -/
  fx : Nat
  /-- `wp`, the next index of `OUT` (R28) -/
  wp : Nat
  /-- `run` (R30) -/
  run : Run
  /-- `cmd` (R30) -/
  cmd : Cmd
  /-- `unit` (R30) -/
  unit : UnitId
  /-- `phase` (R30) -/
  phase : Phase
  /-- `done` (R30) -/
  done : Bool
  /-- `IN_LEN`, register 4 (R31, R44) -/
  inLen : Nat
  /-- `FAULT_CAUSE`, register 2 (R40) -/
  faultCause : BitVec 4
  /-- `FAULT_INFO`, register 3 (R41) -/
  faultInfo : BitVec 32
  /-- `IN` (R32) -/
  inp : Cells 8
  /-- `IMG` (R33) -/
  img : Cells 8
  /-- `img_valid`, read as register 5 `IMG_COUNT` (R33, R42) -/
  imgValid : Nat
  /-- `PAL_RAW` (R34) -/
  palRaw : Cells 16
  /-- `pal_raw_valid` (R34) -/
  palRawValid : Bool
  /-- `PAL_EXP` (R35) -/
  palExp : Cells 24
  /-- `pal_exp_valid` (R35) -/
  palExpValid : Bool
  /-- `OUT` (R36) -/
  out : Cells 8
  /-- `out_valid` (R36) -/
  outValid : Bool
  /-- the schedule of the block and the host (log entry 6) -/
  turns : List Turn
  /-- what the host read last (log entry 6) -/
  reply : Reply
  /-- how many free values were drawn (log entry 26) -/
  draws : Nat
  deriving DecidableEq, Repr

/-- Why the MODEL stops. The block's own faults (R190) are no stops: they are next states with
`run = FAULT`. -/
inductive Fault where
  /-- A step reaches an index its space does not have (R50). Raised by the access to one unit. SAFE. No
  state of a run has it (R205; log entry 9). -/
  | outsideSpace (space : Space) (index : Nat)
  deriving DecidableEq, Repr

/-- Why the model has no meaning for a step. -/
inductive Refusal where
  /-- An instruction that has no meaning in this model; raised by `exec` alone. SAFE. No arm has it. -/
  | notModelled (mnemonic : String)
  /-- A rule is applied to a state in which its condition does not hold (R15); raised by the meanings of the
  units' steps. `step` never asks for that. SAFE (log entry 10). -/
  | notEnabled (k : Kind)
  /-- A running unit for which no rule's condition holds, which cannot occur (R128, R146, R160); raised by the
  block's step. SAFE (log entry 11). -/
  | noEnabledStep
  /-- A unit's final step under a command that does not run the unit, which cannot occur (R176); raised by FIN,
  PFIN and RFIN. SAFE (log entry 11). -/
  | noChainRow
  /-- The bytes fetched are not an item of the kind asked for, which cannot occur (R95); raised by the block's
  step. SAFE. -/
  | undecodable
  /-- HostLoadIn of more bytes than `IN` has (R179); raised by that move. SAFE (log entry 15). -/
  | inputTooLong
  /-- HostLoadPal of other than 256 entries (R180); raised by that move. SAFE (log entry 15). -/
  | paletteNotWhole
  /-- A write to `IN_LEN` of more than `IN_CAP` (R31); raised by that move. SAFE (log entry 15). -/
  | inLenTooLarge
  /-- An access to a register number that does not exist (R44, U18); raised by the register moves. SAFE (log
  entry 17). -/
  | noSuchRegister (number : Nat)
  /-- A write to a read-only register (R39 to R42); raised by that move. SAFE (log entry 17). -/
  | readOnlyRegister (number : Nat)
  /-- A read of `IMG` or `OUT` when it is not allowed, or of a unit that holds no value: it has no defined result
  (R181, U15, U16); raised by those moves. SAFE (log entry 18). -/
  | readNotAllowed (space : Space)
  deriving DecidableEq, Repr

/-- What a meaning answers. -/
abbrev Out := Host.Outcome State Fault Refusal

/-- The state after reset (R45, R220) of a block with parameters `p`, in which `turns`, `reply` and
`draws` stand as given. Every register R45 calls unspecified holds the value of log entries 4 and 5. -/
def State.resetWith (p : Params) (turns : List Turn) (reply : Reply) (draws : Nat) : State :=
  { params := p
    ip := 0, op := 0, endAt := 0, ctl := 0, nbits := 0
    pidx := 0
    fy := 0, fx := 0, wp := 0
    run := .idle, cmd := .decomp, unit := .lzd, phase := .hdr, done := false
    inLen := 0
    faultCause := 0, faultInfo := 0
    inp := [], img := [], imgValid := 0
    palRaw := [], palRawValid := false
    palExp := [], palExpValid := false
    out := [], outValid := false
    turns := turns, reply := reply, draws := draws }

/-- The machine right after reset (R45), for an arbitrary legal geometry (log entry 1). -/
def State.reset : State := State.resetWith Config.params [] .nothing 0

end Sys2Proof.Machine
end

