-- ==== Sys2Proof/Machine/Flags.lean ====
section
/-! DEFINITION. The token flag, the codes the registers hold, and the registers the host reads
(10_state.md R37 to R44, 60_exceptions.md R190). -/

namespace Sys2Proof.Machine

/-- The token flag `ctl[7]` (R37): set means back-reference. -/
def tokenFlag (s : State) : Bool := s.ctl.getLsbD 7

/-- `ctl <- (ctl << 1)[7:0]` (R24). -/
def shiftFlags (ctl : BitVec 8) : BitVec 8 := ctl <<< 1

/-- The code that `FAULT_CAUSE` holds for a cause (R190). -/
def Cause.code : Cause → BitVec 4
  | .inputUnderrun => 1
  | .lengthExceedsCapacity => 2
  | .distanceBeforeStart => 3
  | .copyOverrun => 4
  | .imageIncomplete => 5
  | .paletteNotLoaded => 6
  | .paletteNotExpanded => 7
  | .badCommand => 8
  | .hostProtocol => 9

/-- The code of a command (R90). -/
def Cmd.code : Cmd → BitVec 3
  | .decomp => 1
  | .palx => 2
  | .recon => 3
  | .frame => 4

/-- `STATUS` (R39), bit 7 first: reserved, OUT_VALID, PAL_EXP_VALID, PAL_RAW_VALID, IMG_FULL, FAULT, DONE,
BUSY. -/
def status (s : State) : BitVec 8 :=
  0#1 ++ BitVec.ofBool s.outValid ++ BitVec.ofBool s.palExpValid ++ BitVec.ofBool s.palRawValid ++
    BitVec.ofBool (decide (s.imgValid = s.params.imgCap)) ++ BitVec.ofBool (decide (s.run = .fault)) ++
    BitVec.ofBool s.done ++ BitVec.ofBool (decide (s.run = .busy))

/-- What a read of a register number gives the host (R39 to R44), widened to 32 bits; no value for a number
that does not exist. -/
def readRegister (s : State) : Nat → Option (BitVec 32)
  | 0 => some 0
  | 1 => some ((status s).setWidth 32)
  | 2 => some (s.faultCause.setWidth 32)
  | 3 => some s.faultInfo
  | 4 => some (BitVec.ofNat 32 s.inLen)
  | 5 => some ((BitVec.ofNat 24 s.imgValid).setWidth 32)
  | _ => none

end Sys2Proof.Machine
end

