-- ==== Sys2Proof/Machine/Operands.lean ====
section
/-! DEFINITION. What the units compute from their operands: the palette channels and their expansion
(41_palette_expander.md), the bytes of a pixel and its address (42_frame_reconstructor.md). The operands of
the stream items are assembled in Sys2Proof/Decode.lean. -/

namespace Sys2Proof.Machine

/-- `v[4:0]`, `v[9:5]`, `v[14:10]` of a raw palette entry (R87). Bit 15 is unused (R93). -/
def lowChannel (v : RawEntry) : BitVec 5 := v.extractLsb' 0 5
def midChannel (v : RawEntry) : BitVec 5 := v.extractLsb' 5 5
def highChannel (v : RawEntry) : BitVec 5 := v.extractLsb' 10 5

/-- `R5` (R87). -/
def red5 (l : PalLayout) (v : RawEntry) : BitVec 5 :=
  match l with
  | .redLow => lowChannel v
  | .redHigh => highChannel v

/-- `G5` (R87), the same under both layouts. -/
def green5 (v : RawEntry) : BitVec 5 := midChannel v

/-- `B5` (R87). -/
def blue5 (l : PalLayout) (v : RawEntry) : BitVec 5 :=
  match l with
  | .redLow => highChannel v
  | .redHigh => lowChannel v

/-- `expand(v)` (R141, R143): each channel in the high 5 bits of its byte, the low 3 bits zero. -/
def expand (l : PalLayout) (v : RawEntry) : Colour :=
  red5 l v ++ 0#3 ++ green5 v ++ 0#3 ++ blue5 l v ++ 0#3

/-- `R8 = c[23:16]`, `G8 = c[15:8]`, `B8 = c[7:0]` (R88). -/
def red8 (c : Colour) : Byte := c.extractLsb' 16 8
def green8 (c : Colour) : Byte := c.extractLsb' 8 8
def blue8 (c : Colour) : Byte := c.extractLsb' 0 8

/-- The three bytes of an output pixel in the order they are appended (R61, R89). -/
def pixelBytes (c : Colour) : List Byte := [red8 c, green8 c, blue8 c]

/-- The index in `IMG` of pixel (x, y): `y * WIDTH + x` (R156). -/
def pixelIndex (p : Params) (x y : Nat) : Nat := y * p.width + x

/-- The column and the row of the pixel after (x, y) in the sweep of R157, as R158 writes them: along the
row, then the row below it in the index order of `IMG` reversed; after the last pixel (0, 0). -/
def nextPixel (p : Params) (x y : Nat) : Nat × Nat :=
  if x + 1 < p.width then (x + 1, y)
  else if 0 < y then (0, y - 1)
  else (0, y)

end Sys2Proof.Machine
end

