-- ==== Sys2Proof/Machine/Ops.lean ====
section
/-! DEFINITION. The shared operations: the buffers, raising a fault, dispatch, the start and the end of a
unit, and the acceptance of a command. -/

namespace Sys2Proof.Machine

/-! ### Buffers (20_memory.md) -/

/-- The value of the unit at index `a`, or none (R57). -/
def unitAt {w : Nat} : Cells w → Nat → Option (BitVec w)
  | [], _ => none
  | (b, v) :: rest, a => if a = b then some v else unitAt rest a

/-- The buffer with `v` at index `a`, its units in rising order. -/
def putUnit {w : Nat} : Cells w → Nat → BitVec w → Cells w
  | [], a, v => [(a, v)]
  | (b, u) :: rest, a, v =>
    if a < b then (a, v) :: (b, u) :: rest
    else if a = b then (a, v) :: rest
    else (b, u) :: putUnit rest a v

/-- The canonical form of a buffer: indices strictly rising, so that equal contents are equal data. An
unlisted unit holds no value, which no entry can equal. -/
abbrev Memory.wf {w : Nat} (m : Cells w) : Prop := m.Pairwise (fun p q => p.1 < q.1)

/-- Why an access to one unit gives no result. -/
inductive Miss where
  /-- a read of a unit that holds no value (R13, R57) -/
  | noValue (space : Space) (index : Nat)
  /-- an index the space does not have (R50) -/
  | outside (space : Space) (index : Nat)
  deriving DecidableEq, Repr

/-- `MemRead(S, a, 1)` (R13) of a space of `cap` units. -/
def readUnit {w : Nat} (sp : Space) (cap : Nat) (m : Cells w) (a : Nat) : Except Miss (BitVec w) :=
  if a < cap then
    match unitAt m a with
    | some v => .ok v
    | none => .error (.noValue sp a)
  else .error (.outside sp a)

/-- `MemWrite(S, a, 1, v)` (R13) in a space of `cap` units. -/
def writeUnit {w : Nat} (sp : Space) (cap : Nat) (m : Cells w) (a : Nat) (v : BitVec w) :
    Except Miss (Cells w) :=
  if a < cap then .ok (putUnit m a v) else .error (.outside sp a)

/-- `n` consecutive units from index `a` up (R13). -/
def readRun {w : Nat} (sp : Space) (cap : Nat) (m : Cells w) (a : Nat) : Nat → Except Miss (List (BitVec w))
  | 0 => .ok []
  | n + 1 =>
    match readUnit sp cap m a with
    | .error f => .error f
    | .ok v =>
      match readRun sp cap m (a + 1) n with
      | .error f => .error f
      | .ok vs => .ok (v :: vs)

/-- The values in order from index `a` up. -/
def writeRun {w : Nat} (sp : Space) (cap : Nat) (m : Cells w) (a : Nat) :
    List (BitVec w) → Except Miss (Cells w)
  | [] => .ok m
  | v :: vs =>
    match writeUnit sp cap m a v with
    | .error f => .error f
    | .ok m' => writeRun sp cap m' (a + 1) vs

/-- The copy loop of R120: `n` bytes from `src` to `dst`, one at a time and ascending, each read after the
writes before it. -/
def copyLoop (cap : Nat) (m : Cells 8) (src dst : Nat) : Nat → Except Miss (Cells 8)
  | 0 => .ok m
  | n + 1 =>
    match readUnit .img cap m src with
    | .error f => .error f
    | .ok v =>
      match writeUnit .img cap m dst v with
      | .error f => .error f
      | .ok m' => copyLoop cap m' (src + 1) (dst + 1) n

/-- A buffer whose units from index `a` up hold the values, and no other unit holds one. -/
def cellsFrom {w : Nat} (a : Nat) : List (BitVec w) → Cells w
  | [] => []
  | v :: vs => (a, v) :: cellsFrom (a + 1) vs

/-- The buffer without its units at index `n` and above. -/
def keepBelow {w : Nat} (n : Nat) (m : Cells w) : Cells w := m.filter (fun p => decide (p.1 < n))

/-! ### Faults (60_exceptions.md) -/

/-- Fault entry (R14, R200): `run <- FAULT`, `FAULT_CAUSE <- code`, `FAULT_INFO <- info`, `done <- false`, and
nothing else. There is no return from it but reset (R203, R220). -/
def enterFault (code : BitVec 4) (info : BitVec 32) (s : State) : State :=
  { s with run := .fault, faultCause := code, faultInfo := info, done := false }

/-- `raise Fault(cause, info)` of a named cause, with `FAULT_INFO <- zext_32(info)` (R200). -/
def raiseFault (c : Cause) (info : Nat) (s : State) : State := enterFault c.code (BitVec.ofNat 32 info) s

/-- A fault whose cause and information the spec does not name: both are free values (log entry 26). -/
def raiseUnnamed (s : State) : State :=
  { enterFault (Config.freeFaultCode s.draws) (Config.faultInfoDraw s.draws) s with draws := s.draws + 1 }

/-- The fault that a step raises when it reads a unit of a space that holds no value (R13). For `IN` it is
`InputUnderrun` with `ip`, where a host that loaded too little ends (R179, R191) and the one fault CTL and LIT can
have (R205; DEDUCED, log entry 8); for the other spaces, which no step reads so (R57), the spec names no cause. -/
def raiseNoValue (sp : Space) (s : State) : State :=
  match sp with
  | .inp => raiseFault .inputUnderrun s.ip s
  | .img => raiseUnnamed s
  | .palRaw => raiseUnnamed s
  | .palExp => raiseUnnamed s
  | .out => raiseUnnamed s

/-- A step whose access gave no result, made in the state before the step: the fault of R13 with no other write
(R14), or the model's stop at an index that does not exist (log entry 9). -/
def missed (m : Miss) (s : State) : Out :=
  match m with
  | .noValue sp _ => .next (raiseNoValue sp s)
  | .outside sp a => .fault (.outsideSpace sp a)

/-- The only way out of a fault (R203, R220): the state of R45. The parameters, the schedule, the host's last
reply and the count of draws are not the block's (log entries 1, 6, 26). -/
def resetBlock (s : State) : State := State.resetWith s.params s.turns s.reply s.draws

/-! ### Dispatch (R111, R146, R160) -/

/-- The step of the LZD whose condition holds (R111). -/
def selectLzd (s : State) : Option Kind :=
  match s.phase with
  | .hdr => some .hdr
  | .tok =>
    if s.op = s.endAt then some .fin
    else if s.endAt < s.op then none
    else if s.nbits = 0 then some .ctl
    else if tokenFlag s then some .ref
    else some .lit

/-- The step of PEX whose condition holds (R146). -/
def selectPex (s : State) : Option Kind :=
  if s.pidx < palSize then some .pexp
  else if s.pidx = palSize then some .pfin
  else none

/-- The step of FRC whose condition holds (R160). -/
def selectFrc (s : State) : Option Kind :=
  if s.wp < s.params.outLen then some .pix
  else if s.wp = s.params.outLen then some .rfin
  else none

/-- The step of the running unit whose condition holds; none when the block does not run. -/
def select (s : State) : Option Kind :=
  match s.run with
  | .idle => none
  | .fault => none
  | .busy =>
    match s.unit with
    | .lzd => selectLzd s
    | .pex => selectPex s
    | .frc => selectFrc s

/-- A rule applies only where its condition holds (R15, R16). -/
def whenEnabled (k : Kind) (s : State) (body : Out) : Out :=
  if select s = some k then body else .refused (.notEnabled k)

/-- The check of R56 on an item of `n` bytes, made before all else: `InputUnderrun` records `ip` (R191). -/
def withInput (n : Nat) (s : State) (body : Out) : Out :=
  if s.inLen < s.ip + n then .next (raiseFault .inputUnderrun s.ip s) else body

/-! ### The LZD's state changes -/

/-- After a token of `k` input bytes that wrote `n` bytes, leaving `IMG` as `img'` (R116, R118). -/
def afterToken (n k : Nat) (img' : Cells 8) (s : State) : State :=
  { s with
    img := img', imgValid := s.op + n, op := s.op + n, ip := s.ip + k,
    ctl := shiftFlags s.ctl, nbits := s.nbits - 1 }

/-! ### Starting and ending a unit (43_commands.md) -/

/-- The start of the LZD by `c` (R171, R172, R175). `img_valid <- 0` leaves every byte of `IMG` without a
value (R172; log entry 12). -/
def startLzd (c : Cmd) (s : State) : State :=
  { s with
    done := false, cmd := c, run := .busy, unit := .lzd, phase := .hdr,
    ip := 0, op := 0, endAt := 0, ctl := 0, nbits := 0, img := [], imgValid := 0 }

/-- The check of the PALX start (R173). -/
def pexCheck (s : State) : Option (Cause × Nat) :=
  if s.palRawValid then none else some (.paletteNotLoaded, 0)

/-- The rest of the PALX start (R173). Clearing the mark leaves `PAL_EXP` without values (R57; log entry 12). -/
def startPex (s : State) : State :=
  { s with run := .busy, unit := .pex, pidx := 0, palExp := [], palExpValid := false }

/-- The checks of the RECON start, in their order (R174, R202). -/
def frcCheck (s : State) : Option (Cause × Nat) :=
  if s.imgValid ≠ s.params.npix then some (.imageIncomplete, s.imgValid)
  else if s.palExpValid then none
  else some (.paletteNotExpanded, 0)

/-- The rest of the RECON start (R174). Clearing the mark leaves `OUT` without values (R57; log entry 12). -/
def startFrc (s : State) : State :=
  { s with
    run := .busy, unit := .frc, fy := s.params.height - 1, fx := 0, wp := 0, out := [], outValid := false }

/-- `done <- false`, `cmd <- k` of an accepted command (R171). -/
def accepted (c : Cmd) (s : State) : State := { s with done := false, cmd := c }

/-- A start whose check failed raises its fault and starts nothing (R171, R176, R201). -/
def startChecked (check : Option (Cause × Nat)) (started s : State) : State :=
  match check with
  | none => started
  | some (c, info) => raiseFault c info s

/-- The end of a command: `run <- IDLE`, `done <- true` (R176). -/
def complete (s : State) : State := { s with run := .idle, done := true }

/-- A write of the code of `c` to `CMD` (R171, R177): accepted while idle, a protocol fault while busy, ignored
while faulted. -/
def commandWrite (c : Cmd) (onIdle s : State) : State :=
  match s.run with
  | .idle => onIdle
  | .busy => raiseFault .hostProtocol c.code.toNat s
  | .fault => s

end Sys2Proof.Machine
end

