-- ==== Sys2Proof/Machine/Frc.lean ====
section
/-! DEFINITION. The meanings of the frame reconstructor's steps (42_frame_reconstructor.md). -/

namespace Sys2Proof.Machine

/-- After a pixel whose bytes left `OUT` as `out'`: `wp` and the sweep move on (R158). -/
def afterPixel (out' : Cells 8) (s : State) : State :=
  { s with
    out := out', wp := s.wp + 3,
    fx := (nextPixel s.params s.fx s.fy).1, fy := (nextPixel s.params s.fx s.fy).2 }

/-- PIX (R158): the palette index looked up, its three bytes appended (R89). -/
def execPix (index : Byte) (s : State) : Out :=
  whenEnabled .pix s
    (match readUnit .palExp palSize s.palExp index.toNat with
    | .error m => missed m s
    | .ok c =>
      match writeRun .out s.params.outLen s.out s.wp (pixelBytes c) with
      | .error m => missed m s
      | .ok out' => .next (afterPixel out' s))

/-- RFIN (R159, R176): RECON or FRAME completes. -/
def execRfin (s : State) : Out :=
  whenEnabled .rfin s
    (match s.cmd with
    | .recon => .next (complete { s with outValid := true })
    | .frame => .next (complete { s with outValid := true })
    | .decomp => .refused .noChainRow
    | .palx => .refused .noChainRow)

end Sys2Proof.Machine
end

