-- ==== Sys2Proof/Machine/Lzd.lean ====
section
/-! DEFINITION. The meanings of the LZD's steps (40_lz_tokens.md). -/

namespace Sys2Proof.Machine

/-- HDR (R112). The tag has no effect (R92). -/
def execHdr (declared : BitVec 24) (_tag : Byte) (s : State) : Out :=
  whenEnabled .hdr s (withInput 4 s
    (if s.params.imgCap < declared.toNat then
      .next (raiseFault .lengthExceedsCapacity declared.toNat s)
    else
      .next { s with endAt := declared.toNat, op := 0, ctl := 0, nbits := 0, ip := s.ip + 4, phase := .tok }))

/-- CTL (R114). -/
def execCtl (flags : Byte) (s : State) : Out :=
  whenEnabled .ctl s (withInput 1 s (.next { s with ctl := flags, nbits := 8, ip := s.ip + 1 }))

/-- LIT (R116). -/
def execLit (value : Byte) (s : State) : Out :=
  whenEnabled .lit s (withInput 1 s
    (match writeUnit .img s.params.imgCap s.img s.op value with
    | .error m => missed m s
    | .ok img' => .next (afterToken 1 1 img' s)))

/-- REF (R118), its three checks in the order of R202, then the copy loop of R120. -/
def execRef (dist len : Nat) (s : State) : Out :=
  whenEnabled .ref s (withInput 2 s
    (if s.op < dist then .next (raiseFault .distanceBeforeStart s.ip s)
    else if s.endAt < s.op + len then .next (raiseFault .copyOverrun s.ip s)
    else
      match copyLoop s.params.imgCap s.img (s.op - dist) s.op len with
      | .error m => missed m s
      | .ok img' => .next (afterToken len 2 img' s)))

/-- FIN (R122) with the hand-over of R176: DECOMP completes, FRAME starts PEX. -/
def execFin (s : State) : Out :=
  whenEnabled .fin s
    (match s.cmd with
    | .decomp => .next (complete s)
    | .frame => .next (startChecked (pexCheck s) (startPex s) s)
    | .palx => .refused .noChainRow
    | .recon => .refused .noChainRow)

end Sys2Proof.Machine
end

