-- ==== Sys2Proof/Machine/Pex.lean ====
section
/-! DEFINITION. The meanings of the palette expander's steps (41_palette_expander.md). -/

namespace Sys2Proof.Machine

/-- PEXP (R145): one entry expanded (R141). -/
def execPexp (entry : RawEntry) (s : State) : Out :=
  whenEnabled .pexp s
    (match writeUnit .palExp palSize s.palExp s.pidx (expand s.params.layout entry) with
    | .error m => missed m s
    | .ok palExp' => .next { s with palExp := palExp', pidx := s.pidx + 1 })

/-- `pal_exp_valid <- true`, the first thing PFIN does (R147, R176). -/
def markPalExp (s : State) : State := { s with palExpValid := true }

/-- PFIN (R147) with the hand-over of R176: PALX completes, FRAME starts FRC after its checks. The mark stays
set when such a check fails (R176, vector P6; log entry 13). -/
def execPfin (s : State) : Out :=
  whenEnabled .pfin s
    (match s.cmd with
    | .palx => .next (complete (markPalExp s))
    | .frame =>
      .next (startChecked (frcCheck (markPalExp s)) (startFrc (markPalExp s)) (markPalExp s))
    | .decomp => .refused .noChainRow
    | .recon => .refused .noChainRow)

end Sys2Proof.Machine
end

