-- ==== Sys2Proof/Machine/Seq.lean ====
section
/-! DEFINITION. The meanings of the four commands (43_commands.md R170 to R177). -/

namespace Sys2Proof.Machine

/-- DECOMP (R172). -/
def execDecomp (s : State) : Out := .next (commandWrite .decomp (startLzd .decomp s) s)

/-- PALX (R173). -/
def execPalx (s : State) : Out :=
  .next (commandWrite .palx (startChecked (pexCheck s) (startPex (accepted .palx s)) s) s)

/-- RECON (R174). -/
def execRecon (s : State) : Out :=
  .next (commandWrite .recon (startChecked (frcCheck s) (startFrc (accepted .recon s)) s) s)

/-- FRAME (R175): the DECOMP start with `cmd <- FRAME`. -/
def execFrame (s : State) : Out := .next (commandWrite .frame (startLzd .frame s) s)

end Sys2Proof.Machine
end

