-- ==== Sys2Proof/Machine/Dispatch.lean ====
section
/-! DEFINITION. Which meaning each instruction has. -/

namespace Sys2Proof.Machine

def exec (i : Instr) (s : State) : Host.Outcome State Fault Refusal :=
  match i with
  | .hdr declared tag => Sys2Proof.Machine.execHdr declared tag s
  | .ctl flags => Sys2Proof.Machine.execCtl flags s
  | .lit value => Sys2Proof.Machine.execLit value s
  | .ref dist len => Sys2Proof.Machine.execRef dist len s
  | .fin => Sys2Proof.Machine.execFin s
  | .pexp entry => Sys2Proof.Machine.execPexp entry s
  | .pfin => Sys2Proof.Machine.execPfin s
  | .pix index => Sys2Proof.Machine.execPix index s
  | .rfin => Sys2Proof.Machine.execRfin s
  | .decomp => Sys2Proof.Machine.execDecomp s
  | .palx => Sys2Proof.Machine.execPalx s
  | .recon => Sys2Proof.Machine.execRecon s
  | .frame => Sys2Proof.Machine.execFrame s

end Sys2Proof.Machine
end

