-- ==== Sys2Proof/Machine/Fetch.lean ====
section
/-! DEFINITION. How the running unit gets its next item (20_memory.md R55, R64), and the block's step. -/

namespace Sys2Proof.Machine

/-- What a fetch gives. -/
inductive Fetched where
  /-- the bytes of the item -/
  | item (bs : List Byte)
  /-- the item is not wholly below `IN_LEN` (R56) -/
  | underrun
  /-- a unit that gives no result -/
  | miss (m : Miss)
  deriving DecidableEq, Repr

/-- `n` bytes of `IN` at `ip`, the whole item or nothing (R56, R64). -/
def fetchStream (n : Nat) (s : State) : Fetched :=
  if s.inLen < s.ip + n then .underrun
  else
    match readRun .inp s.params.inCap s.inp s.ip n with
    | .error m => .miss m
    | .ok bs => .item bs

/-- The entry `PAL_RAW[pidx]` (R145). -/
def fetchEntry (s : State) : Fetched :=
  match readUnit .palRaw palSize s.palRaw s.pidx with
  | .error m => .miss m
  | .ok v => .item [v.extractLsb' 0 8, v.extractLsb' 8 8]

/-- The byte `IMG[fy * WIDTH + fx]` (R158). -/
def fetchPixel (s : State) : Fetched :=
  match readUnit .img s.params.imgCap s.img (pixelIndex s.params s.fx s.fy) with
  | .error m => .miss m
  | .ok k => .item [k]

/-- The bytes of the item of kind `k` that the running unit stands at. The final steps have none (R100); a
command comes from the host. -/
def fetch (k : Kind) (s : State) : Fetched :=
  match k with
  | .hdr => fetchStream 4 s
  | .ctl => fetchStream 1 s
  | .lit => fetchStream 1 s
  | .ref => fetchStream 2 s
  | .fin => .item []
  | .pexp => fetchEntry s
  | .pfin => .item []
  | .pix => fetchPixel s
  | .rfin => .item []
  | .cmd => .item []

/-- The step of kind `k`: fetch, decode, run. An item that is not whole raises `InputUnderrun` (R56, R191),
and a unit that holds no value the fault of R13. -/
def runItem (k : Kind) (s : State) : Out :=
  match fetch k s with
  | .underrun => .next (raiseFault .inputUnderrun s.ip s)
  | .miss m => missed m s
  | .item bs =>
    match decode k bs with
    | .ok (i, _) => exec i s
    | .error _ => .refused .undecodable

/-- The block's step (R15): the one step of the running unit that is enabled. While `run` is not `BUSY` the block
has no step and nothing changes (R200, R221; log entry 7). -/
def blockStep (s : State) : Out :=
  match s.run with
  | .idle => .next s
  | .fault => .next s
  | .busy =>
    match select s with
    | none => .refused .noEnabledStep
    | some k => runItem k s

end Sys2Proof.Machine
end

