-- ==== Sys2Proof/Machine/HostPort.lean ====
section
/-! DEFINITION. The moves of the host (43_commands.md R177, R179 to R181). -/

namespace Sys2Proof.Machine

/-- A host write that only an idle block takes: a protocol fault that records `info` while it runs, ignored after a
fault (R177, R199). -/
def hostWrite (info : Nat) (onIdle : Out) (s : State) : Out :=
  match s.run with
  | .idle => onIdle
  | .busy => .next (raiseFault .hostProtocol info s)
  | .fault => .next s

/-- HostLoadIn (R179): the bytes from index 0 up, no value above them, `IN_LEN <- n`. -/
def hostLoadIn (bs : List Byte) (s : State) : Out :=
  hostWrite 0
    (if s.params.inCap < bs.length then .refused .inputTooLong
    else .next { s with inp := cellsFrom 0 bs, inLen := bs.length }) s

/-- HostLoadPal (R180): all 256 entries or nothing; `pal_exp_valid` is not changed. -/
def hostLoadPal (vs : List RawEntry) (s : State) : Out :=
  hostWrite 0
    (if vs.length = palSize then .next { s with palRaw := cellsFrom 0 vs, palRawValid := true }
    else .refused .paletteNotWhole) s

/-- A write to `CMD`: the command its code names (R171), else `BadCommand` (R96, R177, R198). -/
def hostWriteCmd (code : BitVec 3) (s : State) : Out :=
  match decode .cmd [code.setWidth 8] with
  | .ok (i, _) => exec i s
  | .error _ => hostWrite code.toNat (.next (raiseFault .badCommand code.toNat s)) s

/-- A write to `IN_LEN` (R31, R44). Bytes at and above the new length hold no value (R32; log entry 16). -/
def hostWriteInLen (v : BitVec 32) (s : State) : Out :=
  hostWrite 0
    (if s.params.inCap < v.toNat then .refused .inLenTooLarge
    else .next { s with inp := keepBelow v.toNat s.inp, inLen := v.toNat }) s

/-- A write to any other register number: ignored after a fault (R177), else not a move the block has (R39 to R44,
U18; log entry 17). The numbers 0 and 4 are written by the two moves above. -/
def hostWriteOther (n : Nat) (s : State) : Out :=
  match s.run with
  | .fault => .next s
  | _ => if n < 6 then .refused (.readOnlyRegister n) else .refused (.noSuchRegister n)

/-- A read of a register, allowed at any time (R181), without side effect (R64). -/
def hostReadReg (n : Nat) (s : State) : Out :=
  match readRegister s n with
  | some v => .next { s with reply := .register v }
  | none => .refused (.noSuchRegister n)

/-- What the host's read answers where a unit gives no result: no move for a unit without a value (R181, U15), the
model's stop for an index that does not exist (log entry 9). -/
def hostMissed (m : Miss) : Out :=
  match m with
  | .noValue sp _ => .refused (.readNotAllowed sp)
  | .outside sp a => .fault (.outsideSpace sp a)

/-- A read of `IMG[0 .. img_valid - 1]` (R181). -/
def hostReadImg (s : State) : Out :=
  if s.run = .busy then .refused (.readNotAllowed .img)
  else
    match readRun .img s.params.imgCap s.img 0 s.imgValid with
    | .error m => hostMissed m
    | .ok bs => .next { s with reply := .bytes bs }

/-- A read of `OUT[0 .. OUT_LEN - 1]` (R181). -/
def hostReadOut (s : State) : Out :=
  if s.run = .idle ∧ s.outValid = true then
    match readRun .out s.params.outLen s.out 0 s.params.outLen with
    | .error m => hostMissed m
    | .ok bs => .next { s with reply := .bytes bs }
  else .refused (.readNotAllowed .out)

/-- A move of the host (R181). -/
def hostStep (m : HostMove) (s : State) : Out :=
  match m with
  | .reset => .next (resetBlock s)
  | .loadIn bs => hostLoadIn bs s
  | .loadPal vs => hostLoadPal vs s
  | .writeCmd code => hostWriteCmd code s
  | .writeInLen v => hostWriteInLen v s
  | .writeOther n => hostWriteOther n s
  | .readReg n => hostReadReg n s
  | .readImg => hostReadImg s
  | .readOut => hostReadOut s

/-- The turn of the block or the host at the head of the schedule (R207; log entry 6). With no turn listed the block
steps. -/
def takeTurn (s : State) : Out :=
  match s.turns with
  | [] => blockStep s
  | .block :: rest => blockStep { s with turns := rest }
  | .await :: rest => if s.run = .busy then blockStep s else .next { s with turns := rest }
  | .host m :: rest => hostStep m { s with turns := rest }

/-- The first bytes of `IN` at `ip` replaced by an item (see `State.withFetchWord`). -/
def placeBytes (m : Cells 8) (a : Nat) : List Byte → Cells 8
  | [] => m
  | b :: bs => placeBytes (putUnit m a b) (a + 1) bs

/-- `s` with the LZD running and about to fetch at `ip` the four bytes of `w` (log entry 21). -/
def withStream (w : Nat) (s : State) : State :=
  { s with
    turns := .block :: s.turns, run := .busy, unit := .lzd,
    inp := placeBytes s.inp s.ip (leBytes 4 w), inLen := max s.inLen (s.ip + 4) }

/-- `s` about to run the table word `w` of kind `k` (log entry 21). Only the kinds that `tableKind` gives are
placed. -/
def placeWord (k : Kind) (w : Nat) (s : State) : State :=
  match k with
  | .hdr => { withStream w s with phase := .hdr }
  | .ctl => { withStream w s with phase := .tok, nbits := 0, endAt := max s.endAt (s.op + 1) }
  | .ref =>
    { withStream w s with
      phase := .tok, nbits := max s.nbits 1, ctl := s.ctl ||| 0x80#8, endAt := max s.endAt (s.op + 1) }
  | .fin => { s with turns := .block :: s.turns, run := .busy, unit := .lzd, phase := .tok, endAt := s.op }
  | .cmd => { s with turns := .host (.writeCmd (BitVec.ofNat 3 w)) :: s.turns }
  | .lit => s
  | .pexp => s
  | .pfin => s
  | .pix => s
  | .rfin => s

end Sys2Proof.Machine
end

