-- ==== Sys2Proof/Machine/Step.lean ====
section
/-! DEFINITION. The one step of the machine, and the placing of an instruction where it fetches. -/

namespace Sys2Proof.Machine

/-- One step: the turn at the head of the schedule is taken, by the block or by the host. -/
def step (s : State) : Host.Outcome State Fault Refusal := takeTurn s

/-- `s` with the word placed so that the very next step runs exactly it (log entries 20 and 21). -/
def State.withFetchWord (s : State) (nbits w : Nat) : State :=
  match tableKind nbits w with
  | some k => placeWord k w s
  | none => s

end Sys2Proof.Machine
end

