-- ==== Sys2Proof/Safety.lean ====
section
/-! DEFINITION. The terms that claims use: the invariant of the block, how a run ends, which registers a state
is allowed to leave open, and the spec's own functions for what a whole run computes (`lz` of R130, `frame` of
R185), written on lists and without the machine. -/

namespace Sys2Proof.Safety

open Sys2Proof.Machine

/-- The unit at index `a` holds a value (R57). -/
def holds {w : Nat} (m : Cells w) (a : Nat) : Prop := (unitAt m a).isSome = true

/-- While the LZD runs (R110, R128). -/
structure LzdInv (s : State) : Prop where
  cmd_eq : s.cmd = .decomp ∨ s.cmd = .frame
  img_op : s.imgValid = s.op
  nbits_le : s.nbits ≤ 8
  at_header : s.phase = .hdr → s.ip = 0 ∧ s.op = 0 ∧ s.endAt = 0 ∧ s.ctl = 0 ∧ s.nbits = 0
  in_tokens : s.phase = .tok → 4 ≤ s.ip ∧ s.ip ≤ s.inLen ∧ s.op ≤ s.endAt ∧ s.endAt ≤ s.params.imgCap

/-- While PEX runs (R140, R146). -/
structure PexInv (s : State) : Prop where
  cmd_eq : s.cmd = .palx ∨ s.cmd = .frame
  raw_valid : s.palRawValid = true
  exp_open : s.palExpValid = false
  pidx_le : s.pidx ≤ palSize
  written : ∀ a, holds s.palExp a ↔ a < s.pidx

/-- While FRC runs (R155, R160). -/
structure FrcInv (s : State) : Prop where
  cmd_eq : s.cmd = .recon ∨ s.cmd = .frame
  img_full : s.imgValid = s.params.npix
  exp_valid : s.palExpValid = true
  out_open : s.outValid = false
  wp_le : s.wp ≤ s.params.outLen
  fy_lt : s.fy < s.params.height
  fx_lt : s.fx < s.params.width
  wp_eq : s.wp < s.params.outLen → s.wp = 3 * ((s.params.height - 1 - s.fy) * s.params.width + s.fx)
  written : ∀ a, holds s.out a ↔ a < s.wp

/-- The invariant of the block: the parameters are legal (R5, R8), every buffer is in canonical form and inside its
space (R50), the marks say which units hold values (R33 to R36), the status bits exclude one another (R39), a
recorded fault and `run = FAULT` go together (R40), and the running unit is where its rules leave it. -/
structure BlockInv (s : State) : Prop where
  params_wf : s.params.wf
  inp_wf : Memory.wf s.inp
  img_wf : Memory.wf s.img
  palRaw_wf : Memory.wf s.palRaw
  palExp_wf : Memory.wf s.palExp
  out_wf : Memory.wf s.out
  inLen_le : s.inLen ≤ s.params.inCap
  inp_below : ∀ a, holds s.inp a → a < s.inLen
  imgValid_le : s.imgValid ≤ s.params.imgCap
  img_held : ∀ a, holds s.img a ↔ a < s.imgValid
  palRaw_held : ∀ a, holds s.palRaw a ↔ s.palRawValid = true ∧ a < palSize
  palExp_below : ∀ a, holds s.palExp a → a < palSize
  palExp_held : s.palExpValid = true → ∀ a, a < palSize → holds s.palExp a
  out_below : ∀ a, holds s.out a → a < s.params.outLen
  out_held : s.outValid = true → ∀ a, a < s.params.outLen → holds s.out a
  fault_iff : s.run = .fault ↔ s.faultCause ≠ 0
  cause_le : s.faultCause ≤ 9
  info_zero : s.run ≠ .fault → s.faultInfo = 0
  done_idle : s.done = true → s.run = .idle
  lzd : s.run = .busy → s.unit = .lzd → LzdInv s
  pex : s.run = .busy → s.unit = .pex → PexInv s
  frc : s.run = .busy → s.unit = .frc → FrcInv s

/-- What R45 states of a state after reset. It states no value for the other registers. -/
structure AfterReset (t : State) : Prop where
  run : t.run = .idle
  done : t.done = false
  inLen : t.inLen = 0
  faultCause : t.faultCause = 0
  faultInfo : t.faultInfo = 0
  imgValid : t.imgValid = 0
  palRawValid : t.palRawValid = false
  palExpValid : t.palExpValid = false
  outValid : t.outValid = false
  no_values : ∀ a, ¬ holds t.inp a ∧ ¬ holds t.img a ∧ ¬ holds t.palRaw a ∧ ¬ holds t.palExp a ∧ ¬ holds t.out a
  status_zero : readRegister t 1 = some 0
  count_zero : readRegister t 5 = some 0

/-- A run ended well (R184). -/
def endedWell (s : State) : Prop := s.run = .idle ∧ s.done = true ∧ s.faultCause = 0

/-- A run ended badly (R184). -/
def endedBadly (s : State) : Prop := s.run = .fault

/-- The most steps a run can take (R127, R147, R159, R236): those of the LZD with a declared length of `NPIX`, then 257
of PEX, then `NPIX + 1` of FRC. -/
def runBound (p : Params) : Nat := 2 + p.npix + (p.npix + 7) / 8 + 257 + (p.npix + 1)

/-- `t` is `s` after a fault whose cause and information are the free values of log entry 26, some cause from 1 to 9,
and nothing else. -/
def faultedUnnamed (s t : State) : Prop :=
  ∃ (code : BitVec 4) (info : BitVec 32), code ≠ 0 ∧ code ≤ 9 ∧
    t = { s with run := .fault, faultCause := code, faultInfo := info, done := false, draws := s.draws + 1 }

/-- Two states that differ at most in the registers R45 calls unspecified, while no rule reads them: `cmd` and
`unit` have meaning only while `run = BUSY` (R30), and a unit's registers only while that unit runs. -/
structure Agree (s t : State) : Prop where
  params : s.params = t.params
  run : s.run = t.run
  done : s.done = t.done
  inLen : s.inLen = t.inLen
  faultCause : s.faultCause = t.faultCause
  faultInfo : s.faultInfo = t.faultInfo
  inp : s.inp = t.inp
  img : s.img = t.img
  imgValid : s.imgValid = t.imgValid
  palRaw : s.palRaw = t.palRaw
  palRawValid : s.palRawValid = t.palRawValid
  palExp : s.palExp = t.palExp
  palExpValid : s.palExpValid = t.palExpValid
  out : s.out = t.out
  outValid : s.outValid = t.outValid
  turns : s.turns = t.turns
  reply : s.reply = t.reply
  draws : s.draws = t.draws
  busy : s.run = .busy → s.cmd = t.cmd ∧ s.unit = t.unit
  lzd : s.run = .busy → s.unit = .lzd →
    s.ip = t.ip ∧ s.op = t.op ∧ s.endAt = t.endAt ∧ s.ctl = t.ctl ∧ s.nbits = t.nbits ∧ s.phase = t.phase
  pex : s.run = .busy → s.unit = .pex → s.pidx = t.pidx
  frc : s.run = .busy → s.unit = .frc → s.fy = t.fy ∧ s.fx = t.fx ∧ s.wp = t.wp

/-- Two answers that show the same: next states that agree, or the same stop. -/
def agreeOut : Out → Out → Prop
  | .next s, .next t => Agree s t
  | .fault f, .fault g => f = g
  | .refused r, .refused q => r = q
  | _, _ => False

/-- What a whole LZD run gives (R130). -/
inductive LzResult where
  | ok (bytes : List Byte) (used : Nat)
  | fault (c : Cause) (info : Nat)
  deriving DecidableEq, Repr

/-- `repeat n times: out = out ++ [out[length(out) - dist]]` (R130). -/
def lzCopy (dist : Nat) : Nat → List Byte → List Byte
  | 0, out => out
  | n + 1, out => lzCopy dist n (out ++ [out.getD (out.length - dist) 0])

/-- `for k = 7 down to 0 while length(out) < declared` (R130), with `k` bits of the control byte `c` left: the output
and the input index after the group, or the fault. -/
def lzGroup (input : List Byte) (declared : Nat) (c : Byte) :
    Nat → List Byte → Nat → Except (Cause × Nat) (List Byte × Nat)
  | 0, out, ip => .ok (out, ip)
  | k + 1, out, ip =>
    if declared ≤ out.length then .ok (out, ip)
    else if c.getLsbD k = false then
      match input[ip]? with
      | none => .error (.inputUnderrun, ip)
      | some v => lzGroup input declared c k (out ++ [v]) (ip + 1)
    else
      match input[ip]?, input[ip + 1]? with
      | some b0, some b1 =>
        if out.length < (b0.toNat % 16) * 256 + b1.toNat + 1 then .error (.distanceBeforeStart, ip)
        else if declared < out.length + (b0.toNat / 16 + 3) then .error (.copyOverrun, ip)
        else
          lzGroup input declared c k
            (lzCopy ((b0.toNat % 16) * 256 + b1.toNat + 1) (b0.toNat / 16 + 3) out) (ip + 2)
      | _, _ => .error (.inputUnderrun, ip)

/-- `while length(out) < declared` (R130): at most `n` groups. Each group that starts short of `declared` adds a byte
or faults, so `declared` groups are enough. -/
def lzGroups (input : List Byte) (declared : Nat) : Nat → List Byte → Nat → LzResult
  | 0, out, ip => .ok out ip
  | n + 1, out, ip =>
    if declared ≤ out.length then .ok out ip
    else
      match input[ip]? with
      | none => .fault .inputUnderrun ip
      | some c =>
        match lzGroup input declared c 8 out (ip + 1) with
        | .error (cause, info) => .fault cause info
        | .ok (out', ip') => lzGroups input declared n out' ip'

/-- The declared length of a block: the upper 24 bits of its little-endian header word (R82). -/
def declaredLength (input : List Byte) : Nat :=
  (input.getD 1 0).toNat + (input.getD 2 0).toNat * 256 + (input.getD 3 0).toNat * 65536

/-- `lz(IN, IN_LEN, IMG_CAP)` (R130), `IN_LEN` being the length of the input. -/
def lz (input : List Byte) (imgCap : Nat) : LzResult :=
  if input.length < 4 then .fault .inputUnderrun 0
  else if imgCap < declaredLength input then .fault .lengthExceedsCapacity (declaredLength input)
  else lzGroups input (declaredLength input) (declaredLength input) [] 4

/-- What a whole FRAME run gives (R185): the bytes of `OUT`, or the fault. -/
inductive FrameResult where
  | ok (out : List Byte)
  | fault (c : Cause) (info : Nat)
  deriving DecidableEq, Repr

/-- The three bytes of pixel (x, y): byte j of `pal[img[y * WIDTH + x]]` (R185), red first. -/
def framePixel (p : Params) (img : List Byte) (raw : List RawEntry) (x y : Nat) : List Byte :=
  pixelBytes (expand p.layout (raw.getD (img.getD (y * p.width + x) 0).toNat 0))

/-- The bytes of `OUT`, rows of the image from the last to the first (R161). -/
def frameBytes (p : Params) (img : List Byte) (raw : List RawEntry) : List Byte :=
  (List.range p.height).flatMap fun r =>
    (List.range p.width).flatMap fun x => framePixel p img raw x (p.height - 1 - r)

/-- `frame(IN, IN_LEN, PAL_RAW)` (R185), for a palette that is loaded. -/
def frame (p : Params) (input : List Byte) (raw : List RawEntry) : FrameResult :=
  match lz input p.npix with
  | .fault c info => .fault c info
  | .ok img _ =>
    if img.length = p.npix then .ok (frameBytes p img raw) else .fault .imageIncomplete img.length

end Sys2Proof.Safety
end

