-- ==== Sys2Proof/Certificates/Slice0/Obligations.lean ====
section
/-! DEFINITION. The statements about the block. A statement that gives the next state as a record update of `s` says
with it that every field not named is unchanged. -/

open Sys2Proof Sys2Proof.Machine Sys2Proof.Safety

/-! ### Encoding -/

/-- Words written out from the tables of 30_encoding.md decode to the instructions they stand for (T0, T1). -/
def Obligations.SampleWordsDecode : Prop :=
  decode .hdr [0x10, 0x56, 0x34, 0x12] = .ok (.hdr 0x123456 0x10, []) ∧
  decode .ctl [0xA5] = .ok (.ctl 0xA5, []) ∧
  decode .lit [0x42] = .ok (.lit 0x42, []) ∧
  decode .ref [0x51, 0x22] = .ok (.ref 291 8, []) ∧
  decode .ref [0xA7, 0x0C] = .ok (.ref 1805 13, []) ∧
  decode .pexp [0x34, 0x12] = .ok (.pexp 0x1234, []) ∧
  decode .pix [0x99] = .ok (.pix 0x99, []) ∧
  decode .cmd [4] = .ok (.frame, []) ∧
  decode .cmd [5] = .error (.noSuchCommand 5)

/-- R58, R82: the header word is little-endian, `declared` is its upper 24 bits and the tag its low byte. -/
def Obligations.HeaderIsLittleEndian : Prop :=
  ∀ (b0 b1 b2 b3 : Byte) (rest : List Byte),
    ∃ (w : BitVec 32) (d : BitVec 24), decode .hdr (b0 :: b1 :: b2 :: b3 :: rest) = .ok (.hdr d b0, rest) ∧
      w.toNat = b0.toNat + b1.toNat * 2 ^ 8 + b2.toNat * 2 ^ 16 + b3.toNat * 2 ^ 24 ∧
      d = w.extractLsb' 8 24 ∧ d.toNat = (w >>> 8).toNat ∧ b0 = w.extractLsb' 0 8 ∧
      d.toNat = b1.toNat + b2.toNat * 2 ^ 8 + b3.toNat * 2 ^ 16

/-- R86: the operands of a back-reference from its bytes, in both readings, their ranges, and the inverse. -/
def Obligations.RefOperandAssembly : Prop :=
  (∀ b0 b1 : Byte,
    refDist b0 b1 = (b0.toNat % 16) * 2 ^ 8 + b1.toNat + 1 ∧
    refDist b0 b1 = ((leWord16 b0 b1 &&& 0x000F#16) <<< 8 ||| leWord16 b0 b1 >>> 8).toNat + 1 ∧
    refLen b0 = b0.toNat / 16 + 3 ∧
    refLen b0 = ((leWord16 b0 b1 >>> 4) &&& 0x000F#16).toNat + 3 ∧
    1 ≤ refDist b0 b1 ∧ refDist b0 b1 ≤ 4096 ∧ 3 ≤ refLen b0 ∧ refLen b0 ≤ 18) ∧
  (∀ dist len : Nat, 1 ≤ dist → dist ≤ 4096 → 3 ≤ len → len ≤ 18 →
    (refByte0 dist len).toNat = ((len - 3) <<< 4 ||| (dist - 1) >>> 8) ∧
    (refByte1 dist).toNat = ((dist - 1) &&& 0xFF) ∧
    refDist (refByte0 dist len) (refByte1 dist) = dist ∧ refLen (refByte0 dist len) = len) ∧
  (refDist 0x00 0x00 = 1 ∧ refLen 0x00 = 3) ∧ (refDist 0x0F 0xFF = 4096 ∧ refLen 0x0F = 3) ∧
  (refDist 0xF0 0x00 = 1 ∧ refLen 0xF0 = 18) ∧ (refDist 0x51 0x22 = 291 ∧ refLen 0x51 = 8) ∧
  (refDist 0x00 0x01 = 2 ∧ refLen 0x00 = 3) ∧ refDist 0x01 0x00 = 257 ∧ refLen 0x01 = 3

/-- Decoding the encoding of a well-formed instruction gives it back, whatever follows it. -/
def Obligations.DecodeReadsBackEncode : Prop :=
  ∀ (i : Instr) (rest : List Byte), i.wf = true → decode i.kind (encode i ++ rest) = .ok (i, rest)

/-- What a decoder accepts is a well-formed instruction of the kind asked for, and its bytes are the encoding. -/
def Obligations.EncodeRebuildsDecodedBytes : Prop :=
  ∀ (k : Kind) (bs rest : List Byte) (i : Instr), decode k bs = .ok (i, rest) →
    i.wf = true ∧ i.kind = k ∧ bs = encode i ++ rest

/-- R95: every byte sequence of the right length is a well-formed item of the stream. -/
def Obligations.EveryStreamItemIsLegal : Prop :=
  ∀ b0 b1 b2 b3 : Byte,
    (∃ i, decode .hdr [b0, b1, b2, b3] = .ok (i, [])) ∧ (∃ i, decode .ctl [b0] = .ok (i, [])) ∧
    (∃ i, decode .lit [b0] = .ok (i, [])) ∧ (∃ i, decode .ref [b0, b1] = .ok (i, [])) ∧
    (∃ i, decode .pexp [b0, b1] = .ok (i, [])) ∧ (∃ i, decode .pix [b0] = .ok (i, []))

/-! ### Step, dispatch and the schedule -/

/-- A step runs the instruction that the bytes at the running unit's place decode to, and a write to `CMD` the command
its code names. The schedule is the model's own (log entry 6). -/
def Obligations.StepRunsDecodedItem : Prop :=
  (∀ (s : State) (k : Kind) (bs rest : List Byte) (i : Instr),
    s.run = .busy → select s = some k → fetch k s = .item bs → decode k bs = .ok (i, rest) →
      i.wf = true ∧
      (s.turns = [] → step s = exec i s) ∧
      (∀ ts, s.turns = .block :: ts → step s = exec i { s with turns := ts }) ∧
      (∀ ts, s.turns = .await :: ts → step s = exec i s)) ∧
  (∀ (s : State) (c : BitVec 3) (ts : List Turn) (i : Instr),
    s.turns = .host (.writeCmd c) :: ts → decode .cmd [c.setWidth 8] = .ok (i, []) →
      i.wf = true ∧ step s = exec i { s with turns := ts })

/-- R221: a block that does not run does nothing until the host moves, and so it stands after reset. -/
def Obligations.IdleBlockDoesNothing : Prop :=
  (∀ s : State, s.run ≠ .busy →
    blockStep s = .next s ∧ (s.turns = [] → step s = .next s) ∧
    (∀ ts, s.turns = .block :: ts → step s = .next { s with turns := ts }) ∧
    (∀ ts, s.turns = .await :: ts → step s = .next { s with turns := ts })) ∧
  step State.reset = .next State.reset

/-- R111: which of the LZD's five steps is enabled. -/
def Obligations.LzdDispatch : Prop :=
  ∀ s : State, s.run = .busy → s.unit = .lzd → s.op ≤ s.endAt →
    (s.phase = .hdr → select s = some .hdr) ∧
    (s.phase = .tok → s.op = s.endAt → select s = some .fin) ∧
    (s.phase = .tok → s.op ≠ s.endAt → s.nbits = 0 → select s = some .ctl) ∧
    (s.phase = .tok → s.op ≠ s.endAt → s.nbits ≠ 0 → s.ctl.getLsbD 7 = false → select s = some .lit) ∧
    (s.phase = .tok → s.op ≠ s.endAt → s.nbits ≠ 0 → s.ctl.getLsbD 7 = true → select s = some .ref)

/-- A unit's step is refused in a state in which its condition does not hold (R15; log entry 10). -/
def Obligations.StepsNeedTheirCondition : Prop :=
  ∀ (i : Instr) (s : State), i.kind ≠ .cmd → select s ≠ some i.kind →
    exec i s = .refused (.notEnabled i.kind)

/-! ### The decompressor -/

/-- R112: the checks in their order, the header's effect and the step that comes next. -/
def Obligations.HdrReadsHeader : Prop :=
  ∀ s : State, s.run = .busy → s.unit = .lzd → s.phase = .hdr →
    (s.inLen < s.ip + 4 →
      blockStep s = .next { s with run := .fault, faultCause := 1, faultInfo := BitVec.ofNat 32 s.ip, done := false } ∧
      ∀ d g, exec (.hdr d g) s =
        .next { s with run := .fault, faultCause := 1, faultInfo := BitVec.ofNat 32 s.ip, done := false }) ∧
    (s.ip + 4 ≤ s.inLen → ∀ (d : BitVec 24) (g : Byte),
      (s.params.imgCap < d.toNat → exec (.hdr d g) s =
        .next { s with run := .fault, faultCause := 2, faultInfo := BitVec.ofNat 32 d.toNat, done := false }) ∧
      (d.toNat ≤ s.params.imgCap → exec (.hdr d g) s =
        .next { s with endAt := d.toNat, op := 0, ctl := 0, nbits := 0, ip := s.ip + 4, phase := .tok }) ∧
      ∀ t, exec (.hdr d g) s = .next t → t.run = .busy → select t = some (if d = 0 then .fin else .ctl)) ∧
    (s.ip + 4 ≤ s.inLen → s.inLen ≤ s.params.inCap → ∀ b0 b1 b2 b3 : Byte,
      unitAt s.inp s.ip = some b0 → unitAt s.inp (s.ip + 1) = some b1 →
      unitAt s.inp (s.ip + 2) = some b2 → unitAt s.inp (s.ip + 3) = some b3 →
      blockStep s = exec (.hdr (b3 ++ b2 ++ b1) b0) s)

/-- R92: no value of the tag changes any result. -/
def Obligations.HeaderTagIsIgnored : Prop :=
  ∀ (s : State) (d : BitVec 24) (g g' : Byte), exec (.hdr d g) s = exec (.hdr d g') s

/-- R114, and that no control byte is fetched unless more output is due. -/
def Obligations.CtlFetchesControlByte : Prop :=
  (∀ s : State, select s = some .ctl → s.op < s.endAt) ∧
  ∀ s : State, s.run = .busy → s.unit = .lzd → s.phase = .tok → s.op < s.endAt → s.nbits = 0 →
    (s.inLen < s.ip + 1 →
      blockStep s = .next { s with run := .fault, faultCause := 1, faultInfo := BitVec.ofNat 32 s.ip, done := false } ∧
      ∀ c, exec (.ctl c) s =
        .next { s with run := .fault, faultCause := 1, faultInfo := BitVec.ofNat 32 s.ip, done := false }) ∧
    (s.ip + 1 ≤ s.inLen → ∀ c : Byte,
      exec (.ctl c) s = .next { s with ctl := c, nbits := 8, ip := s.ip + 1 }) ∧
    (s.ip + 1 ≤ s.inLen → s.inLen ≤ s.params.inCap → ∀ c : Byte, unitAt s.inp s.ip = some c →
      blockStep s = exec (.ctl c) s)

/-- R116. -/
def Obligations.LitCopiesOneByte : Prop :=
  ∀ s : State, s.run = .busy → s.unit = .lzd → s.phase = .tok → s.op < s.endAt → 0 < s.nbits →
    s.ctl.getLsbD 7 = false →
    (s.inLen < s.ip + 1 →
      blockStep s = .next { s with run := .fault, faultCause := 1, faultInfo := BitVec.ofNat 32 s.ip, done := false } ∧
      ∀ v, exec (.lit v) s =
        .next { s with run := .fault, faultCause := 1, faultInfo := BitVec.ofNat 32 s.ip, done := false }) ∧
    (s.ip + 1 ≤ s.inLen → s.endAt ≤ s.params.imgCap → ∀ v : Byte, ∃ m : Cells 8,
      exec (.lit v) s = .next
        { s with
          img := m, imgValid := s.op + 1, op := s.op + 1, ip := s.ip + 1, ctl := s.ctl <<< 1,
          nbits := s.nbits - 1 } ∧
      ∀ a, unitAt m a = if a = s.op then some v else unitAt s.img a) ∧
    (∀ (v : Byte) (t : State), exec (.lit v) s = .next t → t.run = .busy → t.op = s.endAt → select t = some .fin) ∧
    (s.ip + 1 ≤ s.inLen → s.inLen ≤ s.params.inCap → ∀ v : Byte, unitAt s.inp s.ip = some v →
      blockStep s = exec (.lit v) s)

/-- R118 with R120: the checks in their order, and the copy as the repeated pattern of the `dist` bytes behind the
cursor. -/
def Obligations.RefCopiesPattern : Prop :=
  ∀ s : State, s.run = .busy → s.unit = .lzd → s.phase = .tok → s.op < s.endAt → 0 < s.nbits →
    s.ctl.getLsbD 7 = true →
    (s.inLen < s.ip + 2 →
      blockStep s = .next { s with run := .fault, faultCause := 1, faultInfo := BitVec.ofNat 32 s.ip, done := false } ∧
      ∀ d l, exec (.ref d l) s =
        .next { s with run := .fault, faultCause := 1, faultInfo := BitVec.ofNat 32 s.ip, done := false }) ∧
    (s.ip + 2 ≤ s.inLen → ∀ d l : Nat,
      (s.op < d → exec (.ref d l) s =
        .next { s with run := .fault, faultCause := 3, faultInfo := BitVec.ofNat 32 s.ip, done := false }) ∧
      (d ≤ s.op → s.endAt < s.op + l → exec (.ref d l) s =
        .next { s with run := .fault, faultCause := 4, faultInfo := BitVec.ofNat 32 s.ip, done := false }) ∧
      (1 ≤ d → d ≤ s.op → s.op + l ≤ s.endAt → s.endAt ≤ s.params.imgCap → (∀ a, a < s.op → holds s.img a) →
        ∃ m : Cells 8,
          exec (.ref d l) s = .next
            { s with
              img := m, imgValid := s.op + l, op := s.op + l, ip := s.ip + 2, ctl := s.ctl <<< 1,
              nbits := s.nbits - 1 } ∧
          ∀ a, unitAt m a =
            if s.op ≤ a ∧ a < s.op + l then unitAt s.img (s.op - d + (a - s.op) % d) else unitAt s.img a) ∧
      ∀ t, exec (.ref d l) s = .next t → t.run = .busy → t.op = s.endAt → select t = some .fin) ∧
    (s.ip + 2 ≤ s.inLen → s.inLen ≤ s.params.inCap → ∀ b0 b1 : Byte,
      unitAt s.inp s.ip = some b0 → unitAt s.inp (s.ip + 1) = some b1 →
      blockStep s = exec (.ref ((b0.toNat % 16) * 2 ^ 8 + b1.toNat + 1) (b0.toNat / 16 + 3)) s)

/-- R122 with FIN's rows of R176. That PEX's start leaves `PAL_EXP` without values is read from R57 (log entry 12). -/
def Obligations.FinEndsTheStream : Prop :=
  ∀ s : State, s.run = .busy → s.unit = .lzd → s.phase = .tok → s.op = s.endAt →
    blockStep s = exec .fin s ∧ (BlockInv s → s.imgValid = s.endAt) ∧
    (s.cmd = .decomp → exec .fin s = .next { s with run := .idle, done := true }) ∧
    (s.cmd = .frame → s.palRawValid = true → exec .fin s =
      .next { s with unit := .pex, pidx := 0, palExp := [], palExpValid := false }) ∧
    (s.cmd = .frame → s.palRawValid = false → exec .fin s =
      .next { s with run := .fault, faultCause := 6, faultInfo := 0, done := false })

/-! ### The palette expander -/

/-- R141, R142, R143: the fields of `expand`, the same by masks and shifts under each layout, and what the layouts
share. -/
def Obligations.ExpandByMaskAndShift : Prop :=
  (∀ (l : PalLayout) (v : RawEntry),
    (expand l v).extractLsb' 16 3 = 0 ∧ (expand l v).extractLsb' 8 3 = 0 ∧ (expand l v).extractLsb' 0 3 = 0 ∧
    (expand l v).extractLsb' 11 5 = v.extractLsb' 5 5) ∧
  ∀ v : RawEntry,
    (expand .redLow v).extractLsb' 19 5 = v.extractLsb' 0 5 ∧
    (expand .redLow v).extractLsb' 3 5 = v.extractLsb' 10 5 ∧
    (expand .redHigh v).extractLsb' 19 5 = v.extractLsb' 10 5 ∧
    (expand .redHigh v).extractLsb' 3 5 = v.extractLsb' 0 5 ∧
    (expand .redHigh v).extractLsb' 16 8 = (expand .redLow v).extractLsb' 0 8 ∧
    (expand .redHigh v).extractLsb' 8 8 = (expand .redLow v).extractLsb' 8 8 ∧
    (expand .redHigh v).extractLsb' 0 8 = (expand .redLow v).extractLsb' 16 8 ∧
    expand .redLow v =
      ((v.setWidth 24 &&& 0x001F#24) <<< 19) ||| ((v.setWidth 24 &&& 0x03E0#24) <<< 6) |||
        ((v.setWidth 24 &&& 0x7C00#24) >>> 7) ∧
    expand .redHigh v =
      ((v.setWidth 24 &&& 0x7C00#24) <<< 9) ||| ((v.setWidth 24 &&& 0x03E0#24) <<< 6) |||
        ((v.setWidth 24 &&& 0x001F#24) <<< 3)

/-- R144: `expand` ignores bit 15, is injective on the other 15 bits, and leaves the low 3 bits of every channel
zero, under either layout. -/
def Obligations.ExpandProperties : Prop :=
  ∀ l : PalLayout,
    (∀ v : RawEntry, expand l v = expand l (v &&& 0x7FFF#16)) ∧
    (∀ v u : RawEntry, expand l v = expand l u → v &&& 0x7FFF#16 = u &&& 0x7FFF#16) ∧
    (∀ v : RawEntry, expand l v &&& 0x070707#24 = 0) ∧
    expand l 0x0000 = 0x000000 ∧ expand l 0x7FFF = 0xF8F8F8 ∧ expand l 0xFFFF = 0xF8F8F8

/-- R145. -/
def Obligations.PexpExpandsOneEntry : Prop :=
  ∀ s : State, s.run = .busy → s.unit = .pex → s.pidx < 256 →
    (∀ v : RawEntry, ∃ m : Cells 24,
      exec (.pexp v) s = .next { s with palExp := m, pidx := s.pidx + 1 } ∧
      ∀ a, unitAt m a = if a = s.pidx then some (expand s.params.layout v) else unitAt s.palExp a) ∧
    (∀ v : RawEntry, unitAt s.palRaw s.pidx = some v → blockStep s = exec (.pexp v) s)

/-- R147 with PFIN's rows of R176. That the mark stays set when FRC's start faults is read from R176 and vector P6
(log entry 13), and that FRC's start leaves `OUT` without values from R57 (log entry 12). -/
def Obligations.PfinEndsThePalette : Prop :=
  ∀ s : State, s.run = .busy → s.unit = .pex → s.pidx = 256 →
    blockStep s = exec .pfin s ∧
    (s.cmd = .palx → exec .pfin s = .next { s with palExpValid := true, run := .idle, done := true }) ∧
    (s.cmd = .frame → s.imgValid = s.params.npix → exec .pfin s = .next
      { s with
        palExpValid := true, unit := .frc, fy := s.params.height - 1, fx := 0, wp := 0, out := [],
        outValid := false }) ∧
    (s.cmd = .frame → s.imgValid ≠ s.params.npix → exec .pfin s = .next
      { s with
        palExpValid := true, run := .fault, faultCause := 5, faultInfo := BitVec.ofNat 32 s.imgValid,
        done := false })

/-! ### The frame reconstructor -/

/-- R158. -/
def Obligations.PixAppendsOnePixel : Prop :=
  ∀ s : State, s.run = .busy → s.unit = .frc → s.wp + 2 < s.params.outLen →
    (∀ (k : Byte) (c : Colour), unitAt s.palExp k.toNat = some c → ∃ m : Cells 8,
      exec (.pix k) s = .next
        { s with
          out := m, wp := s.wp + 3,
          fx := if s.fx + 1 < s.params.width then s.fx + 1 else 0,
          fy := if s.fx + 1 < s.params.width then s.fy else if 0 < s.fy then s.fy - 1 else s.fy } ∧
      ∀ a, unitAt m a =
        if a = s.wp then some (c.extractLsb' 16 8)
        else if a = s.wp + 1 then some (c.extractLsb' 8 8)
        else if a = s.wp + 2 then some (c.extractLsb' 0 8)
        else unitAt s.out a) ∧
    (∀ k : Byte, s.fy * s.params.width + s.fx < s.params.imgCap →
      unitAt s.img (s.fy * s.params.width + s.fx) = some k → blockStep s = exec (.pix k) s)

/-- R159 with RFIN's row of R176. -/
def Obligations.RfinEndsTheFrame : Prop :=
  ∀ s : State, s.run = .busy → s.unit = .frc → s.wp = s.params.outLen → s.cmd = .recon ∨ s.cmd = .frame →
    exec .rfin s = .next { s with outValid := true, run := .idle, done := true } ∧ blockStep s = exec .rfin s

/-! ### The commands and the host -/

/-- R172 (with the acceptance of R171): the start of DECOMP, after which no byte of `IMG` holds a value. -/
def Obligations.DecompStartsLzd : Prop :=
  ∀ s : State, s.run = .idle →
    exec .decomp s = .next
      { s with
        done := false, cmd := .decomp, run := .busy, unit := .lzd, phase := .hdr, ip := 0, op := 0, endAt := 0,
        ctl := 0, nbits := 0, imgValid := 0, img := [] }

/-- R173: the start of PALX, or its fault. That `PAL_EXP` then holds no values, and that `cmd` stays on the fault, is
the model's reading (log entries 12 and 14). -/
def Obligations.PalxStartsPex : Prop :=
  ∀ s : State, s.run = .idle →
    (s.palRawValid = true → exec .palx s = .next
      { s with
        done := false, cmd := .palx, run := .busy, unit := .pex, pidx := 0, palExpValid := false, palExp := [] }) ∧
    (s.palRawValid = false → exec .palx s = .next
      { s with run := .fault, faultCause := 6, faultInfo := 0, done := false })

/-- R174: the start of RECON, or the first of its faults. That `OUT` then holds no values, and that `cmd` stays on a
fault, is the model's reading (log entries 12 and 14). -/
def Obligations.ReconStartsFrc : Prop :=
  ∀ s : State, s.run = .idle →
    (s.imgValid = s.params.npix → s.palExpValid = true → exec .recon s = .next
      { s with
        done := false, cmd := .recon, run := .busy, unit := .frc, fy := s.params.height - 1, fx := 0, wp := 0,
        outValid := false, out := [] }) ∧
    (s.imgValid ≠ s.params.npix → exec .recon s = .next
      { s with run := .fault, faultCause := 5, faultInfo := BitVec.ofNat 32 s.imgValid, done := false }) ∧
    (s.imgValid = s.params.npix → s.palExpValid = false → exec .recon s = .next
      { s with run := .fault, faultCause := 7, faultInfo := 0, done := false })

/-- R175: the start of FRAME is the start of DECOMP but for `cmd`. -/
def Obligations.FrameStartsLzd : Prop :=
  ∀ s : State, s.run = .idle →
    exec .frame s = .next
      { s with
        done := false, cmd := .frame, run := .busy, unit := .lzd, phase := .hdr, ip := 0, op := 0, endAt := 0,
        ctl := 0, nbits := 0, imgValid := 0, img := [] } ∧
    ∃ t, exec .decomp s = .next t ∧ exec .frame s = .next { t with cmd := .frame }

/-- R177: a code that names no command, any write while busy, any write after a fault. -/
def Obligations.HostWritesOutOfTurn : Prop :=
  ∀ s : State,
    (s.run = .idle → ∀ c : BitVec 3, c = 0 ∨ c = 5 ∨ c = 6 ∨ c = 7 → hostStep (.writeCmd c) s = .next
      { s with run := .fault, faultCause := 8, faultInfo := c.setWidth 32, done := false }) ∧
    (s.run = .busy → ∀ c : BitVec 3, hostStep (.writeCmd c) s = .next
      { s with run := .fault, faultCause := 9, faultInfo := c.setWidth 32, done := false }) ∧
    (s.run = .busy → ∀ m : HostMove,
      (∃ bs, m = .loadIn bs) ∨ (∃ vs, m = .loadPal vs) ∨ (∃ v, m = .writeInLen v) → hostStep m s = .next
        { s with run := .fault, faultCause := 9, faultInfo := 0, done := false }) ∧
    (s.run = .fault → ∀ m : HostMove,
      (∃ c, m = .writeCmd c) ∨ (∃ bs, m = .loadIn bs) ∨ (∃ vs, m = .loadPal vs) ∨ (∃ v, m = .writeInLen v) ∨
        (∃ n, m = .writeOther n) → hostStep m s = .next s)

/-- R179, R180: what the host's loads put into `IN` and `PAL_RAW`. -/
def Obligations.HostLoadsFillBuffers : Prop :=
  ∀ s : State, s.run = .idle →
    (∀ bs : List Byte, bs.length ≤ s.params.inCap → ∃ m : Cells 8,
      hostStep (.loadIn bs) s = .next { s with inp := m, inLen := bs.length } ∧ ∀ a, unitAt m a = bs[a]?) ∧
    (∀ vs : List RawEntry, vs.length = 256 → ∃ m : Cells 16,
      hostStep (.loadPal vs) s = .next { s with palRaw := m, palRawValid := true } ∧ ∀ a, unitAt m a = vs[a]?)

/-- R31, R44: a write to `IN_LEN`. That the bytes at and above the new length lose their values is read from R32 (log
entry 16). -/
def Obligations.InLenWriteSetsLength : Prop :=
  ∀ (s : State) (v : BitVec 32), s.run = .idle → v.toNat ≤ s.params.inCap → ∃ m : Cells 8,
    hostStep (.writeInLen v) s = .next { s with inp := m, inLen := v.toNat } ∧
    ∀ a, unitAt m a = if a < v.toNat then unitAt s.inp a else none

/-- R39: the bits of `STATUS`, its read, and that BUSY, FAULT and DONE exclude one another. -/
def Obligations.StatusBits : Prop :=
  (∀ s : State,
    (status s).getLsbD 0 = decide (s.run = .busy) ∧ (status s).getLsbD 1 = s.done ∧
    (status s).getLsbD 2 = decide (s.run = .fault) ∧
    (status s).getLsbD 3 = decide (s.imgValid = s.params.imgCap) ∧
    (status s).getLsbD 4 = s.palRawValid ∧ (status s).getLsbD 5 = s.palExpValid ∧
    (status s).getLsbD 6 = s.outValid ∧ (status s).getLsbD 7 = false ∧
    hostStep (.readReg 1) s = .next { s with reply := .register ((status s).setWidth 32) }) ∧
  (∀ s : State, BlockInv s →
    ¬ ((status s).getLsbD 0 = true ∧ (status s).getLsbD 2 = true) ∧
    ((status s).getLsbD 1 = true → (status s).getLsbD 0 = false ∧ (status s).getLsbD 2 = false))

/-- R40 to R44: what the host reads from the other registers, and that numbers 6 and above do not exist (log entry
17). -/
def Obligations.RegisterReads : Prop :=
  (∀ s : State,
    hostStep (.readReg 0) s = .next { s with reply := .register 0 } ∧
    hostStep (.readReg 2) s = .next { s with reply := .register (s.faultCause.setWidth 32) } ∧
    hostStep (.readReg 3) s = .next { s with reply := .register s.faultInfo } ∧
    ∀ n, 6 ≤ n → hostStep (.readReg n) s = .refused (.noSuchRegister n)) ∧
  (∀ s : State, BlockInv s → ∃ len count : BitVec 32,
    hostStep (.readReg 4) s = .next { s with reply := .register len } ∧ len.toNat = s.inLen ∧
    hostStep (.readReg 5) s = .next { s with reply := .register count } ∧ count.toNat = s.imgValid)

/-- R181: the host reads `IMG` and `OUT` where that is allowed, and has no such move elsewhere (log entry 18). -/
def Obligations.BufferReads : Prop :=
  (∀ s : State, BlockInv s → s.run ≠ .busy → ∃ bs : List Byte,
    hostStep .readImg s = .next { s with reply := .bytes bs } ∧ bs.length = s.imgValid ∧
    ∀ a, a < s.imgValid → unitAt s.img a = bs[a]?) ∧
  (∀ s : State, BlockInv s → s.run = .idle → s.outValid = true → ∃ bs : List Byte,
    hostStep .readOut s = .next { s with reply := .bytes bs } ∧ bs.length = s.params.outLen ∧
    ∀ a, a < s.params.outLen → unitAt s.out a = bs[a]?) ∧
  (∀ s : State, s.run = .busy → hostStep .readImg s = .refused (.readNotAllowed .img)) ∧
  (∀ s : State, s.run ≠ .idle ∨ s.outValid = false → hostStep .readOut s = .refused (.readNotAllowed .out))

/-! ### Faults and reset -/

/-- R200: what raising a fault writes, and that the block then has no enabled step. That the block's step then answers
the same state is the model's stutter (log entry 7). -/
def Obligations.FaultEntry : Prop :=
  ∀ (c : Cause) (info : Nat) (s : State),
    raiseFault c info s =
      { s with run := .fault, faultCause := c.code, faultInfo := BitVec.ofNat 32 info, done := false } ∧
    select (raiseFault c info s) = none ∧ blockStep (raiseFault c info s) = .next (raiseFault c info s)

/-- R201: a step that faults changes nothing but `run`, `FAULT_CAUSE`, `FAULT_INFO` and `done`; PFIN under FRAME has
set its mark before FRC's start is checked (R176; log entry 13). The count of draws is the model's own (log entry
26). It holds of an instruction and of the block's step, fetch included. -/
def Obligations.FaultsArePrecise : Prop :=
  (∀ (i : Instr) (s t : State), exec i s = .next t → s.run ≠ .fault → t.run = .fault →
    t = { s with
          run := .fault, faultCause := t.faultCause, faultInfo := t.faultInfo, done := false, draws := t.draws } ∨
    (i = .pfin ∧ s.cmd = .frame ∧ t =
      { s with
        palExpValid := true, run := .fault, faultCause := t.faultCause, faultInfo := t.faultInfo, done := false })) ∧
  (∀ s t : State, blockStep s = .next t → s.run ≠ .fault → t.run = .fault →
    t = { s with
          run := .fault, faultCause := t.faultCause, faultInfo := t.faultInfo, done := false, draws := t.draws } ∨
    (select s = some .pfin ∧ s.cmd = .frame ∧ t =
      { s with
        palExpValid := true, run := .fault, faultCause := t.faultCause, faultInfo := t.faultInfo, done := false }))

/-- R190 to R199, R205: which causes each instruction can raise, and what they record. A copy or a lookup that finds no
value raises an unnamed fault (R13; log entry 26), which no well-formed instruction does under the invariant. -/
def Obligations.CausesOfEachStep : Prop :=
  (∀ (i : Instr) (s t : State), BlockInv s → i.wf = true → exec i s = .next t → t.draws = s.draws) ∧
  ∀ (i : Instr) (s t : State), exec i s = .next t → s.run ≠ .fault → t.run = .fault →
    match i with
    | .hdr d _ =>
      (t.faultCause = 1 ∧ t.faultInfo = BitVec.ofNat 32 s.ip) ∨ (t.faultCause = 2 ∧ t.faultInfo = d.setWidth 32)
    | .ctl _ => t.faultCause = 1 ∧ t.faultInfo = BitVec.ofNat 32 s.ip
    | .lit _ => t.faultCause = 1 ∧ t.faultInfo = BitVec.ofNat 32 s.ip
    | .ref d l =>
      ((t.faultCause = 1 ∨ t.faultCause = 3 ∨ t.faultCause = 4) ∧ t.faultInfo = BitVec.ofNat 32 s.ip) ∨
      ((∃ a, s.op - d ≤ a ∧ a < s.op - d + l ∧ ¬ holds s.img a) ∧ faultedUnnamed s t)
    | .fin => s.cmd = .frame ∧ t.faultCause = 6 ∧ t.faultInfo = 0
    | .pexp _ => False
    | .pfin => s.cmd = .frame ∧ t.faultCause = 5 ∧ t.faultInfo = BitVec.ofNat 32 s.imgValid
    | .pix k => ¬ holds s.palExp k.toNat ∧ faultedUnnamed s t
    | .rfin => False
    | .decomp => s.run = .busy ∧ t.faultCause = 9 ∧ t.faultInfo = 1
    | .palx =>
      (s.run = .idle ∧ t.faultCause = 6 ∧ t.faultInfo = 0) ∨
      (s.run = .busy ∧ t.faultCause = 9 ∧ t.faultInfo = 2)
    | .recon =>
      (s.run = .idle ∧ t.faultCause = 5 ∧ t.faultInfo = BitVec.ofNat 32 s.imgValid) ∨
      (s.run = .idle ∧ t.faultCause = 7 ∧ t.faultInfo = 0) ∨
      (s.run = .busy ∧ t.faultCause = 9 ∧ t.faultInfo = 3)
    | .frame => s.run = .busy ∧ t.faultCause = 9 ∧ t.faultInfo = 4

/-- R190, R205: which causes the block's own step can raise in each of its nine steps, and what they record, in every
state that meets the invariant; PEXP, PIX and RFIN never fault. That a byte of `IN` without a value is an
`InputUnderrun` is log entry 8. -/
def Obligations.FaultsOfTheBlock : Prop :=
  ∀ (s t : State) (k : Kind), BlockInv s → select s = some k → blockStep s = .next t → t.run = .fault →
    t.draws = s.draws ∧
    match k with
    | .hdr =>
      (t.faultCause = 1 ∧ t.faultInfo = BitVec.ofNat 32 s.ip) ∨
      (t.faultCause = 2 ∧ s.params.imgCap < t.faultInfo.toNat)
    | .ctl => t.faultCause = 1 ∧ t.faultInfo = BitVec.ofNat 32 s.ip
    | .lit => t.faultCause = 1 ∧ t.faultInfo = BitVec.ofNat 32 s.ip
    | .ref => (t.faultCause = 1 ∨ t.faultCause = 3 ∨ t.faultCause = 4) ∧ t.faultInfo = BitVec.ofNat 32 s.ip
    | .fin => s.cmd = .frame ∧ s.palRawValid = false ∧ t.faultCause = 6 ∧ t.faultInfo = 0
    | .pexp => False
    | .pfin => s.cmd = .frame ∧ s.imgValid ≠ s.params.npix ∧ t.faultCause = 5 ∧ t.faultInfo = BitVec.ofNat 32 s.imgValid
    | .pix => False
    | .rfin => False
    | .cmd => False

/-- R13, R14: a step that reads a unit holding no value raises a fault and writes nothing else. For `IN` it is
`InputUnderrun` with `ip` (log entry 8); for the other spaces the cause is a free value (log entry 26). -/
def Obligations.ValuelessReadFaults : Prop :=
  (∀ (s : State) (k : Kind) (n : Nat),
    (k = .hdr ∧ n = 4) ∨ (k = .ctl ∧ n = 1) ∨ (k = .lit ∧ n = 1) ∨ (k = .ref ∧ n = 2) → select s = some k →
    s.ip + n ≤ s.inLen → s.inLen ≤ s.params.inCap → (∃ a, s.ip ≤ a ∧ a < s.ip + n ∧ ¬ holds s.inp a) →
    blockStep s = .next
      { s with run := .fault, faultCause := 1, faultInfo := BitVec.ofNat 32 s.ip, done := false }) ∧
  (∀ s : State, select s = some .pexp → ¬ holds s.palRaw s.pidx →
    ∃ t, blockStep s = .next t ∧ faultedUnnamed s t) ∧
  (∀ s : State, select s = some .pix → s.fy * s.params.width + s.fx < s.params.imgCap →
    ¬ holds s.img (s.fy * s.params.width + s.fx) → ∃ t, blockStep s = .next t ∧ faultedUnnamed s t) ∧
  (∀ (s : State) (k : Byte), select s = some .pix → ¬ holds s.palExp k.toNat →
    ∃ t, exec (.pix k) s = .next t ∧ faultedUnnamed s t) ∧
  (∀ (s : State) (d l : Nat), select s = some .ref → s.ip + 2 ≤ s.inLen → 1 ≤ d → d ≤ s.op →
    s.op + l ≤ s.endAt → s.endAt ≤ s.params.imgCap →
    (∃ i, i < d ∧ i < l ∧ ¬ holds s.img (s.op - d + i)) →
    ∃ t, exec (.ref d l) s = .next t ∧ faultedUnnamed s t)

/-- R203: once faulted, no step but the host's reset changes anything of the block; the schedule and the reply are the
model's own (log entry 6). -/
def Obligations.FaultIsSticky : Prop :=
  ∀ s t : State, s.run = .fault → (∀ ts, s.turns ≠ .host .reset :: ts) → step s = .next t →
    t = { s with turns := t.turns, reply := t.reply }

/-- R45: what reset leaves, from any state, and what the block holds when it first runs. The registers R45 leaves
unspecified are not in this statement. -/
def Obligations.ResetLeavesStatedValues : Prop :=
  (∀ s : State, s.params.wf → ∃ t, hostStep .reset s = .next t ∧ t.params = s.params ∧ AfterReset t) ∧
  AfterReset State.reset

/-! ### The invariant -/

/-- The state after reset meets the invariant, for whatever legal geometry the block has. -/
def Obligations.ResetMeetsInvariant : Prop := BlockInv State.reset

/-- Every step from every state that meets the invariant gives a state that meets it. -/
def Obligations.StepKeepsInvariant : Prop :=
  ∀ s t : State, BlockInv s → step s = .next t → BlockInv t

/-- R184, R237: a running unit always has exactly one enabled step, and taking it gives a next state: the block is
never stuck. -/
def Obligations.RunningBlockAdvances : Prop :=
  ∀ s : State, BlockInv s → s.run = .busy →
    (∃ k, select s = some k) ∧ ∃ t, blockStep s = .next t

/-- R184, R237: every run ends, well or badly, within the step counts of R236, and a host that waits for its end goes on
(the wait is a turn of the model's schedule, log entry 6). -/
def Obligations.EveryRunEnds : Prop :=
  (∀ s : State, BlockInv s → s.run = .busy → s.turns = [] → ∃ (n : Nat) (t : State),
    n ≤ runBound s.params ∧ Host.Core.run Sys2Proof.core n s = .next t ∧ (endedWell t ∨ endedBadly t)) ∧
  (∀ (s : State) (ts : List Turn), BlockInv s → s.run = .busy → s.turns = .await :: ts → ∃ (n : Nat) (t : State),
    n ≤ runBound s.params + 1 ∧ Host.Core.run Sys2Proof.core n s = .next t ∧ (endedWell t ∨ endedBadly t) ∧
    t.turns = ts)

/-- R205: under the invariant nothing the block does, and no reset, stops the model. -/
def Obligations.NothingStopsTheBlock : Prop :=
  ∀ s : State, BlockInv s →
    (∀ f, blockStep s ≠ .fault f) ∧ (∀ r, blockStep s ≠ .refused r) ∧ ∃ t, hostStep .reset s = .next t ∧ t.run = .idle

/-- R45: the values that reset leaves unspecified never matter. States that differ in them alone take steps to states
that differ in them alone (log entries 4 and 5 name the values the model takes). -/
def Obligations.UnspecifiedRegistersNeverMatter : Prop :=
  ∀ s t : State, Agree s t → agreeOut (step s) (step t)

/-! ### Frames -/

/-- What HDR and CTL leave unchanged: everything but the LZD's registers they name and, on a fault, the fault
state. No buffer changes. -/
def Obligations.HdrCtlFrame : Prop :=
  (∀ (s t : State) (d : BitVec 24) (g : Byte), exec (.hdr d g) s = .next t →
    t = { s with
          ip := t.ip, op := t.op, endAt := t.endAt, ctl := t.ctl, nbits := t.nbits, phase := t.phase,
          run := t.run, done := t.done, faultCause := t.faultCause, faultInfo := t.faultInfo } ∧
    ∀ a, unitAt t.img a = unitAt s.img a ∧ unitAt t.out a = unitAt s.out a) ∧
  (∀ (s t : State) (c : Byte), exec (.ctl c) s = .next t →
    t = { s with
          ip := t.ip, ctl := t.ctl, nbits := t.nbits, run := t.run, done := t.done, faultCause := t.faultCause,
          faultInfo := t.faultInfo } ∧
    ∀ a, unitAt t.img a = unitAt s.img a ∧ unitAt t.out a = unitAt s.out a)

/-- What LIT and REF leave unchanged: outside `IMG[op .. op + n - 1]`, the cursors and the control byte nothing
changes but, on a fault, the fault state. -/
def Obligations.TokenFrame : Prop :=
  ∀ (s t : State) (i : Instr) (n : Nat),
    ((∃ v, i = .lit v) ∧ n = 1) ∨ (∃ d, i = .ref d n) → exec i s = .next t →
    t = { s with
          ip := t.ip, op := t.op, ctl := t.ctl, nbits := t.nbits, img := t.img, imgValid := t.imgValid,
          run := t.run, done := t.done, faultCause := t.faultCause, faultInfo := t.faultInfo, draws := t.draws } ∧
    ∀ a, ¬ (s.op ≤ a ∧ a < s.op + n) → unitAt t.img a = unitAt s.img a

/-- What PEXP and PIX leave unchanged: PEXP writes `PAL_EXP[pidx]` and `pidx`, PIX writes `OUT[wp .. wp + 2]` and the
sweep's registers, or raises the fault of a lookup without a value (log entry 26), which the invariant rules out. -/
def Obligations.PexpPixFrame : Prop :=
  (∀ (s t : State) (v : RawEntry), exec (.pexp v) s = .next t →
    t = { s with palExp := t.palExp, pidx := t.pidx } ∧
    ∀ a, a ≠ s.pidx → unitAt t.palExp a = unitAt s.palExp a) ∧
  (∀ (s t : State) (k : Byte), exec (.pix k) s = .next t →
    (t = { s with out := t.out, wp := t.wp, fx := t.fx, fy := t.fy } ∨
      (¬ BlockInv s ∧ ¬ holds s.palExp k.toNat ∧ faultedUnnamed s t)) ∧
    ∀ a, ¬ (s.wp ≤ a ∧ a < s.wp + 3) → unitAt t.out a = unitAt s.out a)

/-- What the final steps leave unchanged (R176): a command's end writes `run`, `done` and the unit's mark; a hand-over
under FRAME writes the registers, the mark and the buffer of the unit it starts. No input, image or raw palette
changes. -/
def Obligations.FinalStepFrame : Prop :=
  ∀ s t : State,
    (exec .fin s = .next t →
      t = { s with
            run := t.run, done := t.done, faultCause := t.faultCause, faultInfo := t.faultInfo, unit := t.unit,
            pidx := t.pidx, palExp := t.palExp, palExpValid := t.palExpValid } ∧
      (s.cmd = .decomp → t = { s with run := t.run, done := t.done })) ∧
    (exec .pfin s = .next t →
      t = { s with
            run := t.run, done := t.done, faultCause := t.faultCause, faultInfo := t.faultInfo,
            palExpValid := t.palExpValid, unit := t.unit, fy := t.fy, fx := t.fx, wp := t.wp, out := t.out,
            outValid := t.outValid } ∧
      (s.cmd = .palx → t = { s with run := t.run, done := t.done, palExpValid := t.palExpValid })) ∧
    (exec .rfin s = .next t →
      t = { s with run := t.run, done := t.done, outValid := t.outValid })

/-- What a command leaves unchanged: the registers, marks and buffers of the units it does not start. A DECOMP or FRAME
start leaves `IMG` with no value, a PALX start `PAL_EXP`, a RECON start `OUT`, and no other buffer changes. -/
def Obligations.CommandFrame : Prop :=
  (∀ (s t : State) (i : Instr), i = .decomp ∨ i = .frame → exec i s = .next t →
    t = { s with
          run := t.run, done := t.done, faultCause := t.faultCause, faultInfo := t.faultInfo, cmd := t.cmd,
          unit := t.unit, phase := t.phase, ip := t.ip, op := t.op, endAt := t.endAt, ctl := t.ctl,
          nbits := t.nbits, img := t.img, imgValid := t.imgValid } ∧
    (s.run ≠ .idle → ∀ a, unitAt t.img a = unitAt s.img a)) ∧
  (∀ s t : State, exec .palx s = .next t →
    t = { s with
          run := t.run, done := t.done, faultCause := t.faultCause, faultInfo := t.faultInfo, cmd := t.cmd,
          unit := t.unit, pidx := t.pidx, palExp := t.palExp, palExpValid := t.palExpValid } ∧
    (s.run ≠ .idle ∨ s.palRawValid = false → ∀ a, unitAt t.palExp a = unitAt s.palExp a)) ∧
  (∀ s t : State, exec .recon s = .next t →
    t = { s with
          run := t.run, done := t.done, faultCause := t.faultCause, faultInfo := t.faultInfo, cmd := t.cmd,
          unit := t.unit, fy := t.fy, fx := t.fx, wp := t.wp, out := t.out, outValid := t.outValid } ∧
    (s.run ≠ .idle ∨ s.imgValid ≠ s.params.npix ∨ s.palExpValid = false →
      ∀ a, unitAt t.out a = unitAt s.out a))

/-- R51, R55: nothing the block does writes `IN`, `IN_LEN`, `PAL_RAW` or its mark, the parameters, or what the host
sees as its own. -/
def Obligations.BlockNeverWritesHostBuffers : Prop :=
  ∀ s t : State, blockStep s = .next t →
    t.params = s.params ∧ t.inp = s.inp ∧ t.inLen = s.inLen ∧ t.palRaw = s.palRaw ∧
    t.palRawValid = s.palRawValid ∧ t.turns = s.turns ∧ t.reply = s.reply

/-- R21, R124: while the LZD runs the program counter never goes back, the output cursor never goes back, and each
token that does not fault moves both. -/
def Obligations.CursorsOnlyAdvance : Prop :=
  ∀ s t : State, BlockInv s → s.run = .busy → s.unit = .lzd → blockStep s = .next t →
    s.ip ≤ t.ip ∧ s.op ≤ t.op ∧
    (select s = some .lit ∨ select s = some .ref → t.run = .busy → s.ip < t.ip ∧ s.op < t.op)

/-! ### Whole runs -/

/-- R130 with the bound of R127: a DECOMP run ends within its bound, and what it leaves is `lz` of the input. -/
def Obligations.DecompComputesLz : Prop :=
  ∀ (s s1 : State) (input : List Byte), BlockInv s → s.run = .idle → s.turns = [] →
    input.length = s.inLen → (∀ a, a < s.inLen → unitAt s.inp a = input[a]?) → exec .decomp s = .next s1 →
    ∃ (n : Nat) (t : State),
      n ≤ 2 + declaredLength input + (declaredLength input + 7) / 8 ∧
      Host.Core.run Sys2Proof.core n s1 = .next t ∧
      match lz input s.params.imgCap with
      | .ok bytes used =>
        endedWell t ∧ t.ip = used ∧ t.imgValid = bytes.length ∧ bytes.length = declaredLength input ∧
          ∀ a, unitAt t.img a = bytes[a]?
      | .fault c info => endedBadly t ∧ t.faultCause = c.code ∧ t.faultInfo = BitVec.ofNat 32 info

/-- R148 with the step count of R147: a PALX run takes 257 steps and leaves every entry of `PAL_EXP` the expansion of
its raw entry. -/
def Obligations.PalxExpandsWholePalette : Prop :=
  ∀ s s1 : State, BlockInv s → s.run = .idle → s.turns = [] → s.palRawValid = true → exec .palx s = .next s1 →
    ∃ t : State, Host.Core.run Sys2Proof.core 257 s1 = .next t ∧
      endedWell t ∧ t.palExpValid = true ∧
      ∀ k, k < 256 → unitAt t.palExp k = (unitAt s.palRaw k).map (expand s.params.layout)

/-- R161 with the step count of R159: a RECON run takes `NPIX + 1` steps and leaves the rows of the image in `OUT`
from the last to the first, each pixel as the three bytes of its palette entry. -/
def Obligations.ReconReversesRows : Prop :=
  ∀ s s1 : State, BlockInv s → s.run = .idle → s.turns = [] → s.imgValid = s.params.npix → s.palExpValid = true →
    exec .recon s = .next s1 →
    ∃ t : State, Host.Core.run Sys2Proof.core (s.params.npix + 1) s1 = .next t ∧
      endedWell t ∧ t.outValid = true ∧
      ∀ x y : Nat, x < s.params.width → y < s.params.height → ∃ (k : Byte) (c : Colour),
        unitAt s.img (y * s.params.width + x) = some k ∧ unitAt s.palExp k.toNat = some c ∧
        unitAt t.out (3 * ((s.params.height - 1 - y) * s.params.width + x)) = some (c.extractLsb' 16 8) ∧
        unitAt t.out (3 * ((s.params.height - 1 - y) * s.params.width + x) + 1) = some (c.extractLsb' 8 8) ∧
        unitAt t.out (3 * ((s.params.height - 1 - y) * s.params.width + x) + 2) = some (c.extractLsb' 0 8)

/-- R185 with R178: a FRAME run on a loaded palette ends, and it leaves `OUT` equal to `frame` of the input and the
raw palette, or the fault that `frame` gives. -/
def Obligations.FrameComputesFrame : Prop :=
  ∀ (s s1 : State) (input : List Byte) (raw : List RawEntry), BlockInv s → s.run = .idle → s.turns = [] →
    input.length = s.inLen → (∀ a, a < s.inLen → unitAt s.inp a = input[a]?) →
    s.palRawValid = true → raw.length = 256 → (∀ k, k < 256 → unitAt s.palRaw k = raw[k]?) →
    exec .frame s = .next s1 →
    ∃ (n : Nat) (t : State), Host.Core.run Sys2Proof.core n s1 = .next t ∧
      match frame s.params input raw with
      | .ok out =>
        endedWell t ∧ t.outValid = true ∧ declaredLength input = s.params.npix ∧
          out.length = s.params.outLen ∧ ∀ a, unitAt t.out a = out[a]?
      | .fault c info => endedBadly t ∧ t.faultCause = c.code ∧ t.faultInfo = BitVec.ofNat 32 info
end

