-- ==== Sys2Proof/Laws/Memory.lean ====
section
/-! SUPPORT. What the buffer operations do: the value of each unit after a write, the canonical form, and one lemma
for everything each access can answer. -/

namespace Sys2Proof.Machine

open Sys2Proof.Safety

variable {w : Nat}

/-! ### One unit -/

@[simp] theorem unitAt_nil (a : Nat) : unitAt ([] : Cells w) a = none := rfl

theorem unitAt_cons (b a : Nat) (v : BitVec w) (m : Cells w) :
    unitAt ((b, v) :: m) a = if a = b then some v else unitAt m a := rfl

theorem unitAt_putUnit (m : Cells w) (a b : Nat) (v : BitVec w) :
    unitAt (putUnit m a v) b = if b = a then some v else unitAt m b := by
  induction m with
  | nil => simp [putUnit, unitAt_cons]
  | cons p m ih =>
    obtain ⟨c, u⟩ := p
    simp only [putUnit]
    split
    · simp [unitAt_cons]
    · split
      · next h => subst h; simp only [unitAt_cons]; split <;> rfl
      · next h => simp only [unitAt_cons, ih]; split <;> split <;> first | rfl | omega

@[simp] theorem unitAt_putUnit_same (m : Cells w) (a : Nat) (v : BitVec w) :
    unitAt (putUnit m a v) a = some v := by simp [unitAt_putUnit]

theorem unitAt_putUnit_ne (m : Cells w) {a b : Nat} (v : BitVec w) (h : b ≠ a) :
    unitAt (putUnit m a v) b = unitAt m b := by simp [unitAt_putUnit, h]

theorem holds_putUnit (m : Cells w) (a b : Nat) (v : BitVec w) :
    holds (putUnit m a v) b ↔ b = a ∨ holds m b := by
  unfold holds
  rw [unitAt_putUnit]
  split <;> simp_all

/-! ### The canonical form -/

theorem Memory.wf_nil : Memory.wf ([] : Cells w) := List.Pairwise.nil

theorem mem_putUnit {m : Cells w} {a : Nat} {v : BitVec w} {p : Nat × BitVec w}
    (h : p ∈ putUnit m a v) : p.1 = a ∨ p ∈ m := by
  induction m with
  | nil => simp only [putUnit, List.mem_singleton] at h; simp [h]
  | cons q m ih =>
    obtain ⟨c, u⟩ := q
    simp only [putUnit] at h
    split at h
    · rcases List.mem_cons.1 h with rfl | h
      · exact .inl rfl
      · exact .inr h
    · split at h
      · rcases List.mem_cons.1 h with rfl | h
        · exact .inl rfl
        · exact .inr (List.mem_cons_of_mem _ h)
      · rcases List.mem_cons.1 h with rfl | h
        · exact .inr List.mem_cons_self
        · exact (ih h).imp_right (List.mem_cons_of_mem _)

theorem putUnit_wf {m : Cells w} (a : Nat) (v : BitVec w) (h : Memory.wf m) :
    Memory.wf (putUnit m a v) := by
  induction m with
  | nil => simp [putUnit, Memory.wf]
  | cons p m ih =>
    obtain ⟨c, u⟩ := p
    obtain ⟨hlt, hm⟩ := List.pairwise_cons.1 h
    simp only [putUnit]
    split
    · next hac =>
      refine List.pairwise_cons.2 ⟨fun q hq => ?_, h⟩
      rcases List.mem_cons.1 hq with rfl | hq
      · exact hac
      · exact Nat.lt_trans hac (hlt q hq)
    · split
      · next hac => subst hac; exact List.pairwise_cons.2 ⟨hlt, hm⟩
      · next h1 h2 =>
        refine List.pairwise_cons.2 ⟨fun q hq => ?_, ih hm⟩
        rcases mem_putUnit hq with hq | hq
        · show c < q.1
          omega
        · exact hlt q hq

theorem unitAt_eq_none_of_lt {m : Cells w} {a : Nat} (h : ∀ p ∈ m, a < p.1) : unitAt m a = none := by
  induction m with
  | nil => rfl
  | cons p m ih =>
    have h1 : a < p.1 := h p List.mem_cons_self
    rw [show p = (p.1, p.2) from rfl, unitAt_cons, if_neg (by omega)]
    exact ih fun q hq => h q (List.mem_cons_of_mem _ hq)

/-- Buffers in canonical form with equal contents are equal data. -/
theorem Memory.wf_ext {m n : Cells w} (hm : Memory.wf m) (hn : Memory.wf n)
    (h : ∀ a, unitAt m a = unitAt n a) : m = n := by
  induction m generalizing n with
  | nil =>
    cases n with
    | nil => rfl
    | cons q n =>
      obtain ⟨c, v⟩ := q
      have := h c
      simp [unitAt_cons] at this
  | cons p m ih =>
    obtain ⟨b, u⟩ := p
    obtain ⟨hlt, hm⟩ := List.pairwise_cons.1 hm
    cases n with
    | nil => have := h b; simp [unitAt_cons] at this
    | cons q n =>
      obtain ⟨c, v⟩ := q
      obtain ⟨hlt', hn'⟩ := List.pairwise_cons.1 hn
      have hbc : b = c := by
        rcases Nat.lt_trichotomy b c with hl | he | hl
        · have := h b
          rw [unitAt_cons, if_pos rfl, unitAt_cons, if_neg (by omega),
            unitAt_eq_none_of_lt fun r hr => Nat.lt_trans hl (hlt' r hr)] at this
          simp at this
        · exact he
        · have := h c
          rw [unitAt_cons, if_neg (by omega), unitAt_cons, if_pos rfl,
            unitAt_eq_none_of_lt fun r hr => Nat.lt_trans hl (hlt r hr)] at this
          simp at this
      subst hbc
      have huv : u = v := by have := h b; simpa [unitAt_cons] using this
      subst huv
      congr 1
      refine ih hm hn' fun a => ?_
      by_cases hab : a = b
      · subst hab
        rw [unitAt_eq_none_of_lt hlt, unitAt_eq_none_of_lt hlt']
      · have := h a
        simpa [unitAt_cons, hab] using this

/-! ### Whole buffers -/

theorem unitAt_cellsFrom (vs : List (BitVec w)) (a b : Nat) :
    unitAt (cellsFrom a vs) b = if a ≤ b then vs[b - a]? else none := by
  induction vs generalizing a with
  | nil => simp [cellsFrom]
  | cons v vs ih =>
    simp only [cellsFrom, unitAt_cons, ih]
    by_cases h1 : b = a
    · subst h1; simp
    · by_cases h2 : a ≤ b
      · rw [if_neg h1, if_pos (show a + 1 ≤ b by omega), if_pos h2]
        obtain ⟨d, hd⟩ : ∃ d, b - a = d + 1 := ⟨b - a - 1, by omega⟩
        rw [show b - (a + 1) = d by omega, hd, List.getElem?_cons_succ]
      · rw [if_neg h1, if_neg (by omega), if_neg h2]

theorem holds_cellsFrom_zero (vs : List (BitVec w)) (b : Nat) :
    holds (cellsFrom 0 vs) b ↔ b < vs.length := by
  simp [holds, unitAt_cellsFrom]

theorem le_of_mem_cellsFrom {vs : List (BitVec w)} {a : Nat} {p : Nat × BitVec w}
    (h : p ∈ cellsFrom a vs) : a ≤ p.1 := by
  induction vs generalizing a with
  | nil => simp [cellsFrom] at h
  | cons v vs ih =>
    rcases List.mem_cons.1 h with rfl | h
    · exact Nat.le_refl _
    · exact Nat.le_of_succ_le (ih h)

theorem cellsFrom_wf (vs : List (BitVec w)) (a : Nat) : Memory.wf (cellsFrom a vs) := by
  induction vs generalizing a with
  | nil => exact Memory.wf_nil
  | cons v vs ih => exact List.pairwise_cons.2 ⟨fun p hp => le_of_mem_cellsFrom hp, ih (a + 1)⟩

theorem keepBelow_wf {m : Cells w} (n : Nat) (h : Memory.wf m) : Memory.wf (keepBelow n m) :=
  List.Pairwise.filter _ h

theorem unitAt_keepBelow (m : Cells w) (n a : Nat) :
    unitAt (keepBelow n m) a = if a < n then unitAt m a else none := by
  induction m with
  | nil => simp [keepBelow]
  | cons p m ih =>
    obtain ⟨b, v⟩ := p
    unfold keepBelow at ih ⊢
    rw [List.filter_cons]
    split
    · next h =>
      simp only [decide_eq_true_eq] at h
      rw [unitAt_cons, unitAt_cons, ih]
      split
      · next hab => subst hab; rw [if_pos h]
      · rfl
    · next h =>
      simp only [decide_eq_true_eq] at h
      rw [ih, unitAt_cons]
      split
      · rw [if_neg (by omega)]
      · rfl

theorem placeBytes_wf {m : Cells 8} (bs : List Byte) (a : Nat) (h : Memory.wf m) :
    Memory.wf (placeBytes m a bs) := by
  induction bs generalizing m a with
  | nil => exact h
  | cons b bs ih => exact ih (a + 1) (putUnit_wf a b h)

/-! ### The accesses: everything each can answer -/

theorem readUnit_ok_iff {sp : Space} {cap : Nat} {m : Cells w} {a : Nat} {v : BitVec w} :
    readUnit sp cap m a = .ok v ↔ a < cap ∧ unitAt m a = some v := by
  unfold readUnit
  split
  · next h =>
    cases hm : unitAt m a with
    | none => simp
    | some u => simp [h]
  · next h => simp [h]

theorem readUnit_error_iff {sp : Space} {cap : Nat} {m : Cells w} {a : Nat} {f : Miss} :
    readUnit sp cap m a = .error f ↔
      (a < cap ∧ unitAt m a = none ∧ f = .noValue sp a) ∨ (cap ≤ a ∧ f = .outside sp a) := by
  unfold readUnit
  split
  · next h =>
    cases hm : unitAt m a with
    | none => simp [h, eq_comm, Nat.not_le.2 h]
    | some u => simp [Nat.not_le.2 h]
  · next h => simp [h, Nat.not_lt.1 h, eq_comm]

theorem writeUnit_ok_iff {sp : Space} {cap : Nat} {m m' : Cells w} {a : Nat} {v : BitVec w} :
    writeUnit sp cap m a v = .ok m' ↔ a < cap ∧ m' = putUnit m a v := by
  unfold writeUnit
  split
  · next h => simp [h, eq_comm]
  · next h => simp [h]

theorem writeUnit_error_iff {sp : Space} {cap : Nat} {m : Cells w} {a : Nat} {v : BitVec w} {f : Miss} :
    writeUnit sp cap m a v = .error f ↔ cap ≤ a ∧ f = .outside sp a := by
  unfold writeUnit
  split
  · next h => simp [Nat.not_le.2 h]
  · next h => simp [Nat.not_lt.1 h, eq_comm]

/-- A run of units that can be read: every one is inside the space and holds the value given. -/
theorem readRun_ok_iff {sp : Space} {cap : Nat} {m : Cells w} {a n : Nat} {vs : List (BitVec w)} :
    readRun sp cap m a n = .ok vs ↔
      vs.length = n ∧ ∀ i, i < n → a + i < cap ∧ unitAt m (a + i) = vs[i]? := by
  induction n generalizing a vs with
  | zero => cases vs <;> simp [readRun]
  | succ n ih =>
    unfold readRun
    constructor
    · intro h
      split at h
      · simp at h
      · next v hv =>
        split at h
        · simp at h
        · next us hus =>
          obtain rfl : v :: us = vs := by simpa using h
          obtain ⟨hc, hu⟩ := readUnit_ok_iff.1 hv
          obtain ⟨hl, hi⟩ := ih.1 hus
          refine ⟨by simp [hl], fun i hin => ?_⟩
          cases i with
          | zero => exact ⟨hc, by simpa using hu⟩
          | succ i =>
            have := hi i (by omega)
            rw [Nat.add_right_comm, Nat.add_assoc] at this
            simpa [Nat.add_assoc] using this
    · rintro ⟨hl, hi⟩
      cases vs with
      | nil => simp at hl
      | cons v us =>
        have h0 := hi 0 (by omega)
        rw [readUnit_ok_iff.2 ⟨by simpa using h0.1, by simpa using h0.2⟩]
        have hus : readRun sp cap m (a + 1) n = .ok us := ih.2 ⟨by simpa using hl, fun i hin => by
          have := hi (i + 1) (by omega)
          rw [show a + 1 + i = a + (i + 1) by omega]
          simpa using this⟩
        simp [hus]

/-- A run of units that cannot be read stops at one of them. -/
theorem readRun_error {sp : Space} {cap : Nat} {m : Cells w} {a n : Nat} {f : Miss}
    (h : readRun sp cap m a n = .error f) :
    ∃ b, a ≤ b ∧ b < a + n ∧
      ((b < cap ∧ unitAt m b = none ∧ f = .noValue sp b) ∨ (cap ≤ b ∧ f = .outside sp b)) := by
  induction n generalizing a with
  | zero => simp [readRun] at h
  | succ n ih =>
    unfold readRun at h
    split at h
    · next g hg =>
      obtain rfl : g = f := by simpa using h
      exact ⟨a, Nat.le_refl _, by omega, readUnit_error_iff.1 hg⟩
    · split at h
      · next g hg =>
        obtain rfl : g = f := by simpa using h
        obtain ⟨b, h1, h2, h3⟩ := ih hg
        exact ⟨b, by omega, by omega, h3⟩
      · simp at h

/-- A run of writes that succeeds: every index is inside the space, the units written hold the values, every other
unit is as before, and the canonical form is kept. -/
theorem writeRun_ok {sp : Space} {cap : Nat} {m m' : Cells w} {a : Nat} {vs : List (BitVec w)}
    (h : writeRun sp cap m a vs = .ok m') :
    (∀ i, i < vs.length → a + i < cap) ∧
      (∀ b, unitAt m' b = if a ≤ b ∧ b < a + vs.length then vs[b - a]? else unitAt m b) ∧
      (Memory.wf m → Memory.wf m') := by
  induction vs generalizing a m with
  | nil =>
    obtain rfl : m = m' := by simpa [writeRun] using h
    refine ⟨by simp, fun b => ?_, id⟩
    rw [if_neg]
    simp
  | cons v vs ih =>
    unfold writeRun at h
    split at h
    · simp at h
    · next m1 hm1 =>
      obtain ⟨hc, rfl⟩ := writeUnit_ok_iff.1 hm1
      obtain ⟨h1, h2, h3⟩ := ih h
      refine ⟨fun i hi => ?_, fun b => ?_, fun hw => h3 (putUnit_wf a v hw)⟩
      · cases i with
        | zero => exact hc
        | succ i => have := h1 i (by simpa using hi); omega
      · rw [h2, unitAt_putUnit]
        simp only [List.length_cons]
        by_cases hb : b = a
        · subst hb
          rw [if_neg (by omega), if_pos rfl, if_pos (by omega)]
          simp
        · by_cases hr : a + 1 ≤ b ∧ b < a + 1 + vs.length
          · rw [if_pos hr, if_pos (by omega)]
            obtain ⟨d, hd⟩ : ∃ d, b - a = d + 1 := ⟨b - a - 1, by omega⟩
            rw [show b - (a + 1) = d by omega, hd, List.getElem?_cons_succ]
          · rw [if_neg hr, if_neg hb, if_neg (by omega)]

/-- A run of writes succeeds when every index is inside the space. -/
theorem writeRun_isOk {sp : Space} {cap : Nat} (vs : List (BitVec w)) {m : Cells w} {a : Nat}
    (h : a + vs.length ≤ cap) : ∃ m', writeRun sp cap m a vs = .ok m' := by
  induction vs generalizing a m with
  | nil => exact ⟨m, rfl⟩
  | cons v vs ih =>
    simp only [List.length_cons] at h
    unfold writeRun
    rw [writeUnit_ok_iff.2 ⟨by omega, rfl⟩]
    exact ih (by omega)

/-- A run of writes that fails reached an index the space does not have. -/
theorem writeRun_error {sp : Space} {cap : Nat} {m : Cells w} {a : Nat} {vs : List (BitVec w)} {f : Miss}
    (h : writeRun sp cap m a vs = .error f) :
    ∃ b, a ≤ b ∧ b < a + vs.length ∧ cap ≤ b ∧ f = .outside sp b := by
  induction vs generalizing a m with
  | nil => simp [writeRun] at h
  | cons v vs ih =>
    unfold writeRun at h
    simp only [List.length_cons]
    split at h
    · next g hg =>
      obtain rfl : g = f := by simpa using h
      obtain ⟨hc, rfl⟩ := writeUnit_error_iff.1 hg
      exact ⟨a, Nat.le_refl _, by omega, hc, rfl⟩
    · obtain ⟨b, h1, h2, h3⟩ := ih h
      exact ⟨b, by omega, by omega, h3⟩

/-- A copy loop that succeeds leaves every unit outside its destination as it was and keeps the canonical form; and
the whole destination is inside the space and holds values. -/
theorem copyLoop_ok {cap : Nat} {m m' : Cells 8} {src dst n : Nat}
    (h : copyLoop cap m src dst n = .ok m') :
    (∀ i, i < n → dst + i < cap) ∧ (∀ i, i < n → holds m' (dst + i)) ∧
      (∀ b, ¬ (dst ≤ b ∧ b < dst + n) → unitAt m' b = unitAt m b) ∧ (Memory.wf m → Memory.wf m') := by
  induction n generalizing src dst m with
  | zero =>
    obtain rfl : m = m' := by simpa [copyLoop] using h
    exact ⟨by simp, by simp, fun _ _ => rfl, id⟩
  | succ n ih =>
    unfold copyLoop at h
    split at h
    · simp at h
    · next v hv =>
      split at h
      · simp at h
      · next m1 hm1 =>
        obtain ⟨hc, rfl⟩ := writeUnit_ok_iff.1 hm1
        obtain ⟨h1, h2, h3, h4⟩ := ih h
        refine ⟨fun i hi => ?_, fun i hi => ?_, fun b hb => ?_, fun hw => h4 (putUnit_wf _ _ hw)⟩
        · cases i with
          | zero => exact hc
          | succ i => have := h1 i (by omega); omega
        · cases i with
          | zero =>
            unfold holds
            rw [h3 _ (by omega)]
            simp
          | succ i =>
            have := h2 i (by omega)
            rwa [show dst + 1 + i = dst + (i + 1) by omega] at this
        · rw [h3 b (by omega), unitAt_putUnit_ne _ _ (by omega)]

/-- A copy loop succeeds when its source lies below its destination, every unit from the first source to the
destination holds a value, and the destination is inside the space. -/
theorem copyLoop_isOk {cap : Nat} (n : Nat) {m : Cells 8} {src dst : Nat} (hsd : src < dst)
    (hcap : dst + n ≤ cap) (hm : ∀ a, src ≤ a → a < dst → holds m a) :
    ∃ m', copyLoop cap m src dst n = .ok m' := by
  induction n generalizing src dst m with
  | zero => exact ⟨m, rfl⟩
  | succ n ih =>
    obtain ⟨v, hv⟩ := Option.isSome_iff_exists.1 (hm src (Nat.le_refl _) hsd)
    unfold copyLoop
    rw [readUnit_ok_iff.2 ⟨by omega, hv⟩]
    simp only [writeUnit_ok_iff.2 (⟨by omega, rfl⟩ : dst < cap ∧ putUnit m dst v = putUnit m dst v)]
    refine ih (by omega) (by omega) fun a h1 h2 => ?_
    rw [holds_putUnit]
    by_cases ha : a = dst
    · exact .inl ha
    · exact .inr (hm a (by omega) (by omega))

/-- Why a copy loop can stop: a source unit that held no value before the loop, or an index outside the space. -/
theorem copyLoop_error {cap : Nat} {m : Cells 8} {src dst n : Nat} {f : Miss}
    (h : copyLoop cap m src dst n = .error f) :
    ∃ b, (f = .noValue .img b ∧ b < cap ∧ src ≤ b ∧ b < src + n ∧ unitAt m b = none) ∨
      (f = .outside .img b ∧ cap ≤ b ∧ (b < src + n ∨ b < dst + n)) := by
  induction n generalizing src dst m with
  | zero => simp [copyLoop] at h
  | succ n ih =>
    unfold copyLoop at h
    split at h
    · next g hg =>
      obtain rfl : g = f := by simpa using h
      rcases readUnit_error_iff.1 hg with ⟨h1, hn, h2⟩ | ⟨h1, h2⟩
      · exact ⟨src, .inl ⟨h2, h1, Nat.le_refl _, by omega, hn⟩⟩
      · exact ⟨src, .inr ⟨h2, h1, .inl (by omega)⟩⟩
    · split at h
      · next g hg =>
        obtain rfl : g = f := by simpa using h
        obtain ⟨h1, h2⟩ := writeUnit_error_iff.1 hg
        exact ⟨dst, .inr ⟨h2, h1, .inr (by omega)⟩⟩
      · next m1 hm1 =>
        obtain ⟨-, rfl⟩ := writeUnit_ok_iff.1 hm1
        obtain ⟨b, ⟨h1, h2, h3, h4, h5⟩ | ⟨h1, h2, h3⟩⟩ := ih h
        · rw [unitAt_putUnit] at h5
          split at h5
          · simp at h5
          · exact ⟨b, .inl ⟨h1, h2, by omega, by omega, h5⟩⟩
        · exact ⟨b, .inr ⟨h1, h2, by omega⟩⟩

/-- The buffers after reset have the canonical form (R45). -/
theorem reset_memory_wf :
    Memory.wf State.reset.inp ∧ Memory.wf State.reset.img ∧ Memory.wf State.reset.palRaw ∧
      Memory.wf State.reset.palExp ∧ Memory.wf State.reset.out :=
  ⟨Memory.wf_nil, Memory.wf_nil, Memory.wf_nil, Memory.wf_nil, Memory.wf_nil⟩

end Sys2Proof.Machine
end

