-- ==== Sys2Proof/Laws/State.lean ====
section
/-! SUPPORT. What each named update of the state leaves in each field. -/

namespace Sys2Proof.Machine

/-! ### `enterFault`: fault entry -/

@[simp] theorem enterFault_params (c : BitVec 4) (i : BitVec 32) (s : State) : (enterFault c i s).params = s.params := rfl
@[simp] theorem enterFault_ip (c : BitVec 4) (i : BitVec 32) (s : State) : (enterFault c i s).ip = s.ip := rfl
@[simp] theorem enterFault_op (c : BitVec 4) (i : BitVec 32) (s : State) : (enterFault c i s).op = s.op := rfl
@[simp] theorem enterFault_endAt (c : BitVec 4) (i : BitVec 32) (s : State) : (enterFault c i s).endAt = s.endAt := rfl
@[simp] theorem enterFault_ctl (c : BitVec 4) (i : BitVec 32) (s : State) : (enterFault c i s).ctl = s.ctl := rfl
@[simp] theorem enterFault_nbits (c : BitVec 4) (i : BitVec 32) (s : State) : (enterFault c i s).nbits = s.nbits := rfl
@[simp] theorem enterFault_pidx (c : BitVec 4) (i : BitVec 32) (s : State) : (enterFault c i s).pidx = s.pidx := rfl
@[simp] theorem enterFault_fy (c : BitVec 4) (i : BitVec 32) (s : State) : (enterFault c i s).fy = s.fy := rfl
@[simp] theorem enterFault_fx (c : BitVec 4) (i : BitVec 32) (s : State) : (enterFault c i s).fx = s.fx := rfl
@[simp] theorem enterFault_wp (c : BitVec 4) (i : BitVec 32) (s : State) : (enterFault c i s).wp = s.wp := rfl
@[simp] theorem enterFault_run (c : BitVec 4) (i : BitVec 32) (s : State) : (enterFault c i s).run = .fault := rfl
@[simp] theorem enterFault_cmd (c : BitVec 4) (i : BitVec 32) (s : State) : (enterFault c i s).cmd = s.cmd := rfl
@[simp] theorem enterFault_unit (c : BitVec 4) (i : BitVec 32) (s : State) : (enterFault c i s).unit = s.unit := rfl
@[simp] theorem enterFault_phase (c : BitVec 4) (i : BitVec 32) (s : State) : (enterFault c i s).phase = s.phase := rfl
@[simp] theorem enterFault_done (c : BitVec 4) (i : BitVec 32) (s : State) : (enterFault c i s).done = false := rfl
@[simp] theorem enterFault_inLen (c : BitVec 4) (i : BitVec 32) (s : State) : (enterFault c i s).inLen = s.inLen := rfl
@[simp] theorem enterFault_faultCause (c : BitVec 4) (i : BitVec 32) (s : State) : (enterFault c i s).faultCause = c := rfl
@[simp] theorem enterFault_faultInfo (c : BitVec 4) (i : BitVec 32) (s : State) : (enterFault c i s).faultInfo = i := rfl
@[simp] theorem enterFault_inp (c : BitVec 4) (i : BitVec 32) (s : State) : (enterFault c i s).inp = s.inp := rfl
@[simp] theorem enterFault_img (c : BitVec 4) (i : BitVec 32) (s : State) : (enterFault c i s).img = s.img := rfl
@[simp] theorem enterFault_imgValid (c : BitVec 4) (i : BitVec 32) (s : State) : (enterFault c i s).imgValid = s.imgValid := rfl
@[simp] theorem enterFault_palRaw (c : BitVec 4) (i : BitVec 32) (s : State) : (enterFault c i s).palRaw = s.palRaw := rfl
@[simp] theorem enterFault_palRawValid (c : BitVec 4) (i : BitVec 32) (s : State) : (enterFault c i s).palRawValid = s.palRawValid := rfl
@[simp] theorem enterFault_palExp (c : BitVec 4) (i : BitVec 32) (s : State) : (enterFault c i s).palExp = s.palExp := rfl
@[simp] theorem enterFault_palExpValid (c : BitVec 4) (i : BitVec 32) (s : State) : (enterFault c i s).palExpValid = s.palExpValid := rfl
@[simp] theorem enterFault_out (c : BitVec 4) (i : BitVec 32) (s : State) : (enterFault c i s).out = s.out := rfl
@[simp] theorem enterFault_outValid (c : BitVec 4) (i : BitVec 32) (s : State) : (enterFault c i s).outValid = s.outValid := rfl
@[simp] theorem enterFault_turns (c : BitVec 4) (i : BitVec 32) (s : State) : (enterFault c i s).turns = s.turns := rfl
@[simp] theorem enterFault_reply (c : BitVec 4) (i : BitVec 32) (s : State) : (enterFault c i s).reply = s.reply := rfl
@[simp] theorem enterFault_draws (c : BitVec 4) (i : BitVec 32) (s : State) : (enterFault c i s).draws = s.draws := rfl

/-! ### `raiseUnnamed`: a fault of no named cause -/

@[simp] theorem raiseUnnamed_params (s : State) : (raiseUnnamed s).params = s.params := rfl
@[simp] theorem raiseUnnamed_ip (s : State) : (raiseUnnamed s).ip = s.ip := rfl
@[simp] theorem raiseUnnamed_op (s : State) : (raiseUnnamed s).op = s.op := rfl
@[simp] theorem raiseUnnamed_endAt (s : State) : (raiseUnnamed s).endAt = s.endAt := rfl
@[simp] theorem raiseUnnamed_ctl (s : State) : (raiseUnnamed s).ctl = s.ctl := rfl
@[simp] theorem raiseUnnamed_nbits (s : State) : (raiseUnnamed s).nbits = s.nbits := rfl
@[simp] theorem raiseUnnamed_pidx (s : State) : (raiseUnnamed s).pidx = s.pidx := rfl
@[simp] theorem raiseUnnamed_fy (s : State) : (raiseUnnamed s).fy = s.fy := rfl
@[simp] theorem raiseUnnamed_fx (s : State) : (raiseUnnamed s).fx = s.fx := rfl
@[simp] theorem raiseUnnamed_wp (s : State) : (raiseUnnamed s).wp = s.wp := rfl
@[simp] theorem raiseUnnamed_run (s : State) : (raiseUnnamed s).run = .fault := rfl
@[simp] theorem raiseUnnamed_cmd (s : State) : (raiseUnnamed s).cmd = s.cmd := rfl
@[simp] theorem raiseUnnamed_unit (s : State) : (raiseUnnamed s).unit = s.unit := rfl
@[simp] theorem raiseUnnamed_phase (s : State) : (raiseUnnamed s).phase = s.phase := rfl
@[simp] theorem raiseUnnamed_done (s : State) : (raiseUnnamed s).done = false := rfl
@[simp] theorem raiseUnnamed_inLen (s : State) : (raiseUnnamed s).inLen = s.inLen := rfl
@[simp] theorem raiseUnnamed_faultCause (s : State) : (raiseUnnamed s).faultCause = Config.freeFaultCode s.draws := rfl
@[simp] theorem raiseUnnamed_faultInfo (s : State) : (raiseUnnamed s).faultInfo = Config.faultInfoDraw s.draws := rfl
@[simp] theorem raiseUnnamed_inp (s : State) : (raiseUnnamed s).inp = s.inp := rfl
@[simp] theorem raiseUnnamed_img (s : State) : (raiseUnnamed s).img = s.img := rfl
@[simp] theorem raiseUnnamed_imgValid (s : State) : (raiseUnnamed s).imgValid = s.imgValid := rfl
@[simp] theorem raiseUnnamed_palRaw (s : State) : (raiseUnnamed s).palRaw = s.palRaw := rfl
@[simp] theorem raiseUnnamed_palRawValid (s : State) : (raiseUnnamed s).palRawValid = s.palRawValid := rfl
@[simp] theorem raiseUnnamed_palExp (s : State) : (raiseUnnamed s).palExp = s.palExp := rfl
@[simp] theorem raiseUnnamed_palExpValid (s : State) : (raiseUnnamed s).palExpValid = s.palExpValid := rfl
@[simp] theorem raiseUnnamed_out (s : State) : (raiseUnnamed s).out = s.out := rfl
@[simp] theorem raiseUnnamed_outValid (s : State) : (raiseUnnamed s).outValid = s.outValid := rfl
@[simp] theorem raiseUnnamed_turns (s : State) : (raiseUnnamed s).turns = s.turns := rfl
@[simp] theorem raiseUnnamed_reply (s : State) : (raiseUnnamed s).reply = s.reply := rfl
@[simp] theorem raiseUnnamed_draws (s : State) : (raiseUnnamed s).draws = s.draws + 1 := rfl

/-! ### `raiseFault`: a named fault -/

@[simp] theorem raiseFault_params (c : Cause) (n : Nat) (s : State) : (raiseFault c n s).params = s.params := rfl
@[simp] theorem raiseFault_ip (c : Cause) (n : Nat) (s : State) : (raiseFault c n s).ip = s.ip := rfl
@[simp] theorem raiseFault_op (c : Cause) (n : Nat) (s : State) : (raiseFault c n s).op = s.op := rfl
@[simp] theorem raiseFault_endAt (c : Cause) (n : Nat) (s : State) : (raiseFault c n s).endAt = s.endAt := rfl
@[simp] theorem raiseFault_ctl (c : Cause) (n : Nat) (s : State) : (raiseFault c n s).ctl = s.ctl := rfl
@[simp] theorem raiseFault_nbits (c : Cause) (n : Nat) (s : State) : (raiseFault c n s).nbits = s.nbits := rfl
@[simp] theorem raiseFault_pidx (c : Cause) (n : Nat) (s : State) : (raiseFault c n s).pidx = s.pidx := rfl
@[simp] theorem raiseFault_fy (c : Cause) (n : Nat) (s : State) : (raiseFault c n s).fy = s.fy := rfl
@[simp] theorem raiseFault_fx (c : Cause) (n : Nat) (s : State) : (raiseFault c n s).fx = s.fx := rfl
@[simp] theorem raiseFault_wp (c : Cause) (n : Nat) (s : State) : (raiseFault c n s).wp = s.wp := rfl
@[simp] theorem raiseFault_run (c : Cause) (n : Nat) (s : State) : (raiseFault c n s).run = .fault := rfl
@[simp] theorem raiseFault_cmd (c : Cause) (n : Nat) (s : State) : (raiseFault c n s).cmd = s.cmd := rfl
@[simp] theorem raiseFault_unit (c : Cause) (n : Nat) (s : State) : (raiseFault c n s).unit = s.unit := rfl
@[simp] theorem raiseFault_phase (c : Cause) (n : Nat) (s : State) : (raiseFault c n s).phase = s.phase := rfl
@[simp] theorem raiseFault_done (c : Cause) (n : Nat) (s : State) : (raiseFault c n s).done = false := rfl
@[simp] theorem raiseFault_inLen (c : Cause) (n : Nat) (s : State) : (raiseFault c n s).inLen = s.inLen := rfl
@[simp] theorem raiseFault_faultCause (c : Cause) (n : Nat) (s : State) : (raiseFault c n s).faultCause = c.code := rfl
@[simp] theorem raiseFault_faultInfo (c : Cause) (n : Nat) (s : State) : (raiseFault c n s).faultInfo = BitVec.ofNat 32 n := rfl
@[simp] theorem raiseFault_inp (c : Cause) (n : Nat) (s : State) : (raiseFault c n s).inp = s.inp := rfl
@[simp] theorem raiseFault_img (c : Cause) (n : Nat) (s : State) : (raiseFault c n s).img = s.img := rfl
@[simp] theorem raiseFault_imgValid (c : Cause) (n : Nat) (s : State) : (raiseFault c n s).imgValid = s.imgValid := rfl
@[simp] theorem raiseFault_palRaw (c : Cause) (n : Nat) (s : State) : (raiseFault c n s).palRaw = s.palRaw := rfl
@[simp] theorem raiseFault_palRawValid (c : Cause) (n : Nat) (s : State) : (raiseFault c n s).palRawValid = s.palRawValid := rfl
@[simp] theorem raiseFault_palExp (c : Cause) (n : Nat) (s : State) : (raiseFault c n s).palExp = s.palExp := rfl
@[simp] theorem raiseFault_palExpValid (c : Cause) (n : Nat) (s : State) : (raiseFault c n s).palExpValid = s.palExpValid := rfl
@[simp] theorem raiseFault_out (c : Cause) (n : Nat) (s : State) : (raiseFault c n s).out = s.out := rfl
@[simp] theorem raiseFault_outValid (c : Cause) (n : Nat) (s : State) : (raiseFault c n s).outValid = s.outValid := rfl
@[simp] theorem raiseFault_turns (c : Cause) (n : Nat) (s : State) : (raiseFault c n s).turns = s.turns := rfl
@[simp] theorem raiseFault_reply (c : Cause) (n : Nat) (s : State) : (raiseFault c n s).reply = s.reply := rfl
@[simp] theorem raiseFault_draws (c : Cause) (n : Nat) (s : State) : (raiseFault c n s).draws = s.draws := rfl

/-! ### `afterToken`: the end of a token -/

@[simp] theorem afterToken_params (n k : Nat) (m : Cells 8) (s : State) : (afterToken n k m s).params = s.params := rfl
@[simp] theorem afterToken_ip (n k : Nat) (m : Cells 8) (s : State) : (afterToken n k m s).ip = s.ip + k := rfl
@[simp] theorem afterToken_op (n k : Nat) (m : Cells 8) (s : State) : (afterToken n k m s).op = s.op + n := rfl
@[simp] theorem afterToken_endAt (n k : Nat) (m : Cells 8) (s : State) : (afterToken n k m s).endAt = s.endAt := rfl
@[simp] theorem afterToken_ctl (n k : Nat) (m : Cells 8) (s : State) : (afterToken n k m s).ctl = shiftFlags s.ctl := rfl
@[simp] theorem afterToken_nbits (n k : Nat) (m : Cells 8) (s : State) : (afterToken n k m s).nbits = s.nbits - 1 := rfl
@[simp] theorem afterToken_pidx (n k : Nat) (m : Cells 8) (s : State) : (afterToken n k m s).pidx = s.pidx := rfl
@[simp] theorem afterToken_fy (n k : Nat) (m : Cells 8) (s : State) : (afterToken n k m s).fy = s.fy := rfl
@[simp] theorem afterToken_fx (n k : Nat) (m : Cells 8) (s : State) : (afterToken n k m s).fx = s.fx := rfl
@[simp] theorem afterToken_wp (n k : Nat) (m : Cells 8) (s : State) : (afterToken n k m s).wp = s.wp := rfl
@[simp] theorem afterToken_run (n k : Nat) (m : Cells 8) (s : State) : (afterToken n k m s).run = s.run := rfl
@[simp] theorem afterToken_cmd (n k : Nat) (m : Cells 8) (s : State) : (afterToken n k m s).cmd = s.cmd := rfl
@[simp] theorem afterToken_unit (n k : Nat) (m : Cells 8) (s : State) : (afterToken n k m s).unit = s.unit := rfl
@[simp] theorem afterToken_phase (n k : Nat) (m : Cells 8) (s : State) : (afterToken n k m s).phase = s.phase := rfl
@[simp] theorem afterToken_done (n k : Nat) (m : Cells 8) (s : State) : (afterToken n k m s).done = s.done := rfl
@[simp] theorem afterToken_inLen (n k : Nat) (m : Cells 8) (s : State) : (afterToken n k m s).inLen = s.inLen := rfl
@[simp] theorem afterToken_faultCause (n k : Nat) (m : Cells 8) (s : State) : (afterToken n k m s).faultCause = s.faultCause := rfl
@[simp] theorem afterToken_faultInfo (n k : Nat) (m : Cells 8) (s : State) : (afterToken n k m s).faultInfo = s.faultInfo := rfl
@[simp] theorem afterToken_inp (n k : Nat) (m : Cells 8) (s : State) : (afterToken n k m s).inp = s.inp := rfl
@[simp] theorem afterToken_img (n k : Nat) (m : Cells 8) (s : State) : (afterToken n k m s).img = m := rfl
@[simp] theorem afterToken_imgValid (n k : Nat) (m : Cells 8) (s : State) : (afterToken n k m s).imgValid = s.op + n := rfl
@[simp] theorem afterToken_palRaw (n k : Nat) (m : Cells 8) (s : State) : (afterToken n k m s).palRaw = s.palRaw := rfl
@[simp] theorem afterToken_palRawValid (n k : Nat) (m : Cells 8) (s : State) : (afterToken n k m s).palRawValid = s.palRawValid := rfl
@[simp] theorem afterToken_palExp (n k : Nat) (m : Cells 8) (s : State) : (afterToken n k m s).palExp = s.palExp := rfl
@[simp] theorem afterToken_palExpValid (n k : Nat) (m : Cells 8) (s : State) : (afterToken n k m s).palExpValid = s.palExpValid := rfl
@[simp] theorem afterToken_out (n k : Nat) (m : Cells 8) (s : State) : (afterToken n k m s).out = s.out := rfl
@[simp] theorem afterToken_outValid (n k : Nat) (m : Cells 8) (s : State) : (afterToken n k m s).outValid = s.outValid := rfl
@[simp] theorem afterToken_turns (n k : Nat) (m : Cells 8) (s : State) : (afterToken n k m s).turns = s.turns := rfl
@[simp] theorem afterToken_reply (n k : Nat) (m : Cells 8) (s : State) : (afterToken n k m s).reply = s.reply := rfl
@[simp] theorem afterToken_draws (n k : Nat) (m : Cells 8) (s : State) : (afterToken n k m s).draws = s.draws := rfl

/-! ### `startLzd`: the start of the LZD -/

@[simp] theorem startLzd_params (c : Cmd) (s : State) : (startLzd c s).params = s.params := rfl
@[simp] theorem startLzd_ip (c : Cmd) (s : State) : (startLzd c s).ip = 0 := rfl
@[simp] theorem startLzd_op (c : Cmd) (s : State) : (startLzd c s).op = 0 := rfl
@[simp] theorem startLzd_endAt (c : Cmd) (s : State) : (startLzd c s).endAt = 0 := rfl
@[simp] theorem startLzd_ctl (c : Cmd) (s : State) : (startLzd c s).ctl = 0 := rfl
@[simp] theorem startLzd_nbits (c : Cmd) (s : State) : (startLzd c s).nbits = 0 := rfl
@[simp] theorem startLzd_pidx (c : Cmd) (s : State) : (startLzd c s).pidx = s.pidx := rfl
@[simp] theorem startLzd_fy (c : Cmd) (s : State) : (startLzd c s).fy = s.fy := rfl
@[simp] theorem startLzd_fx (c : Cmd) (s : State) : (startLzd c s).fx = s.fx := rfl
@[simp] theorem startLzd_wp (c : Cmd) (s : State) : (startLzd c s).wp = s.wp := rfl
@[simp] theorem startLzd_run (c : Cmd) (s : State) : (startLzd c s).run = .busy := rfl
@[simp] theorem startLzd_cmd (c : Cmd) (s : State) : (startLzd c s).cmd = c := rfl
@[simp] theorem startLzd_unit (c : Cmd) (s : State) : (startLzd c s).unit = .lzd := rfl
@[simp] theorem startLzd_phase (c : Cmd) (s : State) : (startLzd c s).phase = .hdr := rfl
@[simp] theorem startLzd_done (c : Cmd) (s : State) : (startLzd c s).done = false := rfl
@[simp] theorem startLzd_inLen (c : Cmd) (s : State) : (startLzd c s).inLen = s.inLen := rfl
@[simp] theorem startLzd_faultCause (c : Cmd) (s : State) : (startLzd c s).faultCause = s.faultCause := rfl
@[simp] theorem startLzd_faultInfo (c : Cmd) (s : State) : (startLzd c s).faultInfo = s.faultInfo := rfl
@[simp] theorem startLzd_inp (c : Cmd) (s : State) : (startLzd c s).inp = s.inp := rfl
@[simp] theorem startLzd_img (c : Cmd) (s : State) : (startLzd c s).img = [] := rfl
@[simp] theorem startLzd_imgValid (c : Cmd) (s : State) : (startLzd c s).imgValid = 0 := rfl
@[simp] theorem startLzd_palRaw (c : Cmd) (s : State) : (startLzd c s).palRaw = s.palRaw := rfl
@[simp] theorem startLzd_palRawValid (c : Cmd) (s : State) : (startLzd c s).palRawValid = s.palRawValid := rfl
@[simp] theorem startLzd_palExp (c : Cmd) (s : State) : (startLzd c s).palExp = s.palExp := rfl
@[simp] theorem startLzd_palExpValid (c : Cmd) (s : State) : (startLzd c s).palExpValid = s.palExpValid := rfl
@[simp] theorem startLzd_out (c : Cmd) (s : State) : (startLzd c s).out = s.out := rfl
@[simp] theorem startLzd_outValid (c : Cmd) (s : State) : (startLzd c s).outValid = s.outValid := rfl
@[simp] theorem startLzd_turns (c : Cmd) (s : State) : (startLzd c s).turns = s.turns := rfl
@[simp] theorem startLzd_reply (c : Cmd) (s : State) : (startLzd c s).reply = s.reply := rfl
@[simp] theorem startLzd_draws (c : Cmd) (s : State) : (startLzd c s).draws = s.draws := rfl

/-! ### `startPex`: the start of PEX -/

@[simp] theorem startPex_params (s : State) : (startPex s).params = s.params := rfl
@[simp] theorem startPex_ip (s : State) : (startPex s).ip = s.ip := rfl
@[simp] theorem startPex_op (s : State) : (startPex s).op = s.op := rfl
@[simp] theorem startPex_endAt (s : State) : (startPex s).endAt = s.endAt := rfl
@[simp] theorem startPex_ctl (s : State) : (startPex s).ctl = s.ctl := rfl
@[simp] theorem startPex_nbits (s : State) : (startPex s).nbits = s.nbits := rfl
@[simp] theorem startPex_pidx (s : State) : (startPex s).pidx = 0 := rfl
@[simp] theorem startPex_fy (s : State) : (startPex s).fy = s.fy := rfl
@[simp] theorem startPex_fx (s : State) : (startPex s).fx = s.fx := rfl
@[simp] theorem startPex_wp (s : State) : (startPex s).wp = s.wp := rfl
@[simp] theorem startPex_run (s : State) : (startPex s).run = .busy := rfl
@[simp] theorem startPex_cmd (s : State) : (startPex s).cmd = s.cmd := rfl
@[simp] theorem startPex_unit (s : State) : (startPex s).unit = .pex := rfl
@[simp] theorem startPex_phase (s : State) : (startPex s).phase = s.phase := rfl
@[simp] theorem startPex_done (s : State) : (startPex s).done = s.done := rfl
@[simp] theorem startPex_inLen (s : State) : (startPex s).inLen = s.inLen := rfl
@[simp] theorem startPex_faultCause (s : State) : (startPex s).faultCause = s.faultCause := rfl
@[simp] theorem startPex_faultInfo (s : State) : (startPex s).faultInfo = s.faultInfo := rfl
@[simp] theorem startPex_inp (s : State) : (startPex s).inp = s.inp := rfl
@[simp] theorem startPex_img (s : State) : (startPex s).img = s.img := rfl
@[simp] theorem startPex_imgValid (s : State) : (startPex s).imgValid = s.imgValid := rfl
@[simp] theorem startPex_palRaw (s : State) : (startPex s).palRaw = s.palRaw := rfl
@[simp] theorem startPex_palRawValid (s : State) : (startPex s).palRawValid = s.palRawValid := rfl
@[simp] theorem startPex_palExp (s : State) : (startPex s).palExp = [] := rfl
@[simp] theorem startPex_palExpValid (s : State) : (startPex s).palExpValid = false := rfl
@[simp] theorem startPex_out (s : State) : (startPex s).out = s.out := rfl
@[simp] theorem startPex_outValid (s : State) : (startPex s).outValid = s.outValid := rfl
@[simp] theorem startPex_turns (s : State) : (startPex s).turns = s.turns := rfl
@[simp] theorem startPex_reply (s : State) : (startPex s).reply = s.reply := rfl
@[simp] theorem startPex_draws (s : State) : (startPex s).draws = s.draws := rfl

/-! ### `startFrc`: the start of FRC -/

@[simp] theorem startFrc_params (s : State) : (startFrc s).params = s.params := rfl
@[simp] theorem startFrc_ip (s : State) : (startFrc s).ip = s.ip := rfl
@[simp] theorem startFrc_op (s : State) : (startFrc s).op = s.op := rfl
@[simp] theorem startFrc_endAt (s : State) : (startFrc s).endAt = s.endAt := rfl
@[simp] theorem startFrc_ctl (s : State) : (startFrc s).ctl = s.ctl := rfl
@[simp] theorem startFrc_nbits (s : State) : (startFrc s).nbits = s.nbits := rfl
@[simp] theorem startFrc_pidx (s : State) : (startFrc s).pidx = s.pidx := rfl
@[simp] theorem startFrc_fy (s : State) : (startFrc s).fy = s.params.height - 1 := rfl
@[simp] theorem startFrc_fx (s : State) : (startFrc s).fx = 0 := rfl
@[simp] theorem startFrc_wp (s : State) : (startFrc s).wp = 0 := rfl
@[simp] theorem startFrc_run (s : State) : (startFrc s).run = .busy := rfl
@[simp] theorem startFrc_cmd (s : State) : (startFrc s).cmd = s.cmd := rfl
@[simp] theorem startFrc_unit (s : State) : (startFrc s).unit = .frc := rfl
@[simp] theorem startFrc_phase (s : State) : (startFrc s).phase = s.phase := rfl
@[simp] theorem startFrc_done (s : State) : (startFrc s).done = s.done := rfl
@[simp] theorem startFrc_inLen (s : State) : (startFrc s).inLen = s.inLen := rfl
@[simp] theorem startFrc_faultCause (s : State) : (startFrc s).faultCause = s.faultCause := rfl
@[simp] theorem startFrc_faultInfo (s : State) : (startFrc s).faultInfo = s.faultInfo := rfl
@[simp] theorem startFrc_inp (s : State) : (startFrc s).inp = s.inp := rfl
@[simp] theorem startFrc_img (s : State) : (startFrc s).img = s.img := rfl
@[simp] theorem startFrc_imgValid (s : State) : (startFrc s).imgValid = s.imgValid := rfl
@[simp] theorem startFrc_palRaw (s : State) : (startFrc s).palRaw = s.palRaw := rfl
@[simp] theorem startFrc_palRawValid (s : State) : (startFrc s).palRawValid = s.palRawValid := rfl
@[simp] theorem startFrc_palExp (s : State) : (startFrc s).palExp = s.palExp := rfl
@[simp] theorem startFrc_palExpValid (s : State) : (startFrc s).palExpValid = s.palExpValid := rfl
@[simp] theorem startFrc_out (s : State) : (startFrc s).out = [] := rfl
@[simp] theorem startFrc_outValid (s : State) : (startFrc s).outValid = false := rfl
@[simp] theorem startFrc_turns (s : State) : (startFrc s).turns = s.turns := rfl
@[simp] theorem startFrc_reply (s : State) : (startFrc s).reply = s.reply := rfl
@[simp] theorem startFrc_draws (s : State) : (startFrc s).draws = s.draws := rfl

/-! ### `accepted`: the acceptance of a command -/

@[simp] theorem accepted_params (c : Cmd) (s : State) : (accepted c s).params = s.params := rfl
@[simp] theorem accepted_ip (c : Cmd) (s : State) : (accepted c s).ip = s.ip := rfl
@[simp] theorem accepted_op (c : Cmd) (s : State) : (accepted c s).op = s.op := rfl
@[simp] theorem accepted_endAt (c : Cmd) (s : State) : (accepted c s).endAt = s.endAt := rfl
@[simp] theorem accepted_ctl (c : Cmd) (s : State) : (accepted c s).ctl = s.ctl := rfl
@[simp] theorem accepted_nbits (c : Cmd) (s : State) : (accepted c s).nbits = s.nbits := rfl
@[simp] theorem accepted_pidx (c : Cmd) (s : State) : (accepted c s).pidx = s.pidx := rfl
@[simp] theorem accepted_fy (c : Cmd) (s : State) : (accepted c s).fy = s.fy := rfl
@[simp] theorem accepted_fx (c : Cmd) (s : State) : (accepted c s).fx = s.fx := rfl
@[simp] theorem accepted_wp (c : Cmd) (s : State) : (accepted c s).wp = s.wp := rfl
@[simp] theorem accepted_run (c : Cmd) (s : State) : (accepted c s).run = s.run := rfl
@[simp] theorem accepted_cmd (c : Cmd) (s : State) : (accepted c s).cmd = c := rfl
@[simp] theorem accepted_unit (c : Cmd) (s : State) : (accepted c s).unit = s.unit := rfl
@[simp] theorem accepted_phase (c : Cmd) (s : State) : (accepted c s).phase = s.phase := rfl
@[simp] theorem accepted_done (c : Cmd) (s : State) : (accepted c s).done = false := rfl
@[simp] theorem accepted_inLen (c : Cmd) (s : State) : (accepted c s).inLen = s.inLen := rfl
@[simp] theorem accepted_faultCause (c : Cmd) (s : State) : (accepted c s).faultCause = s.faultCause := rfl
@[simp] theorem accepted_faultInfo (c : Cmd) (s : State) : (accepted c s).faultInfo = s.faultInfo := rfl
@[simp] theorem accepted_inp (c : Cmd) (s : State) : (accepted c s).inp = s.inp := rfl
@[simp] theorem accepted_img (c : Cmd) (s : State) : (accepted c s).img = s.img := rfl
@[simp] theorem accepted_imgValid (c : Cmd) (s : State) : (accepted c s).imgValid = s.imgValid := rfl
@[simp] theorem accepted_palRaw (c : Cmd) (s : State) : (accepted c s).palRaw = s.palRaw := rfl
@[simp] theorem accepted_palRawValid (c : Cmd) (s : State) : (accepted c s).palRawValid = s.palRawValid := rfl
@[simp] theorem accepted_palExp (c : Cmd) (s : State) : (accepted c s).palExp = s.palExp := rfl
@[simp] theorem accepted_palExpValid (c : Cmd) (s : State) : (accepted c s).palExpValid = s.palExpValid := rfl
@[simp] theorem accepted_out (c : Cmd) (s : State) : (accepted c s).out = s.out := rfl
@[simp] theorem accepted_outValid (c : Cmd) (s : State) : (accepted c s).outValid = s.outValid := rfl
@[simp] theorem accepted_turns (c : Cmd) (s : State) : (accepted c s).turns = s.turns := rfl
@[simp] theorem accepted_reply (c : Cmd) (s : State) : (accepted c s).reply = s.reply := rfl
@[simp] theorem accepted_draws (c : Cmd) (s : State) : (accepted c s).draws = s.draws := rfl

/-! ### `complete`: the end of a command -/

@[simp] theorem complete_params (s : State) : (complete s).params = s.params := rfl
@[simp] theorem complete_ip (s : State) : (complete s).ip = s.ip := rfl
@[simp] theorem complete_op (s : State) : (complete s).op = s.op := rfl
@[simp] theorem complete_endAt (s : State) : (complete s).endAt = s.endAt := rfl
@[simp] theorem complete_ctl (s : State) : (complete s).ctl = s.ctl := rfl
@[simp] theorem complete_nbits (s : State) : (complete s).nbits = s.nbits := rfl
@[simp] theorem complete_pidx (s : State) : (complete s).pidx = s.pidx := rfl
@[simp] theorem complete_fy (s : State) : (complete s).fy = s.fy := rfl
@[simp] theorem complete_fx (s : State) : (complete s).fx = s.fx := rfl
@[simp] theorem complete_wp (s : State) : (complete s).wp = s.wp := rfl
@[simp] theorem complete_run (s : State) : (complete s).run = .idle := rfl
@[simp] theorem complete_cmd (s : State) : (complete s).cmd = s.cmd := rfl
@[simp] theorem complete_unit (s : State) : (complete s).unit = s.unit := rfl
@[simp] theorem complete_phase (s : State) : (complete s).phase = s.phase := rfl
@[simp] theorem complete_done (s : State) : (complete s).done = true := rfl
@[simp] theorem complete_inLen (s : State) : (complete s).inLen = s.inLen := rfl
@[simp] theorem complete_faultCause (s : State) : (complete s).faultCause = s.faultCause := rfl
@[simp] theorem complete_faultInfo (s : State) : (complete s).faultInfo = s.faultInfo := rfl
@[simp] theorem complete_inp (s : State) : (complete s).inp = s.inp := rfl
@[simp] theorem complete_img (s : State) : (complete s).img = s.img := rfl
@[simp] theorem complete_imgValid (s : State) : (complete s).imgValid = s.imgValid := rfl
@[simp] theorem complete_palRaw (s : State) : (complete s).palRaw = s.palRaw := rfl
@[simp] theorem complete_palRawValid (s : State) : (complete s).palRawValid = s.palRawValid := rfl
@[simp] theorem complete_palExp (s : State) : (complete s).palExp = s.palExp := rfl
@[simp] theorem complete_palExpValid (s : State) : (complete s).palExpValid = s.palExpValid := rfl
@[simp] theorem complete_out (s : State) : (complete s).out = s.out := rfl
@[simp] theorem complete_outValid (s : State) : (complete s).outValid = s.outValid := rfl
@[simp] theorem complete_turns (s : State) : (complete s).turns = s.turns := rfl
@[simp] theorem complete_reply (s : State) : (complete s).reply = s.reply := rfl
@[simp] theorem complete_draws (s : State) : (complete s).draws = s.draws := rfl

/-! ### `markPalExp`: PFIN's mark -/

@[simp] theorem markPalExp_params (s : State) : (markPalExp s).params = s.params := rfl
@[simp] theorem markPalExp_ip (s : State) : (markPalExp s).ip = s.ip := rfl
@[simp] theorem markPalExp_op (s : State) : (markPalExp s).op = s.op := rfl
@[simp] theorem markPalExp_endAt (s : State) : (markPalExp s).endAt = s.endAt := rfl
@[simp] theorem markPalExp_ctl (s : State) : (markPalExp s).ctl = s.ctl := rfl
@[simp] theorem markPalExp_nbits (s : State) : (markPalExp s).nbits = s.nbits := rfl
@[simp] theorem markPalExp_pidx (s : State) : (markPalExp s).pidx = s.pidx := rfl
@[simp] theorem markPalExp_fy (s : State) : (markPalExp s).fy = s.fy := rfl
@[simp] theorem markPalExp_fx (s : State) : (markPalExp s).fx = s.fx := rfl
@[simp] theorem markPalExp_wp (s : State) : (markPalExp s).wp = s.wp := rfl
@[simp] theorem markPalExp_run (s : State) : (markPalExp s).run = s.run := rfl
@[simp] theorem markPalExp_cmd (s : State) : (markPalExp s).cmd = s.cmd := rfl
@[simp] theorem markPalExp_unit (s : State) : (markPalExp s).unit = s.unit := rfl
@[simp] theorem markPalExp_phase (s : State) : (markPalExp s).phase = s.phase := rfl
@[simp] theorem markPalExp_done (s : State) : (markPalExp s).done = s.done := rfl
@[simp] theorem markPalExp_inLen (s : State) : (markPalExp s).inLen = s.inLen := rfl
@[simp] theorem markPalExp_faultCause (s : State) : (markPalExp s).faultCause = s.faultCause := rfl
@[simp] theorem markPalExp_faultInfo (s : State) : (markPalExp s).faultInfo = s.faultInfo := rfl
@[simp] theorem markPalExp_inp (s : State) : (markPalExp s).inp = s.inp := rfl
@[simp] theorem markPalExp_img (s : State) : (markPalExp s).img = s.img := rfl
@[simp] theorem markPalExp_imgValid (s : State) : (markPalExp s).imgValid = s.imgValid := rfl
@[simp] theorem markPalExp_palRaw (s : State) : (markPalExp s).palRaw = s.palRaw := rfl
@[simp] theorem markPalExp_palRawValid (s : State) : (markPalExp s).palRawValid = s.palRawValid := rfl
@[simp] theorem markPalExp_palExp (s : State) : (markPalExp s).palExp = s.palExp := rfl
@[simp] theorem markPalExp_palExpValid (s : State) : (markPalExp s).palExpValid = true := rfl
@[simp] theorem markPalExp_out (s : State) : (markPalExp s).out = s.out := rfl
@[simp] theorem markPalExp_outValid (s : State) : (markPalExp s).outValid = s.outValid := rfl
@[simp] theorem markPalExp_turns (s : State) : (markPalExp s).turns = s.turns := rfl
@[simp] theorem markPalExp_reply (s : State) : (markPalExp s).reply = s.reply := rfl
@[simp] theorem markPalExp_draws (s : State) : (markPalExp s).draws = s.draws := rfl

/-! ### `afterPixel`: the end of a pixel -/

@[simp] theorem afterPixel_params (m : Cells 8) (s : State) : (afterPixel m s).params = s.params := rfl
@[simp] theorem afterPixel_ip (m : Cells 8) (s : State) : (afterPixel m s).ip = s.ip := rfl
@[simp] theorem afterPixel_op (m : Cells 8) (s : State) : (afterPixel m s).op = s.op := rfl
@[simp] theorem afterPixel_endAt (m : Cells 8) (s : State) : (afterPixel m s).endAt = s.endAt := rfl
@[simp] theorem afterPixel_ctl (m : Cells 8) (s : State) : (afterPixel m s).ctl = s.ctl := rfl
@[simp] theorem afterPixel_nbits (m : Cells 8) (s : State) : (afterPixel m s).nbits = s.nbits := rfl
@[simp] theorem afterPixel_pidx (m : Cells 8) (s : State) : (afterPixel m s).pidx = s.pidx := rfl
@[simp] theorem afterPixel_fy (m : Cells 8) (s : State) : (afterPixel m s).fy = (nextPixel s.params s.fx s.fy).2 := rfl
@[simp] theorem afterPixel_fx (m : Cells 8) (s : State) : (afterPixel m s).fx = (nextPixel s.params s.fx s.fy).1 := rfl
@[simp] theorem afterPixel_wp (m : Cells 8) (s : State) : (afterPixel m s).wp = s.wp + 3 := rfl
@[simp] theorem afterPixel_run (m : Cells 8) (s : State) : (afterPixel m s).run = s.run := rfl
@[simp] theorem afterPixel_cmd (m : Cells 8) (s : State) : (afterPixel m s).cmd = s.cmd := rfl
@[simp] theorem afterPixel_unit (m : Cells 8) (s : State) : (afterPixel m s).unit = s.unit := rfl
@[simp] theorem afterPixel_phase (m : Cells 8) (s : State) : (afterPixel m s).phase = s.phase := rfl
@[simp] theorem afterPixel_done (m : Cells 8) (s : State) : (afterPixel m s).done = s.done := rfl
@[simp] theorem afterPixel_inLen (m : Cells 8) (s : State) : (afterPixel m s).inLen = s.inLen := rfl
@[simp] theorem afterPixel_faultCause (m : Cells 8) (s : State) : (afterPixel m s).faultCause = s.faultCause := rfl
@[simp] theorem afterPixel_faultInfo (m : Cells 8) (s : State) : (afterPixel m s).faultInfo = s.faultInfo := rfl
@[simp] theorem afterPixel_inp (m : Cells 8) (s : State) : (afterPixel m s).inp = s.inp := rfl
@[simp] theorem afterPixel_img (m : Cells 8) (s : State) : (afterPixel m s).img = s.img := rfl
@[simp] theorem afterPixel_imgValid (m : Cells 8) (s : State) : (afterPixel m s).imgValid = s.imgValid := rfl
@[simp] theorem afterPixel_palRaw (m : Cells 8) (s : State) : (afterPixel m s).palRaw = s.palRaw := rfl
@[simp] theorem afterPixel_palRawValid (m : Cells 8) (s : State) : (afterPixel m s).palRawValid = s.palRawValid := rfl
@[simp] theorem afterPixel_palExp (m : Cells 8) (s : State) : (afterPixel m s).palExp = s.palExp := rfl
@[simp] theorem afterPixel_palExpValid (m : Cells 8) (s : State) : (afterPixel m s).palExpValid = s.palExpValid := rfl
@[simp] theorem afterPixel_out (m : Cells 8) (s : State) : (afterPixel m s).out = m := rfl
@[simp] theorem afterPixel_outValid (m : Cells 8) (s : State) : (afterPixel m s).outValid = s.outValid := rfl
@[simp] theorem afterPixel_turns (m : Cells 8) (s : State) : (afterPixel m s).turns = s.turns := rfl
@[simp] theorem afterPixel_reply (m : Cells 8) (s : State) : (afterPixel m s).reply = s.reply := rfl
@[simp] theorem afterPixel_draws (m : Cells 8) (s : State) : (afterPixel m s).draws = s.draws := rfl

end Sys2Proof.Machine
end

