-- ==== Sys2Proof/Laws/Ops.lean ====
section
/-! SUPPORT. One lemma for each shared operation, and one for each meaning, that says everything it can do. A proof
about a step cites these and does not unfold the operation. -/

namespace Sys2Proof.Machine

open Sys2Proof.Safety

/-! ### Dispatch -/

theorem select_busy {s : State} {k : Kind} (h : select s = some k) : s.run = .busy := by
  unfold select at h
  split at h
  · simp at h
  · simp at h
  · assumption

theorem select_eq {s : State} (h : s.run = .busy) :
    select s = match s.unit with
      | .lzd => selectLzd s
      | .pex => selectPex s
      | .frc => selectFrc s := by
  unfold select
  split
  · simp_all
  · simp_all
  · cases s.unit <;> rfl

/-- The conditions of the LZD's steps (R111). -/
theorem selectLzd_eq_some {s : State} {k : Kind} :
    selectLzd s = some k ↔
      (s.phase = .hdr ∧ k = .hdr) ∨
      (s.phase = .tok ∧
        ((s.op = s.endAt ∧ k = .fin) ∨
        (s.op < s.endAt ∧ s.nbits = 0 ∧ k = .ctl) ∨
        (s.op < s.endAt ∧ 0 < s.nbits ∧ tokenFlag s = false ∧ k = .lit) ∨
        (s.op < s.endAt ∧ 0 < s.nbits ∧ tokenFlag s = true ∧ k = .ref))) := by
  unfold selectLzd
  cases hp : s.phase with
  | hdr => simp [eq_comm (b := k)]
  | tok =>
    rcases Nat.lt_trichotomy s.op s.endAt with h | h | h
    · have h1 : ¬ s.op = s.endAt := by omega
      have h2 : ¬ s.endAt < s.op := by omega
      by_cases hn : s.nbits = 0
      · simp [h1, h2, hn, h, eq_comm (b := k)]
      · have hn' : 0 < s.nbits := by omega
        cases ht : tokenFlag s <;> simp [h1, h2, hn, h, hn', eq_comm (b := k)]
    · simp [h, eq_comm (b := k)]
    · have h1 : ¬ s.op = s.endAt := by omega
      have h2 : ¬ s.op < s.endAt := by omega
      simp [h1, h, h2]

theorem selectPex_eq_some {s : State} {k : Kind} :
    selectPex s = some k ↔ (s.pidx < palSize ∧ k = .pexp) ∨ (s.pidx = palSize ∧ k = .pfin) := by
  unfold selectPex
  split
  · next h => have : s.pidx ≠ palSize := by omega
              simp [h, this, eq_comm (b := k)]
  · next h =>
    split
    · next h' => simp [h', eq_comm (b := k)]
    · next h' => simp [h, h']

theorem selectFrc_eq_some {s : State} {k : Kind} :
    selectFrc s = some k ↔
      (s.wp < s.params.outLen ∧ k = .pix) ∨ (s.wp = s.params.outLen ∧ k = .rfin) := by
  unfold selectFrc
  split
  · next h => have : s.wp ≠ s.params.outLen := by omega
              simp [h, this, eq_comm (b := k)]
  · next h =>
    split
    · next h' => simp [h', eq_comm (b := k)]
    · next h' => simp [h, h']

/-- Which unit a selected step belongs to, and its condition. -/
theorem select_eq_some {s : State} {k : Kind} :
    select s = some k ↔ s.run = .busy ∧
      ((s.unit = .lzd ∧ selectLzd s = some k) ∨ (s.unit = .pex ∧ selectPex s = some k) ∨
        (s.unit = .frc ∧ selectFrc s = some k)) := by
  constructor
  · intro h
    have hb := select_busy h
    rw [select_eq hb] at h
    refine ⟨hb, ?_⟩
    cases hu : s.unit <;> simp_all
  · rintro ⟨hb, h⟩
    rw [select_eq hb]
    rcases h with ⟨hu, h⟩ | ⟨hu, h⟩ | ⟨hu, h⟩ <;> simp [hu, h]

/-- The condition of HDR (R112). -/
theorem select_hdr {s : State} :
    select s = some .hdr ↔ s.run = .busy ∧ s.unit = .lzd ∧ s.phase = .hdr := by
  simp [select_eq_some, selectLzd_eq_some, selectPex_eq_some, selectFrc_eq_some]

/-- The condition of CTL (R114). -/
theorem select_ctl {s : State} :
    select s = some .ctl ↔
      s.run = .busy ∧ s.unit = .lzd ∧ s.phase = .tok ∧ s.op < s.endAt ∧ s.nbits = 0 := by
  simp [select_eq_some, selectLzd_eq_some, selectPex_eq_some, selectFrc_eq_some]

/-- The condition of LIT (R116). -/
theorem select_lit {s : State} :
    select s = some .lit ↔
      s.run = .busy ∧ s.unit = .lzd ∧ s.phase = .tok ∧ s.op < s.endAt ∧ 0 < s.nbits ∧ tokenFlag s = false := by
  simp [select_eq_some, selectLzd_eq_some, selectPex_eq_some, selectFrc_eq_some]

/-- The condition of REF (R118). -/
theorem select_ref {s : State} :
    select s = some .ref ↔
      s.run = .busy ∧ s.unit = .lzd ∧ s.phase = .tok ∧ s.op < s.endAt ∧ 0 < s.nbits ∧ tokenFlag s = true := by
  simp [select_eq_some, selectLzd_eq_some, selectPex_eq_some, selectFrc_eq_some]

/-- The condition of FIN (R122). -/
theorem select_fin {s : State} :
    select s = some .fin ↔ s.run = .busy ∧ s.unit = .lzd ∧ s.phase = .tok ∧ s.op = s.endAt := by
  simp [select_eq_some, selectLzd_eq_some, selectPex_eq_some, selectFrc_eq_some]

/-- The condition of PEXP (R145). -/
theorem select_pexp {s : State} :
    select s = some .pexp ↔ s.run = .busy ∧ s.unit = .pex ∧ s.pidx < palSize := by
  simp [select_eq_some, selectLzd_eq_some, selectPex_eq_some, selectFrc_eq_some]

/-- The condition of PFIN (R147). -/
theorem select_pfin {s : State} :
    select s = some .pfin ↔ s.run = .busy ∧ s.unit = .pex ∧ s.pidx = palSize := by
  simp [select_eq_some, selectLzd_eq_some, selectPex_eq_some, selectFrc_eq_some]

/-- The condition of PIX (R158). -/
theorem select_pix {s : State} :
    select s = some .pix ↔ s.run = .busy ∧ s.unit = .frc ∧ s.wp < s.params.outLen := by
  simp [select_eq_some, selectLzd_eq_some, selectPex_eq_some, selectFrc_eq_some]

/-- The condition of RFIN (R159). -/
theorem select_rfin {s : State} :
    select s = some .rfin ↔ s.run = .busy ∧ s.unit = .frc ∧ s.wp = s.params.outLen := by
  simp [select_eq_some, selectLzd_eq_some, selectPex_eq_some, selectFrc_eq_some]

/-- No state of the block selects a command: commands come from the host (R100). -/
theorem select_ne_cmd (s : State) : select s ≠ some .cmd := by
  simp [select_eq_some, selectLzd_eq_some, selectPex_eq_some, selectFrc_eq_some]

/-! ### The shared operations -/

theorem whenEnabled_next {k : Kind} {s t : State} {body : Out} (h : whenEnabled k s body = .next t) :
    select s = some k ∧ body = .next t := by
  unfold whenEnabled at h
  split at h
  · exact ⟨by assumption, h⟩
  · simp at h

theorem whenEnabled_of {k : Kind} {s : State} {body : Out} (h : select s = some k) :
    whenEnabled k s body = body := if_pos h

theorem whenEnabled_not {k : Kind} {s : State} {body : Out} (h : select s ≠ some k) :
    whenEnabled k s body = .refused (.notEnabled k) := if_neg h

theorem withInput_next {n : Nat} {s t : State} {body : Out} (h : withInput n s body = .next t) :
    (s.inLen < s.ip + n ∧ t = raiseFault .inputUnderrun s.ip s) ∨ (s.ip + n ≤ s.inLen ∧ body = .next t) := by
  unfold withInput at h
  split at h
  · next hlt =>
    refine .inl ⟨hlt, ?_⟩
    injection h with h
    exact h.symm
  · next hlt => exact .inr ⟨Nat.not_lt.1 hlt, h⟩

theorem withInput_of {n : Nat} {s : State} {body : Out} (h : s.ip + n ≤ s.inLen) :
    withInput n s body = body := if_neg (Nat.not_lt.2 h)

theorem withInput_underrun {n : Nat} {s : State} {body : Out} (h : s.inLen < s.ip + n) :
    withInput n s body = .next (raiseFault .inputUnderrun s.ip s) := if_pos h

/-- A free fault code is one of the nine (R40, R190). -/
theorem freeFaultCode_range (n : Nat) :
    Config.freeFaultCode n ≠ 0 ∧ Config.freeFaultCode n ≤ 9 := by
  have hlt : Config.faultCodeDraw n % 9 < 9 := Nat.mod_lt _ (by decide)
  have htoNat : (Config.freeFaultCode n).toNat = Config.faultCodeDraw n % 9 + 1 := by
    unfold Config.freeFaultCode
    rw [BitVec.toNat_ofNat, Nat.mod_eq_of_lt (by omega)]
  constructor
  · intro h
    rw [h] at htoNat
    simp at htoNat
  · rw [BitVec.le_def, htoNat]
    show _ ≤ 9
    omega

/-- The two faults of a read that found no value (R13): a named one for `IN`, an unnamed one for the rest. -/
theorem raiseNoValue_cases (sp : Space) (s : State) :
    (sp = .inp ∧ raiseNoValue sp s = raiseFault .inputUnderrun s.ip s) ∨
      (sp ≠ .inp ∧ raiseNoValue sp s = raiseUnnamed s) := by
  cases sp <;> simp [raiseNoValue]

/-- A step whose access gave no result goes on only when the unit held no value, to the fault of R13. -/
theorem missed_next {m : Miss} {s t : State} (h : missed m s = .next t) :
    ∃ sp a, m = .noValue sp a ∧ t = raiseNoValue sp s := by
  unfold missed at h
  split at h
  · next sp a => exact ⟨sp, a, rfl, by injection h with h; exact h.symm⟩
  · simp at h

/-- The check of the PALX start passes exactly when the raw palette is loaded (R173). -/
theorem pexCheck_cases (s : State) :
    (s.palRawValid = true ∧ pexCheck s = none) ∨
      (s.palRawValid = false ∧ pexCheck s = some (.paletteNotLoaded, 0)) := by
  unfold pexCheck
  cases s.palRawValid <;> simp

/-- The checks of the RECON start, in order (R174, R202). -/
theorem frcCheck_cases (s : State) :
    (s.imgValid = s.params.npix ∧ s.palExpValid = true ∧ frcCheck s = none) ∨
      (s.imgValid ≠ s.params.npix ∧ frcCheck s = some (.imageIncomplete, s.imgValid)) ∨
      (s.imgValid = s.params.npix ∧ s.palExpValid = false ∧ frcCheck s = some (.paletteNotExpanded, 0)) := by
  unfold frcCheck
  by_cases h : s.imgValid = s.params.npix
  · cases s.palExpValid <;> simp [h]
  · simp [h]

theorem startChecked_none (started s : State) : startChecked none started s = started := rfl

theorem startChecked_some (c : Cause) (n : Nat) (started s : State) :
    startChecked (some (c, n)) started s = raiseFault c n s := rfl

/-- What a command write does in each state of the block (R171, R177). -/
theorem commandWrite_cases (c : Cmd) (onIdle s : State) :
    (s.run = .idle ∧ commandWrite c onIdle s = onIdle) ∨
      (s.run = .busy ∧ commandWrite c onIdle s = raiseFault .hostProtocol c.code.toNat s) ∨
      (s.run = .fault ∧ commandWrite c onIdle s = s) := by
  unfold commandWrite
  cases s.run <;> simp

/-! ### The meanings: everything each can do when it answers a next state -/

theorem execHdr_next {d : BitVec 24} {g : Byte} {s t : State} (h : execHdr d g s = .next t) :
    select s = some .hdr ∧
      ((s.inLen < s.ip + 4 ∧ t = raiseFault .inputUnderrun s.ip s) ∨
        (s.ip + 4 ≤ s.inLen ∧ s.params.imgCap < d.toNat ∧
          t = raiseFault .lengthExceedsCapacity d.toNat s) ∨
        (s.ip + 4 ≤ s.inLen ∧ d.toNat ≤ s.params.imgCap ∧
          t = { s with endAt := d.toNat, op := 0, ctl := 0, nbits := 0, ip := s.ip + 4, phase := .tok })) := by
  obtain ⟨he, h⟩ := whenEnabled_next h
  refine ⟨he, ?_⟩
  rcases withInput_next h with h | ⟨hi, h⟩
  · exact .inl h
  · split at h
    · next hc => exact .inr (.inl ⟨hi, hc, by injection h with h; exact h.symm⟩)
    · next hc => exact .inr (.inr ⟨hi, Nat.not_lt.1 hc, by injection h with h; exact h.symm⟩)

theorem execCtl_next {c : Byte} {s t : State} (h : execCtl c s = .next t) :
    select s = some .ctl ∧
      ((s.inLen < s.ip + 1 ∧ t = raiseFault .inputUnderrun s.ip s) ∨
        (s.ip + 1 ≤ s.inLen ∧ t = { s with ctl := c, nbits := 8, ip := s.ip + 1 })) := by
  obtain ⟨he, h⟩ := whenEnabled_next h
  refine ⟨he, ?_⟩
  rcases withInput_next h with h | ⟨hi, h⟩
  · exact .inl h
  · exact .inr ⟨hi, by injection h with h; exact h.symm⟩

theorem execLit_next {v : Byte} {s t : State} (h : execLit v s = .next t) :
    select s = some .lit ∧
      ((s.inLen < s.ip + 1 ∧ t = raiseFault .inputUnderrun s.ip s) ∨
        (s.ip + 1 ≤ s.inLen ∧ s.op < s.params.imgCap ∧ t = afterToken 1 1 (putUnit s.img s.op v) s)) := by
  obtain ⟨he, h⟩ := whenEnabled_next h
  refine ⟨he, ?_⟩
  rcases withInput_next h with h | ⟨hi, h⟩
  · exact .inl h
  · split at h
    · next e he =>
      obtain ⟨-, rfl⟩ := writeUnit_error_iff.1 he
      simp [missed] at h
    · next m hm =>
      obtain ⟨hc, rfl⟩ := writeUnit_ok_iff.1 hm
      exact .inr ⟨hi, hc, by injection h with h; exact h.symm⟩

theorem execRef_next {d l : Nat} {s t : State} (h : execRef d l s = .next t) :
    select s = some .ref ∧
      ((s.inLen < s.ip + 2 ∧ t = raiseFault .inputUnderrun s.ip s) ∨
        (s.ip + 2 ≤ s.inLen ∧ s.op < d ∧ t = raiseFault .distanceBeforeStart s.ip s) ∨
        (s.ip + 2 ≤ s.inLen ∧ d ≤ s.op ∧ s.endAt < s.op + l ∧ t = raiseFault .copyOverrun s.ip s) ∨
        (s.ip + 2 ≤ s.inLen ∧ d ≤ s.op ∧ s.op + l ≤ s.endAt ∧
          ((∃ m, copyLoop s.params.imgCap s.img (s.op - d) s.op l = .ok m ∧ t = afterToken l 2 m s) ∨
            ∃ a, copyLoop s.params.imgCap s.img (s.op - d) s.op l = .error (.noValue .img a) ∧
              s.op - d ≤ a ∧ a < s.op - d + l ∧ unitAt s.img a = none ∧ t = raiseUnnamed s))) := by
  obtain ⟨he, h⟩ := whenEnabled_next h
  refine ⟨he, ?_⟩
  rcases withInput_next h with h | ⟨hi, h⟩
  · exact .inl h
  · split at h
    · next hd => exact .inr (.inl ⟨hi, hd, by injection h with h; exact h.symm⟩)
    · next hd =>
      split at h
      · next hl => exact .inr (.inr (.inl ⟨hi, Nat.not_lt.1 hd, hl, by injection h with h; exact h.symm⟩))
      · next hl =>
        refine .inr (.inr (.inr ⟨hi, Nat.not_lt.1 hd, Nat.not_lt.1 hl, ?_⟩))
        split at h
        · next e he =>
          obtain ⟨sp, a, rfl, rfl⟩ := missed_next h
          obtain ⟨b, ⟨hb, -, h1, h2, h3⟩ | ⟨hb, -⟩⟩ := copyLoop_error he
          · cases hb
            exact .inr ⟨a, he, h1, h2, h3, rfl⟩
          · cases hb
        · next m hm => exact .inl ⟨m, hm, by injection h with h; exact h.symm⟩

theorem execFin_next {s t : State} (h : execFin s = .next t) :
    select s = some .fin ∧
      ((s.cmd = .decomp ∧ t = complete s) ∨
        (s.cmd = .frame ∧ s.palRawValid = true ∧ t = startPex s) ∨
        (s.cmd = .frame ∧ s.palRawValid = false ∧ t = raiseFault .paletteNotLoaded 0 s)) := by
  obtain ⟨he, h⟩ := whenEnabled_next h
  refine ⟨he, ?_⟩
  cases hc : s.cmd <;> simp only [hc] at h
  · exact .inl ⟨rfl, by injection h with h; exact h.symm⟩
  · simp at h
  · simp at h
  · injection h with h
    rcases pexCheck_cases s with ⟨hp, hk⟩ | ⟨hp, hk⟩
    · rw [hk, startChecked_none] at h
      exact .inr (.inl ⟨rfl, hp, h.symm⟩)
    · rw [hk, startChecked_some] at h
      exact .inr (.inr ⟨rfl, hp, h.symm⟩)

theorem execPexp_next {v : RawEntry} {s t : State} (h : execPexp v s = .next t) :
    select s = some .pexp ∧ s.pidx < palSize ∧
      t = { s with palExp := putUnit s.palExp s.pidx (expand s.params.layout v), pidx := s.pidx + 1 } := by
  obtain ⟨he, h⟩ := whenEnabled_next h
  split at h
  · next e hm =>
    obtain ⟨-, rfl⟩ := writeUnit_error_iff.1 hm
    simp [missed] at h
  · next m hm =>
    obtain ⟨hc, rfl⟩ := writeUnit_ok_iff.1 hm
    exact ⟨he, hc, by injection h with h; exact h.symm⟩

theorem execPfin_next {s t : State} (h : execPfin s = .next t) :
    select s = some .pfin ∧
      ((s.cmd = .palx ∧ t = complete (markPalExp s)) ∨
        (s.cmd = .frame ∧ s.imgValid = s.params.npix ∧ t = startFrc (markPalExp s)) ∨
        (s.cmd = .frame ∧ s.imgValid ≠ s.params.npix ∧
          t = raiseFault .imageIncomplete s.imgValid (markPalExp s))) := by
  obtain ⟨he, h⟩ := whenEnabled_next h
  refine ⟨he, ?_⟩
  cases hc : s.cmd <;> simp only [hc] at h
  · simp at h
  · exact .inl ⟨rfl, by injection h with h; exact h.symm⟩
  · simp at h
  · injection h with h
    rcases frcCheck_cases (markPalExp s) with ⟨hi, -, hk⟩ | ⟨hi, hk⟩ | ⟨-, hp, -⟩
    · rw [hk, startChecked_none] at h
      exact .inr (.inl ⟨rfl, hi, h.symm⟩)
    · rw [hk, startChecked_some] at h
      exact .inr (.inr ⟨rfl, hi, h.symm⟩)
    · simp at hp

theorem execPix_next {k : Byte} {s t : State} (h : execPix k s = .next t) :
    select s = some .pix ∧
      ((∃ c m, unitAt s.palExp k.toNat = some c ∧
          writeRun .out s.params.outLen s.out s.wp (pixelBytes c) = .ok m ∧ t = afterPixel m s) ∨
        (unitAt s.palExp k.toNat = none ∧ t = raiseUnnamed s)) := by
  obtain ⟨he, h⟩ := whenEnabled_next h
  refine ⟨he, ?_⟩
  split at h
  · next e hc =>
    obtain ⟨sp, a, rfl, rfl⟩ := missed_next h
    obtain ⟨-, hn, hm⟩ | ⟨-, hm⟩ := readUnit_error_iff.1 hc <;> cases hm
    exact .inr ⟨hn, rfl⟩
  · next c hc =>
    split at h
    · next e hm =>
      obtain ⟨sp, a, rfl, -⟩ := missed_next h
      obtain ⟨b, -, -, -, hm⟩ := writeRun_error hm
      cases hm
    · next m hm =>
      exact .inl ⟨c, m, (readUnit_ok_iff.1 hc).2, hm, by injection h with h; exact h.symm⟩

theorem execRfin_next {s t : State} (h : execRfin s = .next t) :
    select s = some .rfin ∧ (s.cmd = .recon ∨ s.cmd = .frame) ∧ t = complete { s with outValid := true } := by
  obtain ⟨he, h⟩ := whenEnabled_next h
  refine ⟨he, ?_⟩
  cases hc : s.cmd <;> simp only [hc] at h
  · simp at h
  · simp at h
  · exact ⟨.inl rfl, by injection h with h; exact h.symm⟩
  · exact ⟨.inr rfl, by injection h with h; exact h.symm⟩

theorem execDecomp_next {s t : State} (h : execDecomp s = .next t) :
    (s.run = .idle ∧ t = startLzd .decomp s) ∨ (s.run = .busy ∧ t = raiseFault .hostProtocol 1 s) ∨
      (s.run = .fault ∧ t = s) := by
  injection h with h
  subst h
  exact commandWrite_cases .decomp _ s

theorem execPalx_next {s t : State} (h : execPalx s = .next t) :
    (s.run = .idle ∧ s.palRawValid = true ∧ t = startPex (accepted .palx s)) ∨
      (s.run = .idle ∧ s.palRawValid = false ∧ t = raiseFault .paletteNotLoaded 0 s) ∨
      (s.run = .busy ∧ t = raiseFault .hostProtocol 2 s) ∨ (s.run = .fault ∧ t = s) := by
  injection h with h
  subst h
  rcases commandWrite_cases .palx (startChecked (pexCheck s) (startPex (accepted .palx s)) s) s with
    ⟨hr, h⟩ | h | h
  · rw [h]
    rcases pexCheck_cases s with ⟨hp, hk⟩ | ⟨hp, hk⟩ <;> rw [hk]
    · exact .inl ⟨hr, hp, rfl⟩
    · exact .inr (.inl ⟨hr, hp, rfl⟩)
  · exact .inr (.inr (.inl h))
  · exact .inr (.inr (.inr h))

theorem execRecon_next {s t : State} (h : execRecon s = .next t) :
    (s.run = .idle ∧ s.imgValid = s.params.npix ∧ s.palExpValid = true ∧ t = startFrc (accepted .recon s)) ∨
      (s.run = .idle ∧ s.imgValid ≠ s.params.npix ∧ t = raiseFault .imageIncomplete s.imgValid s) ∨
      (s.run = .idle ∧ s.imgValid = s.params.npix ∧ s.palExpValid = false ∧
        t = raiseFault .paletteNotExpanded 0 s) ∨
      (s.run = .busy ∧ t = raiseFault .hostProtocol 3 s) ∨ (s.run = .fault ∧ t = s) := by
  injection h with h
  subst h
  rcases commandWrite_cases .recon (startChecked (frcCheck s) (startFrc (accepted .recon s)) s) s with
    ⟨hr, h⟩ | h | h
  · rw [h]
    rcases frcCheck_cases s with ⟨hi, hp, hk⟩ | ⟨hi, hk⟩ | ⟨hi, hp, hk⟩ <;> rw [hk]
    · exact .inl ⟨hr, hi, hp, rfl⟩
    · exact .inr (.inl ⟨hr, hi, rfl⟩)
    · exact .inr (.inr (.inl ⟨hr, hi, hp, rfl⟩))
  · exact .inr (.inr (.inr (.inl h)))
  · exact .inr (.inr (.inr (.inr h)))

theorem execFrame_next {s t : State} (h : execFrame s = .next t) :
    (s.run = .idle ∧ t = startLzd .frame s) ∨ (s.run = .busy ∧ t = raiseFault .hostProtocol 4 s) ∨
      (s.run = .fault ∧ t = s) := by
  injection h with h
  subst h
  exact commandWrite_cases .frame _ s

/-! ### The block's step and the host's moves -/

/-- When the block's step answers a next state, it has no step to take, or it took the selected one. -/
theorem blockStep_next {s t : State} (h : blockStep s = .next t) :
    (s.run ≠ .busy ∧ t = s) ∨ ∃ k, select s = some k ∧ runItem k s = .next t := by
  unfold blockStep at h
  split at h
  · next hr => exact .inl ⟨by simp [hr], by injection h with h; exact h.symm⟩
  · next hr => exact .inl ⟨by simp [hr], by injection h with h; exact h.symm⟩
  · split at h
    · simp at h
    · next k hk => exact .inr ⟨k, hk, h⟩

/-- When a selected step answers a next state, its item was not whole or held no value, or it ran the instruction it
decoded. -/
theorem runItem_next {k : Kind} {s t : State} (h : runItem k s = .next t) :
    (fetch k s = .underrun ∧ t = raiseFault .inputUnderrun s.ip s) ∨
      (∃ sp a, fetch k s = .miss (.noValue sp a) ∧ t = raiseNoValue sp s) ∨
      ∃ bs i rest, fetch k s = .item bs ∧ decode k bs = .ok (i, rest) ∧ exec i s = .next t := by
  unfold runItem at h
  split at h
  · next hf => exact .inl ⟨hf, by injection h with h; exact h.symm⟩
  · next m hf =>
    obtain ⟨sp, a, rfl, rfl⟩ := missed_next h
    exact .inr (.inl ⟨sp, a, hf, rfl⟩)
  · next bs hf =>
    split at h
    · next i rest hd => exact .inr (.inr ⟨bs, i, rest, hf, hd, h⟩)
    · simp at h

/-- A decoded instruction is of the kind asked for. -/
theorem decode_kind {k : Kind} {bs rest : List Byte} {i : Instr} (h : decode k bs = .ok (i, rest)) :
    i.kind = k := by
  unfold decode at h
  split at h
  case h_16 b r =>
    split at h
    · next j hj =>
      obtain ⟨rfl, -⟩ : j = i ∧ r = rest := by simpa using h
      unfold commandOf at hj
      repeat' split at hj
      all_goals first
        | (obtain rfl : _ = j := by simpa using hj
           rfl)
        | simp at hj
    · simp at h
  all_goals first
    | (injection h with h
       injection h with h1 h2
       subst h1
       rfl)
    | simp at h

theorem hostWrite_next {n : Nat} {body : Out} {s t : State} (h : hostWrite n body s = .next t) :
    (s.run = .idle ∧ body = .next t) ∨ (s.run = .busy ∧ t = raiseFault .hostProtocol n s) ∨
      (s.run = .fault ∧ t = s) := by
  unfold hostWrite at h
  split at h
  · next hr => exact .inl ⟨hr, h⟩
  · next hr => exact .inr (.inl ⟨hr, by injection h with h; exact h.symm⟩)
  · next hr => exact .inr (.inr ⟨hr, by injection h with h; exact h.symm⟩)

/-- A write of a 3-bit code to `CMD` names a command or none (R90, R96). -/
theorem decode_cmd_code (c : BitVec 3) :
    (c = 1 ∧ decode .cmd [c.setWidth 8] = .ok (.decomp, [])) ∨
      (c = 2 ∧ decode .cmd [c.setWidth 8] = .ok (.palx, [])) ∨
      (c = 3 ∧ decode .cmd [c.setWidth 8] = .ok (.recon, [])) ∨
      (c = 4 ∧ decode .cmd [c.setWidth 8] = .ok (.frame, [])) ∨
      ((c = 0 ∨ c = 5 ∨ c = 6 ∨ c = 7) ∧
        decode .cmd [c.setWidth 8] = .error (.noSuchCommand (c.setWidth 8))) := by
  have h : ∀ n : Fin 8,
      ((BitVec.ofFin n : BitVec 3) = 1 ∧ commandOf ((BitVec.ofFin n : BitVec 3).setWidth 8) = some .decomp) ∨
      ((BitVec.ofFin n : BitVec 3) = 2 ∧ commandOf ((BitVec.ofFin n : BitVec 3).setWidth 8) = some .palx) ∨
      ((BitVec.ofFin n : BitVec 3) = 3 ∧ commandOf ((BitVec.ofFin n : BitVec 3).setWidth 8) = some .recon) ∨
      ((BitVec.ofFin n : BitVec 3) = 4 ∧ commandOf ((BitVec.ofFin n : BitVec 3).setWidth 8) = some .frame) ∨
      (((BitVec.ofFin n : BitVec 3) = 0 ∨ (BitVec.ofFin n : BitVec 3) = 5 ∨ (BitVec.ofFin n : BitVec 3) = 6 ∨
        (BitVec.ofFin n : BitVec 3) = 7) ∧ commandOf ((BitVec.ofFin n : BitVec 3).setWidth 8) = none) := by
    decide
  have hc := h c.toFin
  rw [show BitVec.ofFin c.toFin = c from rfl] at hc
  unfold decode
  rcases hc with ⟨h1, h2⟩ | ⟨h1, h2⟩ | ⟨h1, h2⟩ | ⟨h1, h2⟩ | ⟨h1, h2⟩ <;> simp only [h2]
  · exact .inl ⟨h1, trivial⟩
  · exact .inr (.inl ⟨h1, trivial⟩)
  · exact .inr (.inr (.inl ⟨h1, trivial⟩))
  · exact .inr (.inr (.inr (.inl ⟨h1, trivial⟩)))
  · exact .inr (.inr (.inr (.inr ⟨h1, trivial⟩)))

/-- A host's read of a unit that gives no result is no move. -/
theorem hostMissed_ne_next (m : Miss) (t : State) : hostMissed m ≠ .next t := by
  cases m <;> simp [hostMissed]

/-- Everything a fetch from `IN` can give (R56, R57). -/
theorem fetchStream_cases (n : Nat) (s : State) :
    (s.inLen < s.ip + n ∧ fetchStream n s = .underrun) ∨
      (s.ip + n ≤ s.inLen ∧
        ((∃ bs, fetchStream n s = .item bs ∧ bs.length = n ∧
            ∀ i, i < n → s.ip + i < s.params.inCap ∧ unitAt s.inp (s.ip + i) = bs[i]?) ∨
          ∃ a, s.ip ≤ a ∧ a < s.ip + n ∧
            ((a < s.params.inCap ∧ unitAt s.inp a = none ∧ fetchStream n s = .miss (.noValue .inp a)) ∨
              (s.params.inCap ≤ a ∧ fetchStream n s = .miss (.outside .inp a))))) := by
  unfold fetchStream
  by_cases hl : s.inLen < s.ip + n
  · exact .inl ⟨hl, if_pos hl⟩
  rw [if_neg hl]
  refine .inr ⟨Nat.not_lt.1 hl, ?_⟩
  cases hr : readRun .inp s.params.inCap s.inp s.ip n with
  | ok bs => exact .inl ⟨bs, rfl, readRun_ok_iff.1 hr⟩
  | error f =>
    obtain ⟨a, h1, h2, ⟨h3, h4, rfl⟩ | ⟨h3, rfl⟩⟩ := readRun_error hr
    · exact .inr ⟨a, h1, h2, .inl ⟨h3, h4, rfl⟩⟩
    · exact .inr ⟨a, h1, h2, .inr ⟨h3, rfl⟩⟩

/-- The fetch of a palette entry that holds a value (R145). -/
theorem fetchEntry_of {s : State} {v : RawEntry} (hi : s.pidx < palSize) (hv : unitAt s.palRaw s.pidx = some v) :
    fetchEntry s = .item [v.extractLsb' 0 8, v.extractLsb' 8 8] := by
  unfold fetchEntry
  rw [readUnit_ok_iff.2 ⟨hi, hv⟩]

/-- The fetch of a pixel that holds a value (R158). -/
theorem fetchPixel_of {s : State} {k : Byte} (hi : pixelIndex s.params s.fx s.fy < s.params.imgCap)
    (hv : unitAt s.img (pixelIndex s.params s.fx s.fy) = some k) : fetchPixel s = .item [k] := by
  unfold fetchPixel
  rw [readUnit_ok_iff.2 ⟨hi, hv⟩]

/-- A whole item that decodes runs as its instruction. -/
theorem runItem_of {k : Kind} {s : State} {bs rest : List Byte} {i : Instr} (hf : fetch k s = .item bs)
    (hd : decode k bs = .ok (i, rest)) : runItem k s = exec i s := by
  unfold runItem
  rw [hf]
  simp only
  rw [hd]

/-- A running block takes the step that is selected. -/
theorem blockStep_of {k : Kind} {s : State} (h : select s = some k) : blockStep s = runItem k s := by
  unfold blockStep
  rw [select_busy h, h]

/-- Whose turn a step takes. -/
theorem step_eq (s : State) :
    step s = match s.turns with
      | [] => blockStep s
      | .block :: rest => blockStep { s with turns := rest }
      | .await :: rest => if s.run = .busy then blockStep s else .next { s with turns := rest }
      | .host m :: rest => hostStep m { s with turns := rest } := rfl

end Sys2Proof.Machine
end

