-- ==== Sys2Proof/Laws/PerInstr.lean ====
section
/-! SUPPORT. Statements made for each constructor of `Instr`. -/

namespace Sys2Proof.Laws

/-- How many bytes an item takes (R81): 4, 1, 1 and 2 in the stream, 2 for a palette entry, 1 for a pixel index and
for a command code, none for a final step. -/
def itemBytes : Kind → Nat
  | .hdr => 4
  | .ctl => 1
  | .lit => 1
  | .ref => 2
  | .fin => 0
  | .pexp => 2
  | .pfin => 0
  | .pix => 1
  | .rfin => 0
  | .cmd => 1

/-- The encoding of the instruction has the length of its format (R81). -/
def EncodedLength.Statement (i : Instr) : Prop := (encode i).length = itemBytes i.kind

namespace EncodedLength

theorem hdr (declared : BitVec 24) (tag : Byte) : Statement (.hdr declared tag) := rfl
theorem ctl (flags : Byte) : Statement (.ctl flags) := rfl
theorem lit (value : Byte) : Statement (.lit value) := rfl
theorem ref (dist len : Nat) : Statement (.ref dist len) := rfl
theorem fin : Statement .fin := rfl
theorem pexp (entry : RawEntry) : Statement (.pexp entry) := rfl
theorem pfin : Statement .pfin := rfl
theorem pix (index : Byte) : Statement (.pix index) := rfl
theorem rfin : Statement .rfin := rfl
theorem decomp : Statement .decomp := rfl
theorem palx : Statement .palx := rfl
theorem recon : Statement .recon := rfl
theorem frame : Statement .frame := rfl

end EncodedLength

end Sys2Proof.Laws
end

