-- ==== Sys2Proof/Tests/Slice0.lean ====
section
/-! SUPPORT. Tests: what WellFormed refuses, the decoding of words written out from 30_encoding.md, one step of each
instruction with results from the worked examples of the spec, the placing of table words, and for each statement
with hypotheses a state and operands that meet them. -/

namespace Sys2Proof.Tests

open Sys2Proof.Machine Sys2Proof.Safety

/-! ### WellFormed refuses each operand out of range (R97) -/

theorem test_wf_refuses_distance_zero : (Instr.ref 0 3).wf = false := by decide
theorem test_wf_refuses_distance_4097 : (Instr.ref 4097 3).wf = false := by decide
theorem test_wf_refuses_length_two : (Instr.ref 1 2).wf = false := by decide
theorem test_wf_refuses_length_nineteen : (Instr.ref 1 19).wf = false := by decide
theorem test_wf_accepts_largest_ref : (Instr.ref 4096 18).wf = true := by decide

/-! ### Decoding, each word from the tables of R82 to R90 (T0, T1 of 95_test_vectors.md) -/

/-- R82: bytes 10 04 00 00 declare 4 bytes. -/
theorem test_decode_hdr : decode .hdr [0x10, 0x04, 0x00, 0x00] = .ok (.hdr 4 0x10, []) := by rfl
/-- R82: the last byte is the high byte of the length. -/
theorem test_decode_hdr_high_byte : decode .hdr [0x00, 0x01, 0x02, 0x03, 0xEE] = .ok (.hdr 0x030201 0, [0xEE]) := by rfl
theorem test_decode_ctl : decode .ctl [0x40, 0x42] = .ok (.ctl 0x40, [0x42]) := by rfl
theorem test_decode_lit : decode .lit [0xFF] = .ok (.lit 0xFF, []) := by rfl
/-- R86: `51 22` is distance 291, length 8. -/
theorem test_decode_ref : decode .ref [0x51, 0x22] = .ok (.ref 291 8, []) := by rfl
/-- R86: `0F FF` is distance 4096, length 3. -/
theorem test_decode_ref_far : decode .ref [0x0F, 0xFF] = .ok (.ref 4096 3, []) := by rfl
theorem test_decode_fin : decode .fin [] = .ok (.fin, []) := by rfl
theorem test_decode_pexp : decode .pexp [0x34, 0x12] = .ok (.pexp 0x1234, []) := by rfl
theorem test_decode_pfin : decode .pfin [] = .ok (.pfin, []) := by rfl
theorem test_decode_pix : decode .pix [0x42] = .ok (.pix 0x42, []) := by rfl
theorem test_decode_rfin : decode .rfin [] = .ok (.rfin, []) := by rfl
theorem test_decode_decomp : decode .cmd [1] = .ok (.decomp, []) := by rfl
theorem test_decode_palx : decode .cmd [2] = .ok (.palx, []) := by rfl
theorem test_decode_recon : decode .cmd [3] = .ok (.recon, []) := by rfl
theorem test_decode_frame : decode .cmd [4] = .ok (.frame, []) := by rfl
theorem test_decode_refuses_code_zero : decode .cmd [0] = .error (.noSuchCommand 0) := by rfl
theorem test_decode_refuses_code_seven : decode .cmd [7] = .error (.noSuchCommand 7) := by rfl
theorem test_decode_refuses_half_a_ref : decode .ref [0x51] = .error (.short .ref) := by rfl
theorem test_decode_refuses_short_header : decode .hdr [0x10, 4, 0] = .error (.short .hdr) := by rfl

/-! ### Small states -/

/-- A block of 2 by 2 pixels. -/
def geometry : Params := { width := 2, height := 2, inCap := 64, layout := .redLow }

/-- After reset. -/
def fresh : State := State.resetWith geometry [] .nothing 0

/-- An idle block with these contents; a palette or a frame is given whole or not at all. -/
def idle (input img : List Byte) (raw : List RawEntry) (exp : List Colour) (out : List Byte) : State :=
  { fresh with
    inp := cellsFrom 0 input, inLen := input.length, img := cellsFrom 0 img, imgValid := img.length,
    palRaw := cellsFrom 0 raw, palRawValid := decide (raw.length = 256),
    palExp := cellsFrom 0 exp, palExpValid := decide (exp.length = 256),
    out := cellsFrom 0 out, outValid := decide (out.length = 12) }

/-- The LZD among its tokens: `op` bytes written, the end at `endAt`. -/
def decoding (input img : List Byte) (ip endAt : Nat) (ctl : BitVec 8) (nbits : Nat) : State :=
  { idle input img [] [] [] with
    run := .busy, unit := .lzd, phase := .tok, ip := ip, op := img.length, endAt := endAt, ctl := ctl, nbits := nbits }

/-- The LZD before its header. -/
def atHeader (input : List Byte) : State := { idle input [] [] [] [] with run := .busy, unit := .lzd, phase := .hdr }

/-- A raw palette of one colour, and the same expanded (R145, example). -/
@[irreducible] def allRaw : List RawEntry := List.replicate 256 0x1234
@[irreducible] def allExp : List Colour := List.replicate 256 0xA08820

/-- PEX with these entries written. -/
def expanding (exp : List Colour) : State :=
  { idle [] [1, 2, 3, 4] allRaw [] [] with
    run := .busy, unit := .pex, cmd := .palx, palExp := cellsFrom 0 exp, pidx := exp.length }

/-- FRC with these bytes written, at pixel (x, y). -/
def painting (out : List Byte) (x y : Nat) : State :=
  { idle [] [1, 2, 3, 4] [] allExp [] with
    run := .busy, unit := .frc, cmd := .recon, out := cellsFrom 0 out, wp := out.length, fx := x, fy := y }

/-- A faulted block. -/
def faulted : State := raiseFault .badCommand 7 fresh

/-- Whether a step goes on to a state with the property. -/
def after (o : Out) (f : State → Bool) : Bool :=
  match o with
  | .next t => f t
  | .fault _ => false
  | .refused _ => false

/-! ### One step of each instruction, results from the rules' examples -/

/-- R112, example: `end = 4`, `op = 0`, `ip = 4`, `nbits = 0`, `phase = TOK`. -/
theorem test_hdr : after (blockStep (atHeader [0x10, 4, 0, 0])) (fun t =>
    t.endAt == 4 && t.op == 0 && t.ip == 4 && t.nbits == 0 && t.phase == .tok && t.run == .busy) = true := by decide
/-- Program P7: a header that declares 5 faults with 2 and records 5. -/
theorem test_hdr_too_long : after (blockStep (atHeader [0x10, 5, 0, 0])) (fun t =>
    t.run == .fault && t.faultCause == 2 && t.faultInfo == 5 && t.ip == 0 && t.endAt == 0) = true := by decide
/-- R13 with R14: the host raised `IN_LEN` over bytes that it did not load; the read is a fault, and reset leaves it. -/
theorem test_reset_after_unloaded_read : after (blockStep { atHeader [] with inLen := 4 }) (fun t =>
    t.run == .fault && t.faultCause == 1 && t.faultInfo == 0 &&
      after (hostStep .reset t) (fun u => u.run == .idle)) = true := by decide
/-- R114, example. -/
theorem test_ctl : after (blockStep (decoding [0x10, 4, 0, 0, 0x40] [] 4 4 0 0)) (fun t =>
    t.ctl == 0x40 && t.nbits == 8 && t.ip == 5 && t.op == 0) = true := by decide
/-- R116, example. -/
theorem test_lit : after (blockStep (decoding [0x10, 4, 0, 0, 0x40, 0x42] [] 5 4 0x40 8)) (fun t =>
    unitAt t.img 0 == some 0x42 && t.op == 1 && t.ip == 6 && t.ctl == 0x80 && t.nbits == 7) = true := by decide
/-- R118, example: `00 00` after one literal repeats it three times. -/
theorem test_ref : after (blockStep (decoding [0x10, 4, 0, 0, 0x40, 0x42, 0, 0] [0x42] 6 4 0x80 7)) (fun t =>
    t.img == cellsFrom 0 [0x42, 0x42, 0x42, 0x42] && t.op == 4 && t.ip == 8 && t.ctl == 0 && t.nbits == 6) = true := by
  decide
/-- Program P4: a back-reference as the first token faults with 3 and records `ip = 5`. -/
theorem test_ref_before_start : after (blockStep (decoding [0x10, 4, 0, 0, 0x80, 0, 0] [] 5 4 0x80 8)) (fun t =>
    t.run == .fault && t.faultCause == 3 && t.faultInfo == 5 && t.op == 0 && t.nbits == 8 && status t == 0x04) = true := by
  decide
/-- R122: FIN under DECOMP. -/
theorem test_fin : after (blockStep (decoding [0x10, 1, 0, 0, 0x7F, 0x55, 0xAA] [0x55] 6 1 0xFE 7)) (fun t =>
    t.run == .idle && t.done && t.ip == 6 && t.ctl == 0xFE && t.nbits == 7 && t.imgValid == 1) = true := by decide
/-- R145, example: `0x1234` expands to `0xA08820`. -/
theorem test_pexp : after (blockStep (expanding [])) (fun t =>
    unitAt t.palExp 0 == some 0xA08820 && t.pidx == 1) = true := by decide +kernel
/-- R147: PFIN under PALX. -/
theorem test_pfin : after (exec .pfin { expanding [] with pidx := 256 }) (fun t =>
    t.palExpValid && t.run == .idle && t.done) = true := by decide
/-- R158, example. -/
theorem test_pix : after (exec (.pix 0x42) (painting [] 0 1)) (fun t =>
    t.out == cellsFrom 0 [0xA0, 0x88, 0x20] && t.wp == 3 && t.fx == 1 && t.fy == 1) = true := by decide +kernel
/-- R158: the end of a row goes to the row above it. -/
theorem test_pix_row_end : after (blockStep (painting [1, 2, 3] 1 1)) (fun t =>
    t.wp == 6 && t.fx == 0 && t.fy == 0) = true := by decide +kernel
/-- R159. -/
theorem test_rfin : after (blockStep { painting [] 0 0 with wp := 12 }) (fun t =>
    t.outValid && t.run == .idle && t.done) = true := by decide
/-- R172, program P1: the state the start leaves. -/
theorem test_decomp : after (exec .decomp (idle [1] [7, 7] [] [] [])) (fun t =>
    t.run == .busy && t.unit == .lzd && t.phase == .hdr && t.imgValid == 0 && t.img == [] && t.cmd == .decomp) = true := by
  decide
/-- R173, R196. -/
theorem test_palx_not_loaded : after (exec .palx fresh) (fun t =>
    t.run == .fault && t.faultCause == 6 && t.faultInfo == 0) = true := by decide
/-- R174, R195: vector K4 of 95_test_vectors.md. -/
theorem test_recon_incomplete : after (exec .recon fresh) (fun t =>
    t.run == .fault && t.faultCause == 5 && t.faultInfo == 0) = true := by decide
/-- R177: a command while busy. -/
theorem test_frame_while_busy : after (exec .frame (atHeader [])) (fun t =>
    t.run == .fault && t.faultCause == 9 && t.faultInfo == 4) = true := by decide

/-! ### Table words placed in the state after reset (log entries 20 and 21) -/

theorem test_table_hdr : decodeTableWord 32 0x00000010 = some (.hdr 0 0x10) := by rfl
theorem test_table_ref : decodeTableWord 16 0x2251 = some (.ref 291 8) := by rfl
theorem test_table_ctl : decodeTableWord 8 0xA5 = some (.ctl 0xA5) := by rfl
theorem test_table_frame : decodeTableWord 8 4 = some .frame := by rfl
theorem test_table_fin : decodeTableWord 0 0 = some .fin := by rfl
theorem test_first_hdr : after (step (State.reset.withFetchWord 32 0x10)) (fun t => t.ip == 4 && t.phase == .tok) = true := by
  decide
theorem test_first_ref : after (step (State.reset.withFetchWord 16 0x2251)) (fun t => t.faultCause == 3) = true := by decide
theorem test_first_ctl : after (step (State.reset.withFetchWord 8 0xA5)) (fun t => t.ctl == 0xA5) = true := by decide
theorem test_first_palx : after (step (State.reset.withFetchWord 8 2)) (fun t => t.faultCause == 6) = true := by decide
theorem test_first_fin : after (step (State.reset.withFetchWord 0 0)) (fun t => t.done) = true := by decide

/-! ### The small states meet the invariant -/

theorem allRaw_length : allRaw.length = 256 := by
  unfold allRaw
  exact List.length_replicate
theorem allExp_length : allExp.length = 256 := by
  unfold allExp
  exact List.length_replicate

theorem geometry_wf : geometry.wf := ⟨by decide, by decide, by decide, by decide, by decide⟩

theorem idle_inv {input img : List Byte} {raw : List RawEntry} {exp : List Colour} {out : List Byte}
    (hin : input.length ≤ 64) (himg : img.length ≤ 4) (hraw : raw = [] ∨ raw.length = 256)
    (hexp : exp.length ≤ 256) (hout : out.length ≤ 12) : BlockInv (idle input img raw exp out) where
  params_wf := geometry_wf
  inp_wf := cellsFrom_wf _ _
  img_wf := cellsFrom_wf _ _
  palRaw_wf := cellsFrom_wf _ _
  palExp_wf := cellsFrom_wf _ _
  out_wf := cellsFrom_wf _ _
  inLen_le := hin
  inp_below := fun a h => (holds_cellsFrom_zero _ a).1 h
  imgValid_le := himg
  img_held := fun a => holds_cellsFrom_zero _ a
  palRaw_held := fun a => by
    show holds (cellsFrom 0 raw) a ↔ decide (raw.length = 256) = true ∧ a < 256
    rw [holds_cellsFrom_zero]
    rcases hraw with rfl | h
    · simp
    · simp [h]
  palExp_below := fun a h => Nat.lt_of_lt_of_le ((holds_cellsFrom_zero _ a).1 h) hexp
  palExp_held := fun h a ha => (holds_cellsFrom_zero _ a).2 (by rw [of_decide_eq_true h]; exact ha)
  out_below := fun a h => Nat.lt_of_lt_of_le ((holds_cellsFrom_zero _ a).1 h) hout
  out_held := fun h a ha => (holds_cellsFrom_zero _ a).2 (by rw [of_decide_eq_true h]; exact ha)
  fault_iff := by simp [idle, fresh, State.resetWith]
  cause_le := by show (0 : BitVec 4) ≤ 9; decide
  info_zero := fun _ => rfl
  done_idle := fun _ => rfl
  lzd := fun h => by simp [idle, fresh, State.resetWith] at h
  pex := fun h => by simp [idle, fresh, State.resetWith] at h
  frc := fun h => by simp [idle, fresh, State.resetWith] at h

theorem decoding_inv {input img : List Byte} {ip endAt nbits : Nat} {ctl : BitVec 8} (hin : input.length ≤ 64)
    (hip : 4 ≤ ip) (hip' : ip ≤ input.length) (himg : img.length ≤ endAt) (hend : endAt ≤ 4) (hn : nbits ≤ 8) :
    BlockInv (decoding input img ip endAt ctl nbits) :=
  { idle_inv (raw := []) (exp := []) (out := []) hin (Nat.le_trans himg hend) (.inl rfl) (by decide) (by decide) with
    fault_iff := by simp [decoding, idle, fresh, State.resetWith]
    info_zero := fun _ => rfl
    done_idle := fun h => by simp [decoding, idle, fresh, State.resetWith] at h
    lzd := fun _ _ => ⟨.inl rfl, rfl, hn, fun h => by simp [decoding] at h, fun _ => ⟨hip, hip', himg, hend⟩⟩
    pex := fun _ h => by simp [decoding] at h
    frc := fun _ h => by simp [decoding] at h }

theorem atHeader_inv {input : List Byte} (hin : input.length ≤ 64) : BlockInv (atHeader input) :=
  { idle_inv (img := []) (raw := []) (exp := []) (out := []) hin (by decide) (.inl rfl) (by decide) (by decide) with
    fault_iff := by simp [atHeader, idle, fresh, State.resetWith]
    info_zero := fun _ => rfl
    done_idle := fun h => by simp [atHeader, idle, fresh, State.resetWith] at h
    lzd := fun _ _ =>
      ⟨.inl rfl, rfl, Nat.zero_le _, fun _ => ⟨rfl, rfl, rfl, rfl, rfl⟩, fun h => by simp [atHeader] at h⟩
    pex := fun _ h => by simp [atHeader] at h
    frc := fun _ h => by simp [atHeader] at h }

theorem expanding_inv {exp : List Colour} (hexp : exp.length ≤ 256) : BlockInv (expanding exp) :=
  { idle_inv (input := []) (img := [1, 2, 3, 4]) (raw := allRaw) (exp := []) (out := [])
      (by decide) (by decide) (.inr allRaw_length) (by decide) (by decide) with
    palExp_wf := cellsFrom_wf _ _
    palExp_below := fun a h => Nat.lt_of_lt_of_le ((holds_cellsFrom_zero _ a).1 h) hexp
    palExp_held := fun h => by simp [expanding, idle] at h
    fault_iff := by simp [expanding, idle, fresh, State.resetWith]
    info_zero := fun _ => rfl
    done_idle := fun h => by simp [expanding, idle, fresh, State.resetWith] at h
    lzd := fun _ h => by simp [expanding] at h
    pex := fun _ _ => ⟨.inl rfl, decide_eq_true allRaw_length, rfl, hexp, fun a => holds_cellsFrom_zero _ a⟩
    frc := fun _ h => by simp [expanding] at h }

theorem painting_inv {out : List Byte} {x y : Nat} (hx : x < 2) (hy : y < 2) (hout : out.length ≤ 12)
    (hw : out.length < 12 → out.length = 3 * ((1 - y) * 2 + x)) : BlockInv (painting out x y) :=
  { idle_inv (input := []) (img := [1, 2, 3, 4]) (raw := []) (exp := allExp) (out := [])
      (by decide) (by decide) (.inl rfl) (Nat.le_of_eq allExp_length) (by decide) with
    out_wf := cellsFrom_wf _ _
    out_below := fun a h => Nat.lt_of_lt_of_le ((holds_cellsFrom_zero _ a).1 h) hout
    out_held := fun h => by simp [painting, idle] at h
    fault_iff := by simp [painting, idle, fresh, State.resetWith]
    info_zero := fun _ => rfl
    done_idle := fun h => by simp [painting, idle, fresh, State.resetWith] at h
    lzd := fun _ h => by simp [painting] at h
    pex := fun _ h => by simp [painting] at h
    frc := fun _ _ =>
      ⟨.inl rfl, rfl, decide_eq_true allExp_length, rfl, hout, hy, hx, hw, fun a => holds_cellsFrom_zero _ a⟩ }

/-! ### Witnesses: what meets the hypotheses of each statement -/

/-- For `RefOperandAssembly` and `DecodeReadsBackEncode`: the smallest and the largest operands of a back-reference. -/
theorem witness_ref_operands :
    (1 ≤ 1 ∧ 1 ≤ 4096 ∧ 3 ≤ 3 ∧ 3 ≤ 18 ∧ (Instr.ref 1 3).wf = true) ∧
      (1 ≤ 4096 ∧ 4096 ≤ 4096 ∧ 3 ≤ 18 ∧ 18 ≤ 18 ∧ (Instr.ref 4096 18).wf = true) := by decide

/-- For `EncodeRebuildsDecodedBytes`. -/
theorem witness_decode : decode .ref [0xF0, 0x00, 0x55] = .ok (.ref 1 18, [0x55]) := by rfl

/-- For `StepRunsDecodedItem`, first part: the three schedules. -/
theorem witness_step_item :
    let s := decoding [0x10, 4, 0, 0, 0x40] [] 4 4 0 0
    s.run = .busy ∧ select s = some .ctl ∧ fetch .ctl s = .item [0x40] ∧ decode .ctl [0x40] = .ok (.ctl 0x40, []) ∧
      s.turns = [] ∧ select { s with turns := [.block] } = some .ctl ∧
      select { s with turns := [.await] } = some .ctl := ⟨rfl, rfl, rfl, rfl, rfl, rfl, rfl⟩

/-- For `StepRunsDecodedItem`, second part. -/
theorem witness_step_command :
    let s := { fresh with turns := [.host (.writeCmd 4)] }
    s.turns = .host (.writeCmd 4) :: [] ∧ decode .cmd [(4 : BitVec 3).setWidth 8] = .ok (.frame, []) := ⟨rfl, rfl⟩

/-- For `IdleBlockDoesNothing`: an idle and a faulted block, with each schedule. -/
theorem witness_not_running :
    fresh.run ≠ .busy ∧ fresh.turns = [] ∧ faulted.run ≠ .busy ∧
      ({ fresh with turns := [.block] } : State).turns = .block :: [] ∧
      ({ fresh with turns := [.await] } : State).turns = .await :: [] := by decide

/-- For `LzdDispatch`: one state for each of its five clauses. -/
theorem witness_lzd_dispatch :
    select (atHeader []) = some .hdr ∧ (atHeader []).op ≤ (atHeader []).endAt ∧
    select (decoding [0, 0, 0, 0] [] 4 0 0 0) = some .fin ∧
    select (decoding [0, 4, 0, 0] [] 4 4 0x80 0) = some .ctl ∧
    select (decoding [0, 4, 0, 0] [] 4 4 0x7F 8) = some .lit ∧
    select (decoding [0, 4, 0, 0] [] 4 4 0x80 1) = some .ref := by decide

/-- For `StepsNeedTheirCondition`. -/
theorem witness_not_enabled : (Instr.ctl 0).kind ≠ .cmd ∧ select fresh ≠ some (Instr.ctl 0).kind := by decide

/-- For `HdrReadsHeader`: one byte too few, and just enough with the largest length that fits and the next one. -/
theorem witness_hdr :
    let s := atHeader [0x10, 4, 0]
    let t := atHeader [0x10, 4, 0, 0]
    s.run = .busy ∧ s.unit = .lzd ∧ s.phase = .hdr ∧ s.inLen < s.ip + 4 ∧
    t.run = .busy ∧ t.unit = .lzd ∧ t.phase = .hdr ∧ t.ip + 4 ≤ t.inLen ∧ t.inLen ≤ t.params.inCap ∧
    (4 : BitVec 24).toNat ≤ t.params.imgCap ∧ t.params.imgCap < (5 : BitVec 24).toNat ∧
    unitAt t.inp 0 = some 0x10 ∧ unitAt t.inp 1 = some 4 ∧ unitAt t.inp 2 = some 0 ∧ unitAt t.inp 3 = some 0 := by decide

/-- For `CtlFetchesControlByte`: the input at its end, and one byte before it. -/
theorem witness_ctl :
    let s := decoding [0x10, 4, 0, 0] [] 4 4 0 0
    let t := decoding [0x10, 4, 0, 0, 0x40] [] 4 4 0 0
    s.run = .busy ∧ s.unit = .lzd ∧ s.phase = .tok ∧ s.op < s.endAt ∧ s.nbits = 0 ∧ s.inLen < s.ip + 1 ∧
    t.op < t.endAt ∧ t.nbits = 0 ∧ t.ip + 1 ≤ t.inLen ∧ t.inLen ≤ t.params.inCap ∧ unitAt t.inp t.ip = some 0x40 := by
  decide

/-- For `LitCopiesOneByte`: the input at its end, and the last byte due. -/
theorem witness_lit :
    let s := decoding [0x10, 4, 0, 0, 0] [1, 2, 3] 5 4 0 1
    let t := decoding [0x10, 4, 0, 0, 0, 0x42] [1, 2, 3] 5 4 0 1
    s.run = .busy ∧ s.unit = .lzd ∧ s.phase = .tok ∧ s.op < s.endAt ∧ 0 < s.nbits ∧ s.ctl.getLsbD 7 = false ∧
    s.inLen < s.ip + 1 ∧ t.op < t.endAt ∧ t.ip + 1 ≤ t.inLen ∧ t.inLen ≤ t.params.inCap ∧ t.endAt ≤ t.params.imgCap ∧
    unitAt t.inp t.ip = some 0x42 ∧ after (exec (.lit 0x42) t) (fun u => u.run == .busy && u.op == 4) = true := by decide

/-- For `RefCopiesPattern`: half a token; the largest distance and the longest copy that are legal; one more of each. -/
theorem witness_ref :
    let s := decoding [0x10, 4, 0, 0, 0x80, 0] [0x42] 5 4 0x80 1
    let t := decoding [0x10, 4, 0, 0, 0x80, 0, 0] [0x42] 5 4 0x80 1
    s.run = .busy ∧ s.unit = .lzd ∧ s.phase = .tok ∧ s.op < s.endAt ∧ 0 < s.nbits ∧ s.ctl.getLsbD 7 = true ∧
    s.inLen < s.ip + 2 ∧ t.op < t.endAt ∧ t.ip + 2 ≤ t.inLen ∧ t.inLen ≤ t.params.inCap ∧
    1 ≤ 1 ∧ 1 ≤ t.op ∧ t.op + 3 ≤ t.endAt ∧ t.endAt ≤ t.params.imgCap ∧ t.op < 2 ∧ t.endAt < t.op + 4 ∧
    (∀ a : Fin 1, (unitAt t.img a.val).isSome = true) ∧ unitAt t.inp t.ip = some 0 ∧
    unitAt t.inp (t.ip + 1) = some 0 ∧ after (exec (.ref 1 3) t) (fun u => u.run == .busy && u.op == 4) = true := by
  decide

/-- For `FinEndsTheStream`: DECOMP, FRAME with a palette and FRAME without; the invariant holds in the first. -/
theorem witness_fin :
    let s := decoding [0x10, 1, 0, 0, 0, 7] [7] 6 1 0 7
    BlockInv s ∧ s.run = .busy ∧ s.unit = .lzd ∧ s.phase = .tok ∧ s.op = s.endAt ∧ s.cmd = .decomp ∧
    ({ s with cmd := .frame, palRawValid := true } : State).palRawValid = true ∧
    ({ s with cmd := .frame } : State).palRawValid = false :=
  ⟨decoding_inv (by decide) (by decide) (by decide) (by decide) (by decide) (by decide), rfl, rfl, rfl, rfl, rfl, rfl, rfl⟩

/-- For `ExpandProperties`: two entries with one expansion. -/
theorem witness_expand : expand .redLow 0x8001 = expand .redLow 0x0001 := by decide

/-- For `PexpExpandsOneEntry`, at the last entry. -/
theorem witness_pexp :
    let s := expanding (List.replicate 255 0xA08820)
    s.run = .busy ∧ s.unit = .pex ∧ s.pidx < 256 ∧ unitAt s.palRaw s.pidx = some 0x1234 := by decide +kernel

/-- For `PfinEndsThePalette`: PALX, FRAME with a whole image, FRAME without. -/
theorem witness_pfin :
    let s := expanding allExp
    s.run = .busy ∧ s.unit = .pex ∧ s.pidx = 256 ∧ s.cmd = .palx ∧ s.imgValid = s.params.npix ∧
    ({ s with cmd := .frame, imgValid := 3 } : State).imgValid ≠ s.params.npix := by decide +kernel

/-- For `PixAppendsOnePixel`, at the last pixel. -/
theorem witness_pix :
    let s := painting [1, 2, 3, 4, 5, 6, 7, 8, 9] 1 0
    s.run = .busy ∧ s.unit = .frc ∧ s.wp + 2 < s.params.outLen ∧ unitAt s.palExp (2 : Byte).toNat = some 0xA08820 ∧
    s.fy * s.params.width + s.fx < s.params.imgCap ∧ unitAt s.img (s.fy * s.params.width + s.fx) = some 2 := by decide +kernel

/-- For `RfinEndsTheFrame`. -/
theorem witness_rfin :
    let s := painting (List.replicate 12 1) 0 0
    s.run = .busy ∧ s.unit = .frc ∧ s.wp = s.params.outLen ∧ (s.cmd = .recon ∨ s.cmd = .frame) := by decide +kernel

/-- For `DecompStartsLzd` and `FrameStartsLzd`, and `HostLoadsFillBuffers` and `InLenWriteSetsLength` at their
largest. -/
theorem witness_idle :
    fresh.run = .idle ∧ (List.replicate 64 (1 : Byte)).length ≤ fresh.params.inCap ∧
    (List.replicate 256 (1 : RawEntry)).length = 256 ∧ (64 : BitVec 32).toNat ≤ fresh.params.inCap := by decide +kernel

/-- For `PalxStartsPex`: with a palette and without. -/
theorem witness_palx :
    let s := idle [] [] (List.replicate 256 1) [] []
    s.run = .idle ∧ s.palRawValid = true ∧ fresh.run = .idle ∧ fresh.palRawValid = false := by decide +kernel

/-- For `ReconStartsFrc`: both stages done, no image, no palette. -/
theorem witness_recon :
    let s := idle [] [1, 2, 3, 4] [] (List.replicate 256 1) []
    let t := idle [] [1, 2, 3, 4] [] [] []
    s.run = .idle ∧ s.imgValid = s.params.npix ∧ s.palExpValid = true ∧ fresh.imgValid ≠ fresh.params.npix ∧
    t.imgValid = t.params.npix ∧ t.palExpValid = false := by decide +kernel

/-- For `HostWritesOutOfTurn`: each state, and each kind of write. -/
theorem witness_out_of_turn :
    fresh.run = .idle ∧ (atHeader []).run = .busy ∧ faulted.run = .fault ∧
    (∃ bs, HostMove.loadIn [1] = .loadIn bs) ∧ (∃ vs, HostMove.loadPal [] = .loadPal vs) ∧
    (∃ v, HostMove.writeInLen 0 = .writeInLen v) ∧ (∃ n, HostMove.writeOther 3 = .writeOther n) :=
  ⟨rfl, rfl, rfl, ⟨_, rfl⟩, ⟨_, rfl⟩, ⟨_, rfl⟩, ⟨_, rfl⟩⟩

/-- For `StatusBits` and `RegisterReads`: the invariant in a state with a run that ended well. -/
theorem witness_status :
    let s := { idle [1] [1, 2, 3, 4] [] [] [] with done := true }
    BlockInv s ∧ (status s).getLsbD 1 = true :=
  ⟨{ idle_inv (raw := []) (exp := []) (out := []) (by decide) (by decide) (.inl rfl) (by decide) (by decide) with
      done_idle := fun _ => rfl, lzd := fun h => by simp [idle, fresh, State.resetWith] at h
      pex := fun h => by simp [idle, fresh, State.resetWith] at h
      frc := fun h => by simp [idle, fresh, State.resetWith] at h }, by decide⟩

/-- For `BufferReads`: an idle block with a whole frame, a running one, one without a frame. -/
theorem witness_reads :
    let s := idle [] [1, 2, 3, 4] [] [] (List.replicate 12 9)
    BlockInv s ∧ s.run ≠ .busy ∧ s.run = .idle ∧ s.outValid = true ∧ (atHeader []).run = .busy ∧
    fresh.outValid = false ∧ faulted.run ≠ .idle :=
  ⟨idle_inv (by decide) (by decide) (.inl rfl) (by decide) (by decide), by decide, rfl, by decide, rfl, rfl, by decide⟩

/-- For `FaultsArePrecise` and `CausesOfEachStep`: a fault of each step that has one. -/
theorem witness_faults :
    (∃ t, exec (.hdr 4 0) (atHeader []) = .next t ∧ t.run = .fault ∧ t.faultCause = 1) ∧
    (∃ t, exec (.hdr 5 0) (atHeader [0, 5, 0, 0]) = .next t ∧ t.run = .fault ∧ t.faultCause = 2) ∧
    (∃ t, exec (.ctl 0) (decoding [0, 4, 0, 0] [] 4 4 0 0) = .next t ∧ t.run = .fault) ∧
    (∃ t, exec (.lit 0) (decoding [0, 4, 0, 0, 0] [] 5 4 0 8) = .next t ∧ t.run = .fault) ∧
    (∃ t, exec (.ref 1 3) (decoding [0, 4, 0, 0, 0x80] [] 5 4 0x80 8) = .next t ∧ t.faultCause = 1) ∧
    (∃ t, exec (.ref 1 3) (decoding [0, 4, 0, 0, 0x80, 0, 0] [] 5 4 0x80 8) = .next t ∧ t.faultCause = 3) ∧
    (∃ t, exec (.ref 1 4) (decoding [0, 4, 0, 0, 0x80, 0, 0] [1] 5 4 0x80 8) = .next t ∧ t.faultCause = 4) ∧
    (∃ t, exec .fin { decoding [0, 0, 0, 0] [] 4 0 0 0 with cmd := .frame } = .next t ∧ t.run = .fault) ∧
    (∃ t, exec .pfin { expanding [] with cmd := .frame, pidx := 256, imgValid := 3 } = .next t ∧ t.run = .fault) ∧
    (∃ t, exec .decomp (atHeader []) = .next t ∧ t.run = .fault) ∧
    (∃ t, exec .palx fresh = .next t ∧ t.run = .fault) ∧ (∃ t, exec .palx (atHeader []) = .next t ∧ t.run = .fault) ∧
    (∃ t, exec .recon fresh = .next t ∧ t.faultCause = 5) ∧
    (∃ t, exec .recon (idle [] [1, 2, 3, 4] [] [] []) = .next t ∧ t.faultCause = 7) ∧
    (∃ t, exec .recon (atHeader []) = .next t ∧ t.faultCause = 9) ∧
    (∃ t, exec .frame (atHeader []) = .next t ∧ t.run = .fault) :=
  ⟨⟨_, rfl, rfl, rfl⟩, ⟨_, rfl, rfl, rfl⟩, ⟨_, rfl, rfl⟩, ⟨_, rfl, rfl⟩, ⟨_, rfl, rfl⟩, ⟨_, rfl, rfl⟩, ⟨_, rfl, rfl⟩,
    ⟨_, rfl, rfl⟩, ⟨_, rfl, rfl⟩, ⟨_, rfl, rfl⟩, ⟨_, rfl, rfl⟩, ⟨_, rfl, rfl⟩, ⟨_, rfl, rfl⟩, ⟨_, rfl, rfl⟩,
    ⟨_, rfl, rfl⟩, ⟨_, rfl, rfl⟩⟩

/-- For `FaultIsSticky`: a command written to a faulted block. -/
theorem witness_sticky :
    let s := { faulted with turns := [.host (.writeCmd 1)] }
    s.run = .fault ∧ (∀ ts, s.turns ≠ .host .reset :: ts) ∧ ∃ t, step s = .next t :=
  ⟨rfl, fun ts h => by simp at h, ⟨_, rfl⟩⟩

/-- For `ResetLeavesStatedValues`: a faulted block. -/
theorem witness_reset : faulted.params.wf := geometry_wf

/-- For `StepKeepsInvariant`, with a step of each unit. -/
theorem witness_invariant :
    (BlockInv (atHeader [0x10, 4, 0, 0]) ∧ ∃ t, step (atHeader [0x10, 4, 0, 0]) = .next t) ∧
    (BlockInv (expanding []) ∧ after (step (expanding [])) (fun _ => true) = true) ∧
    (BlockInv (painting [] 0 1) ∧ after (step (painting [] 0 1)) (fun _ => true) = true) :=
  ⟨⟨atHeader_inv (by decide), ⟨_, rfl⟩⟩, ⟨expanding_inv (by decide), by decide +kernel⟩,
    ⟨painting_inv (by decide) (by decide) (by decide) (by decide), by decide +kernel⟩⟩

/-- For `RunningBlockAdvances` and `CursorsOnlyAdvance`: a literal about to be copied. -/
theorem witness_running :
    let s := decoding [0x10, 4, 0, 0, 0, 0x42] [] 5 4 0 8
    BlockInv s ∧ s.run = .busy ∧ s.unit = .lzd ∧ select s = some .lit ∧
    ∃ t, blockStep s = .next t ∧ t.run = .busy :=
  ⟨decoding_inv (by decide) (by decide) (by decide) (by decide) (by decide) (by decide), rfl, rfl,
    rfl, ⟨_, rfl, rfl⟩⟩

/-- For `NothingStopsTheBlock`, `FaultsOfTheBlock` and the first clause of `ValuelessReadFaults`: `IN_LEN` was raised
to 4 over bytes that were not loaded (log entry 16). -/
theorem witness_unloaded :
    let s := { atHeader [] with inLen := 4 }
    BlockInv s ∧ select s = some .hdr ∧ s.ip + 4 ≤ s.inLen ∧ s.inLen ≤ s.params.inCap ∧ unitAt s.inp 3 = none ∧
    ∃ t, blockStep s = .next t ∧ t.run = .fault :=
  ⟨{ atHeader_inv (input := []) (by decide) with
      inLen_le := by decide
      inp_below := fun a h => by simp [atHeader, idle, cellsFrom, holds] at h
      lzd := fun _ _ =>
        ⟨.inl rfl, rfl, by decide, fun _ => ⟨rfl, rfl, rfl, rfl, rfl⟩, fun h => by simp [atHeader] at h⟩
      pex := fun _ h => by simp [atHeader] at h
      frc := fun _ h => by simp [atHeader] at h }, rfl, by decide, by decide, rfl, ⟨_, rfl, rfl⟩⟩

/-- For the other kinds of the first clause of `ValuelessReadFaults`: the last byte of each item holds no value. -/
theorem witness_unloaded_tokens :
    let c := { decoding [0x10, 4, 0, 0] [] 4 4 0 0 with inLen := 5 }
    let l := { decoding [0x10, 4, 0, 0, 0] [] 5 4 0 8 with inLen := 6 }
    let r := { decoding [0x10, 4, 0, 0, 0x80, 0] [] 5 4 0x80 8 with inLen := 7 }
    select c = some .ctl ∧ c.ip + 1 ≤ c.inLen ∧ c.inLen ≤ c.params.inCap ∧ unitAt c.inp 4 = none ∧
    select l = some .lit ∧ l.ip + 1 ≤ l.inLen ∧ l.inLen ≤ l.params.inCap ∧ unitAt l.inp 5 = none ∧
    select r = some .ref ∧ r.ip + 2 ≤ r.inLen ∧ r.inLen ≤ r.params.inCap ∧ unitAt r.inp 6 = none := by decide

/-- For the other clauses of `ValuelessReadFaults`, and `CausesOfEachStep`'s unnamed faults: no run has such a state. -/
theorem witness_valueless :
    let e := { expanding [] with palRaw := [] }
    let p := { painting [] 0 1 with img := [] }
    let q := { painting [] 0 1 with palExp := [] }
    let r := { decoding [0x10, 4, 0, 0, 0x80, 0, 0] [7] 5 4 0x80 8 with img := [] }
    select e = some .pexp ∧ unitAt e.palRaw e.pidx = none ∧
    select p = some .pix ∧ p.fy * p.params.width + p.fx < p.params.imgCap ∧ unitAt p.img 2 = none ∧
    select q = some .pix ∧ unitAt q.palExp (5 : Byte).toNat = none ∧
    select r = some .ref ∧ r.ip + 2 ≤ r.inLen ∧ 1 ≤ r.op ∧ r.op + 3 ≤ r.endAt ∧ r.endAt ≤ r.params.imgCap ∧
    unitAt r.img (r.op - 1 + 0) = none := by decide +kernel

/-- For `EveryRunEnds`: a running block with no schedule, and with a host that waits. -/
theorem witness_wait :
    BlockInv (atHeader [0x10, 4, 0, 0]) ∧ (atHeader [0x10, 4, 0, 0]).run = .busy ∧
    (atHeader [0x10, 4, 0, 0]).turns = [] ∧
    let s := { atHeader [0x10, 4, 0, 0] with turns := [.await, .host .reset] }
    BlockInv s ∧ s.run = .busy ∧ s.turns = .await :: [.host .reset] :=
  ⟨atHeader_inv (by decide), rfl, rfl,
    { atHeader_inv (input := [0x10, 4, 0, 0]) (by decide) with
      lzd := fun _ _ =>
        ⟨.inl rfl, rfl, by decide, fun _ => ⟨rfl, rfl, rfl, rfl, rfl⟩, fun h => by simp [atHeader] at h⟩
      pex := fun _ h => by simp [atHeader] at h
      frc := fun _ h => by simp [atHeader] at h }, rfl, rfl⟩

/-- For `UnspecifiedRegistersNeverMatter`: two states that differ in a register reset leaves open. -/
theorem witness_agree : Agree fresh { fresh with ip := 7, pidx := 9, cmd := .frame } ∧
    fresh ≠ { fresh with ip := 7, pidx := 9, cmd := .frame } :=
  ⟨{ params := rfl, run := rfl, done := rfl, inLen := rfl, faultCause := rfl, faultInfo := rfl, inp := rfl, img := rfl,
     imgValid := rfl, palRaw := rfl, palRawValid := rfl, palExp := rfl, palExpValid := rfl, out := rfl, outValid := rfl,
     turns := rfl, reply := rfl, draws := rfl, busy := fun h => by simp [fresh, State.resetWith] at h
     lzd := fun h => by simp [fresh, State.resetWith] at h, pex := fun h => by simp [fresh, State.resetWith] at h
     frc := fun h => by simp [fresh, State.resetWith] at h }, by decide⟩

/-- For `HdrCtlFrame`, `TokenFrame` and `PexpPixFrame`: a step of each that goes on. -/
theorem witness_unit_frames :
    (∃ t, exec (.hdr 4 0) (atHeader [0, 4, 0, 0]) = .next t) ∧
    (∃ t, exec (.ctl 0) (decoding [0, 4, 0, 0, 0] [] 4 4 0 0) = .next t) ∧
    (∃ t, exec (.lit 5) (decoding [0, 4, 0, 0, 0, 5] [] 5 4 0 8) = .next t) ∧
    (∃ t, exec (.ref 1 3) (decoding [0, 4, 0, 0, 0x80, 0, 0] [1] 5 4 0x80 8) = .next t) ∧
    (∃ t, exec (.pexp 0x1234) (expanding []) = .next t) ∧ after (exec (.pix 1) (painting [] 0 1)) (fun _ => true) = true :=
  ⟨⟨_, rfl⟩, ⟨_, rfl⟩, ⟨_, rfl⟩, ⟨_, rfl⟩, ⟨_, rfl⟩, by decide +kernel⟩

/-- For `FinalStepFrame`, `CommandFrame` and `BlockNeverWritesHostBuffers`. -/
theorem witness_other_frames :
    (∃ t, exec .fin (decoding [0, 0, 0, 0] [] 4 0 0 0) = .next t) ∧
    (∃ t, exec .pfin { expanding [] with pidx := 256 } = .next t) ∧
    (∃ t, exec .rfin { painting [] 0 0 with wp := 12 } = .next t) ∧
    (∃ t, exec .decomp fresh = .next t) ∧ (∃ t, exec .frame fresh = .next t) ∧ (∃ t, exec .palx fresh = .next t) ∧
    (∃ t, exec .recon fresh = .next t) ∧ fresh.palRawValid = false ∧ faulted.run ≠ .idle ∧
    after (blockStep (painting [] 0 1)) (fun _ => true) = true :=
  ⟨⟨_, rfl⟩, ⟨_, rfl⟩, ⟨_, rfl⟩, ⟨_, rfl⟩, ⟨_, rfl⟩, ⟨_, rfl⟩, ⟨_, rfl⟩, rfl, by decide, by decide +kernel⟩

/-- For `DecompComputesLz`: program P1's input, and the start of its run. -/
theorem witness_decomp_run :
    let input : List Byte := [0x10, 4, 0, 0, 0x40, 0x42, 0, 0]
    let s := idle input [] [] [] []
    BlockInv s ∧ s.run = .idle ∧ s.turns = [] ∧ input.length = s.inLen ∧
    (∀ a, a < s.inLen → unitAt s.inp a = input[a]?) ∧ (∃ t, exec .decomp s = .next t) ∧
    lz input s.params.imgCap = .ok [0x42, 0x42, 0x42, 0x42] 8 :=
  ⟨idle_inv (by decide) (by decide) (.inl rfl) (by decide) (by decide), rfl, rfl, rfl,
    fun a _ => by simp [idle, unitAt_cellsFrom], ⟨_, rfl⟩, by decide +kernel⟩

/-- For `PalxExpandsWholePalette`. -/
theorem witness_palx_run :
    let s := idle [] [] allRaw [] []
    BlockInv s ∧ s.run = .idle ∧ s.turns = [] ∧ s.palRawValid = true ∧ ∃ t, exec .palx s = .next t :=
  ⟨idle_inv (by decide) (by decide) (.inr allRaw_length) (by decide) (by decide), rfl, rfl,
    decide_eq_true allRaw_length, ⟨_, rfl⟩⟩

/-- For `ReconReversesRows`, and the corner pixels of its geometry. -/
theorem witness_recon_run :
    let s := idle [] [1, 2, 3, 4] [] allExp []
    BlockInv s ∧ s.run = .idle ∧ s.turns = [] ∧ s.imgValid = s.params.npix ∧ s.palExpValid = true ∧
    (∃ t, exec .recon s = .next t) ∧ 0 < s.params.width ∧ 1 < s.params.width ∧ 0 < s.params.height ∧
    1 < s.params.height :=
  ⟨idle_inv (by decide) (by decide) (.inl rfl) (Nat.le_of_eq allExp_length) (by decide), rfl, rfl, rfl, decide_eq_true allExp_length,
    ⟨_, rfl⟩, by decide, by decide, by decide, by decide⟩

/-- For `FrameComputesFrame`: the input of program P1 over a palette of one colour. -/
theorem witness_frame_run :
    let input : List Byte := [0x10, 4, 0, 0, 0x40, 0x42, 0, 0]
    let raw := allRaw
    let s := idle input [] raw [] []
    BlockInv s ∧ s.run = .idle ∧ s.turns = [] ∧ input.length = s.inLen ∧
    (∀ a, a < s.inLen → unitAt s.inp a = input[a]?) ∧ s.palRawValid = true ∧ raw.length = 256 ∧
    (∀ k, k < 256 → unitAt s.palRaw k = raw[k]?) ∧ (∃ t, exec .frame s = .next t) ∧
    frame s.params input raw = .ok [0xA0, 0x88, 0x20, 0xA0, 0x88, 0x20, 0xA0, 0x88, 0x20, 0xA0, 0x88, 0x20] :=
  ⟨idle_inv (by decide) (by decide) (.inr allRaw_length) (by decide) (by decide), rfl, rfl, rfl,
    fun a _ => by simp [idle, unitAt_cellsFrom], decide_eq_true allRaw_length, allRaw_length,
    fun k _ => (unitAt_cellsFrom allRaw 0 k).trans (by simp), ⟨_, rfl⟩, by decide +kernel⟩

end Sys2Proof.Tests
end

/-! SUPPORT. The decoder and the dispatch: what a decoded instruction is, and what a step runs. -/

namespace Sys2Proof.Machine

open Sys2Proof.Laws

/-! ### The decoder -/

/-- The ranges of R97 in numerals. -/
theorem ref_wf_iff {d l : Nat} : (Instr.ref d l).wf = true ↔ 1 ≤ d ∧ d ≤ 4096 ∧ 3 ≤ l ∧ l ≤ 18 := by
  simp only [Instr.wf, Bool.and_eq_true, decide_eq_true_eq, and_assoc]
  rfl

/-- The operands of R86 are in the ranges of R97, whatever the two bytes. -/
theorem ref_operands_wf (b0 b1 : Byte) : (Instr.ref (refDist b0 b1) (refLen b0)).wf = true := by
  have hdist : (b0.extractLsb' 0 4 ++ b1).toNat < 4096 := (b0.extractLsb' 0 4 ++ b1).isLt
  have hlen : (b0.extractLsb' 4 4).toNat < 16 := (b0.extractLsb' 4 4).isLt
  rw [ref_wf_iff, refDist, refLen]
  omega

/-- A back-reference is decoded from two bytes by R86. -/
theorem decode_ref_ok {bs rest : List Byte} {i : Instr} (h : decode .ref bs = .ok (i, rest)) :
    ∃ b0 b1, bs = b0 :: b1 :: rest ∧ i = .ref (refDist b0 b1) (refLen b0) := by
  match bs, h with
  | b0 :: b1 :: _, h =>
    injection h with h
    injection h with hi hrest
    exact ⟨b0, b1, by rw [hrest], hi.symm⟩

/-- What the decoder accepts is well-formed (R97): only a back-reference has operands out of range. -/
theorem decode_wf {k : Kind} {bs rest : List Byte} {i : Instr} (h : decode k bs = .ok (i, rest)) :
    i.wf = true := by
  cases i with
  | ref d l =>
    obtain rfl : Kind.ref = k := decode_kind h
    obtain ⟨b0, b1, -, hi⟩ := decode_ref_ok h
    rw [hi]
    exact ref_operands_wf b0 b1
  | _ => rfl

/-- Bytes of the length of the format are an item (R95); only a command code can name nothing (R96). -/
theorem decode_isOk {k : Kind} {bs : List Byte} (hk : k ≠ .cmd) (hl : bs.length = itemBytes k) :
    ∃ i, decode k bs = .ok (i, []) := by
  cases k with
  | cmd => exact absurd rfl hk
  | fin | pfin | rfin => rw [List.length_eq_zero_iff.1 hl]; exact ⟨_, rfl⟩
  | ctl | lit | pix => obtain ⟨b, rfl⟩ := List.length_eq_one_iff.1 hl; exact ⟨_, rfl⟩
  | ref | pexp => obtain ⟨b0, b1, rfl⟩ := List.length_eq_two.1 hl; exact ⟨_, rfl⟩
  | hdr =>
    match bs, hl with
    | [_, _, _, _], _ => exact ⟨_, rfl⟩

/-! ### Dispatch -/

/-- Every instruction that is no command is a rule with the condition of its kind (R15). -/
theorem exec_eq_whenEnabled {i : Instr} (s : State) (hk : i.kind ≠ .cmd) :
    ∃ body, exec i s = whenEnabled i.kind s body := by
  cases i with
  | decomp | palx | recon | frame => exact absurd rfl hk
  | _ => exact ⟨_, rfl⟩

/-- The schedule selects no step and no bytes. -/
theorem select_turns (s : State) (ts : List Turn) : select { s with turns := ts } = select s := rfl

theorem fetch_turns (k : Kind) (s : State) (ts : List Turn) : fetch k { s with turns := ts } = fetch k s := by
  cases k <;> rfl

/-- A running block whose selected item decodes runs its instruction. -/
theorem blockStep_of_decoded {k : Kind} {s : State} {bs rest : List Byte} {i : Instr} (hk : select s = some k)
    (hf : fetch k s = .item bs) (hd : decode k bs = .ok (i, rest)) : blockStep s = exec i s :=
  (blockStep_of hk).trans (runItem_of hf hd)

/-- A code written to `CMD` runs the command it decodes to (R171). -/
theorem hostWriteCmd_of {c : BitVec 3} {i : Instr} {rest : List Byte} (s : State)
    (hd : decode .cmd [c.setWidth 8] = .ok (i, rest)) : hostWriteCmd c s = exec i s := by
  unfold hostWriteCmd
  rw [hd]

end Sys2Proof.Machine

namespace Sys2Proof.Proofs

open Sys2Proof.Machine

/-- Settles O10: each unit's rule stands behind the condition of its kind. -/
theorem stepsNeedTheirCondition : Obligations.StepsNeedTheirCondition := by
  intro i s hk hs
  obtain ⟨body, hexec⟩ := exec_eq_whenEnabled s hk
  rw [hexec, whenEnabled_not hs]

/-- Settles O7: neither the selection nor the fetch reads the schedule, so each turn of the block runs the decoded
item. -/
theorem stepRunsDecodedItem : Obligations.StepRunsDecodedItem := by
  refine ⟨fun s k bs rest i hrun hk hf hd => ⟨decode_wf hd, fun ht => ?_, fun ts ht => ?_, fun ts ht => ?_⟩,
    fun s c ts i ht hd => ⟨decode_wf hd, ?_⟩⟩
  · rw [step_eq, ht]
    exact blockStep_of_decoded hk hf hd
  · rw [step_eq, ht]
    exact blockStep_of_decoded ((select_turns s ts).trans hk) ((fetch_turns k s ts).trans hf) hd
  · rw [step_eq, ht]
    exact (if_pos hrun).trans (blockStep_of_decoded hk hf hd)
  · rw [step_eq, ht]
    exact hostWriteCmd_of _ hd

end Sys2Proof.Proofs

/-! SUPPORT. What a faulting instruction does, and what each step of the block answers under the invariant. -/

namespace Sys2Proof.Machine

open Sys2Proof.Safety Sys2Proof.Laws

/-! ### The free fault -/

theorem faultedUnnamed_raiseUnnamed (s : State) : faultedUnnamed s (raiseUnnamed s) :=
  have ⟨hne, hle⟩ := freeFaultCode_range s.draws
  ⟨_, _, hne, hle, rfl⟩

theorem not_holds_iff {w : Nat} {m : Cells w} {a : Nat} : ¬ holds m a ↔ unitAt m a = none := by
  simp [holds]

/-! ### How an instruction can raise a fault -/

/-- The kinds whose item is fetched from `IN`. -/
def onStream (k : Kind) : Prop := k = .hdr ∨ k = .ctl ∨ k = .lit ∨ k = .ref

/-- The instruction that writes the code of a command (R90). -/
def Cmd.instr : Cmd → Instr
  | .decomp => .decomp
  | .palx => .palx
  | .recon => .recon
  | .frame => .frame

/-- `Raises s i t`: the instruction `i` in `s` raises a fault, in one of the ways the rules give it (R190 to R199, R13),
and leaves `t`. -/
inductive Raises (s : State) : Instr → State → Prop
  /-- the item is not wholly below `IN_LEN` (R191) -/
  | underrun {i : Instr} : onStream i.kind → s.inLen < s.ip + itemBytes i.kind →
      Raises s i (raiseFault .inputUnderrun s.ip s)
  /-- R192 -/
  | tooLong {d : BitVec 24} {g : Byte} : s.params.imgCap < d.toNat →
      Raises s (.hdr d g) (raiseFault .lengthExceedsCapacity d.toNat s)
  /-- R193 -/
  | beforeStart {d l : Nat} : s.op < d → Raises s (.ref d l) (raiseFault .distanceBeforeStart s.ip s)
  /-- R194 -/
  | overrun {d l : Nat} : s.endAt < s.op + l → Raises s (.ref d l) (raiseFault .copyOverrun s.ip s)
  /-- the copy of a back-reference that passed its checks met a byte without a value (R13) -/
  | copyNoValue {d l a : Nat} : select s = some .ref → d ≤ s.op → s.op + l ≤ s.endAt →
      copyLoop s.params.imgCap s.img (s.op - d) s.op l = .error (.noValue .img a) →
      s.op - d ≤ a → a < s.op - d + l → unitAt s.img a = none → Raises s (.ref d l) (raiseUnnamed s)
  /-- R196, in the hand-over of R176 -/
  | finNotLoaded : s.cmd = .frame → s.palRawValid = false → Raises s .fin (raiseFault .paletteNotLoaded 0 s)
  /-- R195, in the hand-over of R176, after the mark (log entry 13) -/
  | pfinIncomplete : s.cmd = .frame → s.imgValid ≠ s.params.npix →
      Raises s .pfin (raiseFault .imageIncomplete s.imgValid (markPalExp s))
  /-- the palette entry of a pixel holds no value (R13) -/
  | lookupNoValue {k : Byte} : select s = some .pix → unitAt s.palExp k.toNat = none →
      Raises s (.pix k) (raiseUnnamed s)
  /-- R196 -/
  | palxNotLoaded : s.run = .idle → s.palRawValid = false → Raises s .palx (raiseFault .paletteNotLoaded 0 s)
  /-- R195 -/
  | reconIncomplete : s.run = .idle → s.imgValid ≠ s.params.npix →
      Raises s .recon (raiseFault .imageIncomplete s.imgValid s)
  /-- R197 -/
  | reconNotExpanded : s.run = .idle → s.palExpValid = false → Raises s .recon (raiseFault .paletteNotExpanded 0 s)
  /-- a command while the block runs (R199) -/
  | protocol (c : Cmd) : s.run = .busy → Raises s c.instr (raiseFault .hostProtocol c.code.toNat s)

/-- A step that draws no free value and enters no fault. -/
def Quiet (s t : State) : Prop := t.draws = s.draws ∧ (s.run ≠ .fault → t.run ≠ .fault)

theorem Quiet.of_run_eq {s t : State} (hd : t.draws = s.draws) (hr : t.run = s.run) : Quiet s t :=
  ⟨hd, fun h => hr ▸ h⟩

theorem Quiet.of_busy {s t : State} (hd : t.draws = s.draws) (hr : t.run = .busy) : Quiet s t :=
  ⟨hd, fun _ h => by rw [hr] at h; cases h⟩

theorem Quiet.of_idle {s t : State} (hd : t.draws = s.draws) (hr : t.run = .idle) : Quiet s t :=
  ⟨hd, fun _ h => by rw [hr] at h; cases h⟩

/-- Every next state of an instruction is one of its faults or none. -/
theorem exec_next {i : Instr} {s t : State} (h : exec i s = .next t) : Raises s i t ∨ Quiet s t := by
  cases i with
  | hdr d g =>
    obtain ⟨-, ⟨hlt, rfl⟩ | ⟨-, hcap, rfl⟩ | ⟨-, -, rfl⟩⟩ := execHdr_next (g := g) h
    · exact .inl (.underrun (.inl rfl) hlt)
    · exact .inl (.tooLong hcap)
    · exact .inr (.of_run_eq rfl rfl)
  | ctl c =>
    obtain ⟨-, ⟨hlt, rfl⟩ | ⟨-, rfl⟩⟩ := execCtl_next h
    · exact .inl (.underrun (.inr (.inl rfl)) hlt)
    · exact .inr (.of_run_eq rfl rfl)
  | lit v =>
    obtain ⟨-, ⟨hlt, rfl⟩ | ⟨-, -, rfl⟩⟩ := execLit_next h
    · exact .inl (.underrun (.inr (.inr (.inl rfl))) hlt)
    · exact .inr (.of_run_eq rfl rfl)
  | ref d l =>
    obtain ⟨hs, ⟨hlt, rfl⟩ | ⟨-, hd, rfl⟩ | ⟨-, -, hl, rfl⟩ |
      ⟨-, hd, hl, ⟨m, -, rfl⟩ | ⟨a, hc, hlo, hhi, hn, rfl⟩⟩⟩ := execRef_next h
    · exact .inl (.underrun (.inr (.inr (.inr rfl))) hlt)
    · exact .inl (.beforeStart hd)
    · exact .inl (.overrun hl)
    · exact .inr (.of_run_eq rfl rfl)
    · exact .inl (.copyNoValue hs hd hl hc hlo hhi hn)
  | fin =>
    obtain ⟨-, ⟨-, rfl⟩ | ⟨-, -, rfl⟩ | ⟨hc, hp, rfl⟩⟩ := execFin_next h
    · exact .inr (.of_idle rfl rfl)
    · exact .inr (.of_busy rfl rfl)
    · exact .inl (.finNotLoaded hc hp)
  | pexp v =>
    obtain ⟨-, -, rfl⟩ := execPexp_next h
    exact .inr (.of_run_eq rfl rfl)
  | pfin =>
    obtain ⟨-, ⟨-, rfl⟩ | ⟨-, -, rfl⟩ | ⟨hc, hi, rfl⟩⟩ := execPfin_next h
    · exact .inr (.of_idle rfl rfl)
    · exact .inr (.of_busy rfl rfl)
    · exact .inl (.pfinIncomplete hc hi)
  | pix k =>
    obtain ⟨hs, ⟨_, _, -, -, rfl⟩ | ⟨hn, rfl⟩⟩ := execPix_next h
    · exact .inr (.of_run_eq rfl rfl)
    · exact .inl (.lookupNoValue hs hn)
  | rfin =>
    obtain ⟨-, -, rfl⟩ := execRfin_next h
    exact .inr (.of_idle rfl rfl)
  | decomp =>
    obtain ⟨-, rfl⟩ | ⟨hr, rfl⟩ | ⟨-, rfl⟩ := execDecomp_next h
    · exact .inr (.of_busy rfl rfl)
    · exact .inl (.protocol .decomp hr)
    · exact .inr (.of_run_eq rfl rfl)
  | palx =>
    obtain ⟨-, -, rfl⟩ | ⟨hr, hp, rfl⟩ | ⟨hr, rfl⟩ | ⟨-, rfl⟩ := execPalx_next h
    · exact .inr (.of_busy rfl rfl)
    · exact .inl (.palxNotLoaded hr hp)
    · exact .inl (.protocol .palx hr)
    · exact .inr (.of_run_eq rfl rfl)
  | recon =>
    obtain ⟨-, -, -, rfl⟩ | ⟨hr, hi, rfl⟩ | ⟨hr, -, hp, rfl⟩ | ⟨hr, rfl⟩ | ⟨-, rfl⟩ :=
      execRecon_next h
    · exact .inr (.of_busy rfl rfl)
    · exact .inl (.reconIncomplete hr hi)
    · exact .inl (.reconNotExpanded hr hp)
    · exact .inl (.protocol .recon hr)
    · exact .inr (.of_run_eq rfl rfl)
  | frame =>
    obtain ⟨-, rfl⟩ | ⟨hr, rfl⟩ | ⟨-, rfl⟩ := execFrame_next h
    · exact .inr (.of_busy rfl rfl)
    · exact .inl (.protocol .frame hr)
    · exact .inr (.of_run_eq rfl rfl)

/-- An instruction that takes an unfaulted state to a faulted one raised one of its faults. -/
theorem exec_raises {i : Instr} {s t : State} (h : exec i s = .next t) (hs : s.run ≠ .fault) (ht : t.run = .fault) :
    Raises s i t :=
  (exec_next h).resolve_right fun ⟨_, hq⟩ => hq hs ht

/-! ### A fault is precise (R201) -/

/-- `t` differs from `s` in the fault state and the count of draws alone. -/
def Precise (s t : State) : Prop :=
  t = { s with
    run := .fault, faultCause := t.faultCause, faultInfo := t.faultInfo, done := false, draws := t.draws }

theorem precise_raiseFault (c : Cause) (n : Nat) (s : State) : Precise s (raiseFault c n s) := rfl

theorem precise_raiseUnnamed (s : State) : Precise s (raiseUnnamed s) := rfl

theorem precise_raiseNoValue (sp : Space) (s : State) : Precise s (raiseNoValue sp s) := by
  cases sp <;> rfl

/-- Every fault is precise but that of PFIN, which comes after its mark (log entry 13). -/
theorem Raises.precise {i : Instr} {s t : State} (h : Raises s i t) :
    Precise s t ∨ (i = .pfin ∧ s.cmd = .frame ∧ t =
      { s with
        palExpValid := true, run := .fault, faultCause := t.faultCause, faultInfo := t.faultInfo, done := false }) := by
  cases h with
  | pfinIncomplete hc => exact .inr ⟨rfl, hc, rfl⟩
  | copyNoValue | lookupNoValue => exact .inl (precise_raiseUnnamed s)
  | _ => exact .inl (precise_raiseFault _ _ s)

end Sys2Proof.Machine

namespace Sys2Proof.Proofs

open Sys2Proof.Machine

/-- Settles O34: an instruction's faults are those of `Raises`; the block's step adds the faults of its fetch, which
write nothing before they are raised. -/
theorem faultsArePrecise : Obligations.FaultsArePrecise := by
  refine ⟨fun i s t h hs ht => (exec_raises h hs ht).precise, fun s t h hs ht => ?_⟩
  obtain ⟨-, rfl⟩ | ⟨k, hk, hrun⟩ := blockStep_next h
  · exact absurd ht hs
  obtain ⟨-, rfl⟩ | ⟨sp, a, -, rfl⟩ | ⟨bs, i, rest, -, hd, hexec⟩ := runItem_next hrun
  · exact .inl (precise_raiseFault _ _ s)
  · exact .inl (precise_raiseNoValue sp s)
  · refine (exec_raises hexec hs ht).precise.imp_right fun ⟨hi, hc, heq⟩ => ⟨?_, hc, heq⟩
    rw [hk, ← decode_kind hd, hi]
    rfl

end Sys2Proof.Proofs

/-! SUPPORT. What the units' accesses answer under the invariant: every stop of the model is excluded, and only the
input stream can be short of a value. -/

namespace Sys2Proof.Machine

open Sys2Proof.Safety Sys2Proof.Laws

/-! ### The running unit's part of the invariant -/

theorem lzdInv_of {s : State} (hinv : BlockInv s) (hb : s.run = .busy) (hu : s.unit = .lzd) (hp : s.phase = .tok) :
    LzdInv s ∧ s.endAt ≤ s.params.imgCap :=
  have h := hinv.lzd hb hu
  have ⟨_, _, _, hcap⟩ := h.in_tokens hp
  ⟨h, hcap⟩

/-- Under the invariant a back-reference that passes its checks copies (R120): its sources are written before they are
read. -/
theorem copyLoop_of_inv {s : State} {d l : Nat} (hinv : BlockInv s) (hs : select s = some .ref) (hd : 1 ≤ d)
    (hop : d ≤ s.op) (hl : s.op + l ≤ s.endAt) :
    ∃ m, copyLoop s.params.imgCap s.img (s.op - d) s.op l = .ok m := by
  obtain ⟨hb, hu, hp, -⟩ := select_ref.1 hs
  obtain ⟨hlzd, hcap⟩ := lzdInv_of hinv hb hu hp
  refine copyLoop_isOk l (by omega) (by omega) fun a _ ha => (hinv.img_held a).2 ?_
  rwa [hlzd.img_op]

/-- The pixel in the sweep is inside `IMG` (R156). -/
theorem pixelIndex_lt {p : Params} {x y : Nat} (hx : x < p.width) (hy : y < p.height) :
    pixelIndex p x y < p.imgCap := by
  calc y * p.width + x < y * p.width + p.width := by omega
    _ = (y + 1) * p.width := by ring
    _ ≤ p.height * p.width := Nat.mul_le_mul_right _ hy
    _ = p.width * p.height := Nat.mul_comm _ _

/-- The three bytes of a pixel that is due fit into `OUT` (R158): `wp` is a multiple of 3 below `3 * NPIX`. -/
theorem wp_add_three_le {s : State} (h : FrcInv s) (hw : s.wp < s.params.outLen) : s.wp + 3 ≤ s.params.outLen := by
  have heq := h.wp_eq hw
  simp only [Params.outLen] at hw ⊢
  omega

/-- A palette index is inside `PAL_EXP` (R6). -/
theorem index_lt_palSize (k : Byte) : k.toNat < palSize := k.isLt

/-- Every lookup of a running FRC finds a value (R57). -/
theorem palExp_value_of_inv {s : State} (hinv : BlockInv s) (hs : select s = some .pix) (k : Byte) :
    ∃ c, unitAt s.palExp k.toNat = some c := by
  obtain ⟨hb, hu, -⟩ := select_pix.1 hs
  exact Option.isSome_iff_exists.1 (hinv.palExp_held (hinv.frc hb hu).exp_valid k.toNat (index_lt_palSize k))

/-! ### No free value is drawn -/

/-- Under the invariant the faults of a well-formed instruction are named ones. -/
theorem Raises.draws_of_inv {i : Instr} {s t : State} (h : Raises s i t) (hinv : BlockInv s) (hwf : i.wf = true) :
    t.draws = s.draws := by
  cases h with
  | copyNoValue hs hd hl hc =>
    obtain ⟨hpos, -⟩ := ref_wf_iff.1 hwf
    obtain ⟨m, hm⟩ := copyLoop_of_inv hinv hs hpos hd hl
    rw [hm] at hc
    cases hc
  | lookupNoValue hs hn =>
    obtain ⟨c, hc⟩ := palExp_value_of_inv hinv hs _
    rw [hn] at hc
    cases hc
  | _ => rfl

theorem exec_draws_of_inv {i : Instr} {s t : State} (hinv : BlockInv s) (hwf : i.wf = true) (h : exec i s = .next t) :
    t.draws = s.draws := by
  obtain hr | ⟨hq, -⟩ := exec_next h
  · exact hr.draws_of_inv hinv hwf
  · exact hq

/-! ### Every selected step goes on -/

theorem withInput_isNext {n : Nat} {s : State} {body : Out} (h : s.ip + n ≤ s.inLen → ∃ t, body = .next t) :
    ∃ t, withInput n s body = .next t := by
  by_cases hi : s.ip + n ≤ s.inLen
  · rw [withInput_of hi]
    exact h hi
  · exact ⟨_, withInput_underrun (Nat.not_le.1 hi)⟩

theorem execHdr_isNext {s : State} (d : BitVec 24) (g : Byte) (hs : select s = some .hdr) :
    ∃ t, execHdr d g s = .next t := by
  rw [execHdr, whenEnabled_of hs]
  refine withInput_isNext fun _ => ?_
  split
  · exact ⟨_, rfl⟩
  · exact ⟨_, rfl⟩

theorem execCtl_isNext {s : State} (c : Byte) (hs : select s = some .ctl) : ∃ t, execCtl c s = .next t := by
  rw [execCtl, whenEnabled_of hs]
  exact withInput_isNext fun _ => ⟨_, rfl⟩

theorem execLit_isNext {s : State} (v : Byte) (hinv : BlockInv s) (hs : select s = some .lit) :
    ∃ t, execLit v s = .next t := by
  obtain ⟨hb, hu, hp, hop, -⟩ := select_lit.1 hs
  obtain ⟨-, hcap⟩ := lzdInv_of hinv hb hu hp
  rw [execLit, whenEnabled_of hs]
  refine withInput_isNext fun _ => ?_
  rw [writeUnit_ok_iff.2 ⟨by omega, rfl⟩]
  exact ⟨_, rfl⟩

theorem execRef_isNext {s : State} {d l : Nat} (hinv : BlockInv s) (hwf : (Instr.ref d l).wf = true)
    (hs : select s = some .ref) : ∃ t, execRef d l s = .next t := by
  obtain ⟨hpos, -⟩ := ref_wf_iff.1 hwf
  rw [execRef, whenEnabled_of hs]
  refine withInput_isNext fun _ => ?_
  split
  · exact ⟨_, rfl⟩
  · next hd =>
    split
    · exact ⟨_, rfl⟩
    · next hl =>
      obtain ⟨m, hm⟩ := copyLoop_of_inv hinv hs hpos (Nat.not_lt.1 hd) (Nat.not_lt.1 hl)
      rw [hm]
      exact ⟨_, rfl⟩

theorem execFin_isNext {s : State} (hinv : BlockInv s) (hs : select s = some .fin) : ∃ t, execFin s = .next t := by
  obtain ⟨hb, hu, -⟩ := select_fin.1 hs
  rw [execFin, whenEnabled_of hs]
  obtain hc | hc := (hinv.lzd hb hu).cmd_eq <;> rw [hc] <;> exact ⟨_, rfl⟩

theorem execPexp_isNext {s : State} (v : RawEntry) (hs : select s = some .pexp) : ∃ t, execPexp v s = .next t := by
  obtain ⟨-, -, hidx⟩ := select_pexp.1 hs
  rw [execPexp, whenEnabled_of hs, writeUnit_ok_iff.2 ⟨hidx, rfl⟩]
  exact ⟨_, rfl⟩

theorem execPfin_isNext {s : State} (hinv : BlockInv s) (hs : select s = some .pfin) : ∃ t, execPfin s = .next t := by
  obtain ⟨hb, hu, -⟩ := select_pfin.1 hs
  rw [execPfin, whenEnabled_of hs]
  obtain hc | hc := (hinv.pex hb hu).cmd_eq <;> rw [hc] <;> exact ⟨_, rfl⟩

theorem execPix_isNext {s : State} (k : Byte) (hinv : BlockInv s) (hs : select s = some .pix) :
    ∃ t, execPix k s = .next t := by
  obtain ⟨hb, hu, hw⟩ := select_pix.1 hs
  obtain ⟨c, hc⟩ := palExp_value_of_inv hinv hs k
  obtain ⟨m, hm⟩ := writeRun_isOk (sp := .out) (m := s.out) (pixelBytes c) (wp_add_three_le (hinv.frc hb hu) hw)
  rw [execPix, whenEnabled_of hs, readUnit_ok_iff.2 ⟨index_lt_palSize k, hc⟩]
  simp only [hm]
  exact ⟨_, rfl⟩

theorem execRfin_isNext {s : State} (hinv : BlockInv s) (hs : select s = some .rfin) : ∃ t, execRfin s = .next t := by
  obtain ⟨hb, hu, -⟩ := select_rfin.1 hs
  rw [execRfin, whenEnabled_of hs]
  obtain hc | hc := (hinv.frc hb hu).cmd_eq <;> rw [hc] <;> exact ⟨_, rfl⟩

/-- Under the invariant a well-formed instruction of the selected kind answers a next state (R205, R237). -/
theorem exec_isNext {i : Instr} {s : State} (hinv : BlockInv s) (hwf : i.wf = true) (hs : select s = some i.kind) :
    ∃ t, exec i s = .next t := by
  cases i with
  | hdr d g => exact execHdr_isNext d g hs
  | ctl c => exact execCtl_isNext c hs
  | lit v => exact execLit_isNext v hinv hs
  | ref d l => exact execRef_isNext hinv hwf hs
  | fin => exact execFin_isNext hinv hs
  | pexp v => exact execPexp_isNext v hs
  | pfin => exact execPfin_isNext hinv hs
  | pix k => exact execPix_isNext k hinv hs
  | rfin => exact execRfin_isNext hinv hs
  | decomp | palx | recon | frame => exact absurd hs (select_ne_cmd s)

/-! ### The fetch -/

theorem fetch_of_onStream {k : Kind} (hk : onStream k) (s : State) : fetch k s = fetchStream (itemBytes k) s := by
  rcases hk with rfl | rfl | rfl | rfl <;> rfl

/-- A stream item below `IN_LEN` with a byte that holds no value ends in the fault of log entry 8. -/
theorem runItem_of_noValue {k : Kind} {s : State} {a : Nat} (hf : fetch k s = .miss (.noValue .inp a)) :
    runItem k s = .next (raiseFault .inputUnderrun s.ip s) := by
  unfold runItem
  rw [hf]
  rfl

theorem runItem_of_underrun {k : Kind} {s : State} (hf : fetch k s = .underrun) :
    runItem k s = .next (raiseFault .inputUnderrun s.ip s) := by
  unfold runItem
  rw [hf]

/-- A stream item that is short of a byte or of a value faults (R56, log entry 8); any other is fetched whole. -/
theorem runItem_stream {k : Kind} {s : State} (hk : onStream k) (hcap : s.inLen ≤ s.params.inCap) :
    ((s.inLen < s.ip + itemBytes k ∨ ∃ a, s.ip ≤ a ∧ a < s.ip + itemBytes k ∧ ¬ holds s.inp a) ∧
        runItem k s = .next (raiseFault .inputUnderrun s.ip s)) ∨
      (∀ a, s.ip ≤ a → a < s.ip + itemBytes k → holds s.inp a) ∧
        ∃ bs, fetch k s = .item bs ∧ bs.length = itemBytes k := by
  rw [fetch_of_onStream hk]
  obtain ⟨hlt, hf⟩ | ⟨hle, ⟨bs, hf, hlen, hv⟩ | ⟨a, hlo, hhi, ⟨-, hn, hf⟩ | ⟨hout, -⟩⟩⟩ :=
    fetchStream_cases (itemBytes k) s
  · exact .inl ⟨.inl hlt, runItem_of_underrun ((fetch_of_onStream hk s).trans hf)⟩
  · refine .inr ⟨fun a hlo hhi => ?_, bs, hf, hlen⟩
    obtain ⟨-, hva⟩ := hv (a - s.ip) (by omega)
    rw [Nat.add_sub_cancel' hlo] at hva
    have hbound : a - s.ip < bs.length := by omega
    simp [holds, hva, hbound]
  · exact .inl ⟨.inr ⟨a, hlo, hhi, not_holds_iff.2 hn⟩, runItem_of_noValue ((fetch_of_onStream hk s).trans hf)⟩
  · omega

/-- Under the invariant PEX and FRC find the unit they stand at, and a final step fetches nothing (R57, R100). -/
theorem fetch_of_inv {k : Kind} {s : State} (hinv : BlockInv s) (hs : select s = some k) (hk : ¬ onStream k) :
    ∃ bs, fetch k s = .item bs ∧ bs.length = itemBytes k := by
  cases k with
  | hdr | ctl | lit | ref => exact absurd (by simp [onStream]) hk
  | fin | pfin | rfin => exact ⟨[], rfl, rfl⟩
  | cmd => exact absurd hs (select_ne_cmd s)
  | pexp =>
    obtain ⟨hb, hu, hidx⟩ := select_pexp.1 hs
    have hheld := (hinv.palRaw_held s.pidx).2 ⟨(hinv.pex hb hu).raw_valid, hidx⟩
    obtain ⟨v, hv⟩ := Option.isSome_iff_exists.1 hheld
    exact ⟨_, fetchEntry_of hidx hv, rfl⟩
  | pix =>
    obtain ⟨hb, hu, -⟩ := select_pix.1 hs
    have hfrc := hinv.frc hb hu
    have hidx := pixelIndex_lt hfrc.fx_lt hfrc.fy_lt
    obtain ⟨v, hv⟩ := Option.isSome_iff_exists.1 ((hinv.img_held _).2 (hidx.trans_eq hfrc.img_full.symm))
    exact ⟨_, fetchPixel_of hidx hv, rfl⟩

/-- Under the invariant the block's step raises `InputUnderrun` on a stream item that is not whole, or runs a
well-formed instruction of the selected kind. -/
theorem blockStep_of_inv {k : Kind} {s : State} (hinv : BlockInv s) (hs : select s = some k) :
    (onStream k ∧ blockStep s = .next (raiseFault .inputUnderrun s.ip s)) ∨
      ∃ i, i.wf = true ∧ i.kind = k ∧ blockStep s = exec i s := by
  have hitem : (∃ bs, fetch k s = .item bs ∧ bs.length = itemBytes k) →
      ∃ i, i.wf = true ∧ i.kind = k ∧ blockStep s = exec i s := fun ⟨bs, hf, hlen⟩ =>
    have ⟨i, hd⟩ := decode_isOk (fun hc => select_ne_cmd s (hc ▸ hs)) hlen
    ⟨i, decode_wf hd, decode_kind hd, blockStep_of_decoded hs hf hd⟩
  by_cases hk : onStream k
  · obtain ⟨-, hrun⟩ | ⟨-, hf⟩ := runItem_stream hk hinv.inLen_le
    · exact .inl ⟨hk, (blockStep_of hs).trans hrun⟩
    · exact .inr (hitem hf)
  · exact .inr (hitem (fetch_of_inv hinv hs hk))

/-- Under the invariant a running unit has an enabled step (R128, R146, R160). -/
theorem select_of_inv {s : State} (hinv : BlockInv s) (hb : s.run = .busy) : ∃ k, select s = some k := by
  rw [select_eq hb]
  cases hu : s.unit with
  | lzd =>
    have hlzd := hinv.lzd hb hu
    cases hp : s.phase with
    | hdr => exact ⟨.hdr, selectLzd_eq_some.2 (.inl ⟨hp, rfl⟩)⟩
    | tok =>
      obtain ⟨-, -, hop, -⟩ := hlzd.in_tokens hp
      obtain hlt | heq := Nat.lt_or_eq_of_le hop
      · obtain hn | hn := Nat.eq_zero_or_pos s.nbits
        · exact ⟨.ctl, selectLzd_eq_some.2 (.inr ⟨hp, .inr (.inl ⟨hlt, hn, rfl⟩)⟩)⟩
        · cases hf : tokenFlag s with
          | false => exact ⟨.lit, selectLzd_eq_some.2 (.inr ⟨hp, .inr (.inr (.inl ⟨hlt, hn, hf, rfl⟩))⟩)⟩
          | true => exact ⟨.ref, selectLzd_eq_some.2 (.inr ⟨hp, .inr (.inr (.inr ⟨hlt, hn, hf, rfl⟩))⟩)⟩
      · exact ⟨.fin, selectLzd_eq_some.2 (.inr ⟨hp, .inl ⟨heq, rfl⟩⟩)⟩
  | pex =>
    have hle := (hinv.pex hb hu).pidx_le
    obtain h | h := Nat.lt_or_eq_of_le hle
    · exact ⟨_, selectPex_eq_some.2 (.inl ⟨h, rfl⟩)⟩
    · exact ⟨_, selectPex_eq_some.2 (.inr ⟨h, rfl⟩)⟩
  | frc =>
    have hle := (hinv.frc hb hu).wp_le
    obtain h | h := Nat.lt_or_eq_of_le hle
    · exact ⟨_, selectFrc_eq_some.2 (.inl ⟨h, rfl⟩)⟩
    · exact ⟨_, selectFrc_eq_some.2 (.inr ⟨h, rfl⟩)⟩

/-- Under the invariant the block's step answers a next state (R184, R237). -/
theorem blockStep_isNext {s : State} (hinv : BlockInv s) : ∃ t, blockStep s = .next t := by
  cases hr : s.run with
  | idle => exact ⟨s, by rw [blockStep, hr]⟩
  | fault => exact ⟨s, by rw [blockStep, hr]⟩
  | busy =>
    obtain ⟨k, hk⟩ := select_of_inv hinv hr
    obtain ⟨-, h⟩ | ⟨i, hwf, rfl, h⟩ := blockStep_of_inv hinv hk
    · exact ⟨_, h⟩
    · rw [h]
      exact exec_isNext hinv hwf hk

end Sys2Proof.Machine

/-! SUPPORT. The reads that find no value (R13), and the obligations about faults. -/

namespace Sys2Proof.Machine

open Sys2Proof.Safety Sys2Proof.Laws

/-- A copy that succeeds read a value at each source below its destination: nothing the loop writes lies there. -/
theorem copyLoop_ok_source {cap : Nat} {m m' : Cells 8} {src dst n i : Nat} (h : copyLoop cap m src dst n = .ok m')
    (hi : i < n) (hlt : src + i < dst) : holds m (src + i) := by
  induction n generalizing src dst m i with
  | zero => omega
  | succ n ih =>
    unfold copyLoop at h
    split at h
    · cases h
    · next v hv =>
      obtain ⟨-, hval⟩ := readUnit_ok_iff.1 hv
      split at h
      · cases h
      · next m1 hm1 =>
        obtain ⟨-, rfl⟩ := writeUnit_ok_iff.1 hm1
        cases i with
        | zero => simp [holds, hval]
        | succ i =>
          have hrest := ih h (i := i) (by omega) (by omega)
          rw [holds_putUnit, show src + 1 + i = src + (i + 1) by omega] at hrest
          exact hrest.resolve_left (by omega)

/-- A copy inside `IMG` with a source that holds no value stops at such a read. -/
theorem copyLoop_of_noValue {cap : Nat} {m : Cells 8} {src dst n i : Nat} (hcap : dst + n ≤ cap) (hi : i < n)
    (hlt : src + i < dst) (hn : ¬ holds m (src + i)) : ∃ a, copyLoop cap m src dst n = .error (.noValue .img a) := by
  cases h : copyLoop cap m src dst n with
  | ok m' => exact absurd (copyLoop_ok_source h hi hlt) hn
  | error f =>
    obtain ⟨a, ⟨rfl, -⟩ | ⟨-, hout, hin⟩⟩ := copyLoop_error h
    · exact ⟨a, rfl⟩
    · omega

/-- A back-reference that passes its checks and whose copy stops (R118). -/
theorem execRef_of_miss {s : State} {d l : Nat} {f : Miss} (hs : select s = some .ref) (hi : s.ip + 2 ≤ s.inLen)
    (hd : d ≤ s.op) (hl : s.op + l ≤ s.endAt)
    (hc : copyLoop s.params.imgCap s.img (s.op - d) s.op l = .error f) : execRef d l s = missed f s := by
  rw [execRef, whenEnabled_of hs, withInput_of hi, if_neg (Nat.not_lt.2 hd), if_neg (Nat.not_lt.2 hl), hc]

/-- A pixel whose palette entry holds no value. -/
theorem execPix_of_noValue {s : State} {k : Byte} (hs : select s = some .pix) (hn : ¬ holds s.palExp k.toNat) :
    execPix k s = .next (raiseUnnamed s) := by
  rw [execPix, whenEnabled_of hs,
    readUnit_error_iff.2 (.inl ⟨index_lt_palSize k, not_holds_iff.1 hn, rfl⟩)]
  rfl

/-- A selected step whose unit of another space than `IN` holds no value draws a free fault (log entry 26). -/
theorem blockStep_of_miss {k : Kind} {s : State} {sp : Space} {a : Nat} (hs : select s = some k) (hsp : sp ≠ .inp)
    (hf : fetch k s = .miss (.noValue sp a)) : blockStep s = .next (raiseUnnamed s) := by
  have hraise : raiseNoValue sp s = raiseUnnamed s := by
    obtain ⟨h, -⟩ | ⟨-, h⟩ := raiseNoValue_cases sp s
    · exact absurd h hsp
    · exact h
  rw [blockStep_of hs, runItem, hf, ← hraise]
  rfl

theorem fetchEntry_of_noValue {s : State} (hi : s.pidx < palSize) (hn : ¬ holds s.palRaw s.pidx) :
    fetch .pexp s = .miss (.noValue .palRaw s.pidx) := by
  rw [fetch, fetchEntry, readUnit_error_iff.2 (.inl ⟨hi, not_holds_iff.1 hn, rfl⟩)]

theorem fetchPixel_of_noValue {s : State} (hi : pixelIndex s.params s.fx s.fy < s.params.imgCap)
    (hn : ¬ holds s.img (pixelIndex s.params s.fx s.fy)) :
    fetch .pix s = .miss (.noValue .img (pixelIndex s.params s.fx s.fy)) := by
  rw [fetch, fetchPixel, readUnit_error_iff.2 (.inl ⟨hi, not_holds_iff.1 hn, rfl⟩)]

end Sys2Proof.Machine

namespace Sys2Proof.Proofs

open Sys2Proof.Machine Sys2Proof.Safety Sys2Proof.Laws

/-- Settles O35: the causes are read off `Raises`, way by way; under the invariant none of them is a free one. -/
theorem causesOfEachStep : Obligations.CausesOfEachStep := by
  refine ⟨fun i s t hinv hwf h => exec_draws_of_inv hinv hwf h, fun i s t h hs ht => ?_⟩
  cases exec_raises h hs ht with
  | underrun hk =>
    cases i with
    | hdr | ref => exact .inl (by simp [Cause.code])
    | ctl | lit => exact ⟨rfl, rfl⟩
    | _ => simp [onStream, Instr.kind] at hk
  | tooLong => exact .inr ⟨rfl, BitVec.ofNat_toNat _ _⟩
  | beforeStart => exact .inl ⟨.inr (.inl rfl), rfl⟩
  | overrun => exact .inl ⟨.inr (.inr rfl), rfl⟩
  | copyNoValue _ _ _ _ hlo hhi hn =>
    exact .inr ⟨⟨_, hlo, hhi, not_holds_iff.2 hn⟩, faultedUnnamed_raiseUnnamed s⟩
  | finNotLoaded hc => exact ⟨hc, rfl, rfl⟩
  | pfinIncomplete hc => exact ⟨hc, rfl, rfl⟩
  | lookupNoValue _ hn => exact ⟨not_holds_iff.2 hn, faultedUnnamed_raiseUnnamed s⟩
  | palxNotLoaded hr => exact .inl ⟨hr, rfl, rfl⟩
  | reconIncomplete hr => exact .inl ⟨hr, rfl, rfl⟩
  | reconNotExpanded hr => exact .inr (.inl ⟨hr, rfl, rfl⟩)
  | protocol c hr =>
    cases c with
    | decomp | frame => exact ⟨hr, rfl, rfl⟩
    | palx => exact .inr ⟨hr, rfl, rfl⟩
    | recon => exact .inr (.inr ⟨hr, rfl, rfl⟩)

/-- Settles O36: under the invariant the block's step is an `InputUnderrun` of the fetch or runs an instruction of the
selected kind, whose faults are those of `Raises` but for the free ones. -/
theorem faultsOfTheBlock : Obligations.FaultsOfTheBlock := by
  intro s t k hinv hs h ht
  have hrun : s.run ≠ .fault := by simp [select_busy hs]
  obtain ⟨hk, hb⟩ | ⟨i, hwf, rfl, hb⟩ := blockStep_of_inv hinv hs
  · rw [hb] at h
    obtain rfl := Host.Outcome.next.inj h
    rcases hk with rfl | rfl | rfl | rfl <;> simp [Cause.code]
  · rw [hb] at h
    have hdraws : t.draws = s.draws := exec_draws_of_inv hinv hwf h
    refine ⟨hdraws, ?_⟩
    cases exec_raises h hrun ht with
    | underrun hk =>
      generalize i.kind = k at hk
      rcases hk with rfl | rfl | rfl | rfl <;> simp [Cause.code]
    | @tooLong d g hcap =>
      have hd : d.toNat < 2 ^ 32 := d.isLt.trans (by decide)
      exact .inr ⟨rfl, by rwa [raiseFault_faultInfo, BitVec.toNat_ofNat, Nat.mod_eq_of_lt hd]⟩
    | beforeStart => exact ⟨.inr (.inl rfl), rfl⟩
    | overrun => exact ⟨.inr (.inr rfl), rfl⟩
    | finNotLoaded hc hp => exact ⟨hc, hp, rfl, rfl⟩
    | pfinIncomplete hc hi => exact ⟨hc, hi, rfl, rfl⟩
    | copyNoValue | lookupNoValue => exact absurd hdraws (Nat.succ_ne_self s.draws)
    | palxNotLoaded | reconIncomplete | reconNotExpanded => exact absurd hs (select_ne_cmd s)
    | protocol c => cases c <;> exact absurd hs (select_ne_cmd s)

/-- Settles O37: each read that finds no value ends in the fault of R13. -/
theorem valuelessReadFaults : Obligations.ValuelessReadFaults := by
  refine ⟨fun s k n hkn hs hle hcap hmiss => ?_, fun s hs hn => ?_, fun s hs hidx hn => ?_, fun s k hs hn => ?_,
    fun s d l hs hi hpos hd hl hend hmiss => ?_⟩
  · have hk : onStream k ∧ n = itemBytes k := by
      rcases hkn with ⟨rfl, rfl⟩ | ⟨rfl, rfl⟩ | ⟨rfl, rfl⟩ | ⟨rfl, rfl⟩ <;> simp [onStream, itemBytes]
    obtain ⟨hstream, rfl⟩ := hk
    obtain ⟨a, hlo, hhi, hna⟩ := hmiss
    obtain ⟨-, hrun⟩ | ⟨hall, -⟩ := runItem_stream hstream hcap
    · exact (blockStep_of hs).trans hrun
    · exact absurd (hall a hlo hhi) hna
  · obtain ⟨-, -, hidx⟩ := select_pexp.1 hs
    exact ⟨_, blockStep_of_miss hs (by decide) (fetchEntry_of_noValue hidx hn), faultedUnnamed_raiseUnnamed s⟩
  · exact ⟨_, blockStep_of_miss hs (by decide) (fetchPixel_of_noValue hidx hn), faultedUnnamed_raiseUnnamed s⟩
  · exact ⟨_, execPix_of_noValue hs hn, faultedUnnamed_raiseUnnamed s⟩
  · obtain ⟨i, hid, hil, hni⟩ := hmiss
    obtain ⟨a, hc⟩ := copyLoop_of_noValue (hl.trans hend) hil (by omega) hni
    exact ⟨_, execRef_of_miss hs hi hd hl hc, faultedUnnamed_raiseUnnamed s⟩

/-- Settles O44: under the invariant the block's step answers a next state, so no stop. -/
theorem nothingStopsTheBlock : Obligations.NothingStopsTheBlock := by
  intro s hinv
  obtain ⟨t, ht⟩ := blockStep_isNext hinv
  refine ⟨fun f hf => ?_, fun r hr => ?_, resetBlock s, rfl, rfl⟩
  · rw [ht] at hf
    cases hf
  · rw [ht] at hr
    cases hr

end Sys2Proof.Proofs

/-! SUPPORT. The invariant of the block: what keeps it, operation by operation, then for every instruction, every step
of the block and every move of the host. -/

namespace Sys2Proof.Safety

open Sys2Proof.Machine

/-! ### The part of the invariant that speaks of the buffers -/

/-- The block at rest, with the parameters, the buffers and the marks of `s` and nothing else of it. -/
def atRest (s : State) : State :=
  { State.resetWith s.params [] .nothing 0 with
    inLen := s.inLen, inp := s.inp, img := s.img, imgValid := s.imgValid, palRaw := s.palRaw,
    palRawValid := s.palRawValid, palExp := s.palExp, palExpValid := s.palExpValid, out := s.out,
    outValid := s.outValid }

/-- What the invariant says of the parameters, the buffers and their marks, whatever the sequencer and the units do.
An operation that writes none of them keeps it by definition, because `atRest` is the same before and after. -/
def StorageInv (s : State) : Prop := BlockInv (atRest s)

theorem BlockInv.storage {s : State} (h : BlockInv s) : StorageInv s :=
  { h with
    fault_iff := by simp [atRest, State.resetWith]
    cause_le := by simp [atRest, State.resetWith]
    info_zero := fun _ => rfl
    done_idle := fun _ => rfl
    lzd := nofun
    pex := nofun
    frc := nofun }

section Buffers

variable {s : State} (h : StorageInv s)
include h

theorem StorageInv.withInp {m : Cells 8} {n : Nat} (hwf : Memory.wf m) (hle : n ≤ s.params.inCap)
    (hbelow : ∀ a, holds m a → a < n) : StorageInv { s with inp := m, inLen := n } :=
  { h with inp_wf := hwf, inLen_le := hle, inp_below := hbelow, lzd := nofun, pex := nofun, frc := nofun }

theorem StorageInv.withImg {m : Cells 8} {n : Nat} (hwf : Memory.wf m) (hle : n ≤ s.params.imgCap)
    (hheld : ∀ a, holds m a ↔ a < n) : StorageInv { s with img := m, imgValid := n } :=
  { h with img_wf := hwf, imgValid_le := hle, img_held := hheld, lzd := nofun, pex := nofun, frc := nofun }

theorem StorageInv.withPalRaw {m : Cells 16} {v : Bool} (hwf : Memory.wf m)
    (hheld : ∀ a, holds m a ↔ v = true ∧ a < palSize) : StorageInv { s with palRaw := m, palRawValid := v } :=
  { h with palRaw_wf := hwf, palRaw_held := hheld, lzd := nofun, pex := nofun, frc := nofun }

theorem StorageInv.withPalExp {m : Cells 24} {v : Bool} (hwf : Memory.wf m) (hbelow : ∀ a, holds m a → a < palSize)
    (hheld : v = true → ∀ a, a < palSize → holds m a) : StorageInv { s with palExp := m, palExpValid := v } :=
  { h with
    palExp_wf := hwf, palExp_below := hbelow, palExp_held := hheld, lzd := nofun, pex := nofun, frc := nofun }

theorem StorageInv.withOut {m : Cells 8} {v : Bool} (hwf : Memory.wf m)
    (hbelow : ∀ a, holds m a → a < s.params.outLen) (hheld : v = true → ∀ a, a < s.params.outLen → holds m a) :
    StorageInv { s with out := m, outValid := v } :=
  { h with out_wf := hwf, out_below := hbelow, out_held := hheld, lzd := nofun, pex := nofun, frc := nofun }

end Buffers

/-! ### The rest of the invariant, for each value of `run` -/

/-- No fault is recorded (R40, R41). -/
def Unfaulted (s : State) : Prop := s.faultCause = 0 ∧ s.faultInfo = 0

theorem BlockInv.unfaulted {s : State} (h : BlockInv s) (hr : s.run ≠ .fault) : Unfaulted s :=
  ⟨not_not.1 fun hc => hr (h.fault_iff.2 hc), h.info_zero hr⟩

theorem BlockInv.unfaulted_of_busy {s : State} (h : BlockInv s) (hr : s.run = .busy) : Unfaulted s :=
  h.unfaulted (by simp [hr])

theorem BlockInv.not_done {s : State} (h : BlockInv s) (hr : s.run = .busy) : s.done = false := by
  cases hd : s.done with
  | false => rfl
  | true => simp [h.done_idle hd] at hr

theorem StorageInv.of_idle {s : State} (h : StorageInv s) (hf : Unfaulted s) (hr : s.run = .idle) : BlockInv s :=
  { h with
    fault_iff := by simp [hr, hf.1]
    cause_le := by simp [hf.1]
    info_zero := fun _ => hf.2
    done_idle := fun _ => hr
    lzd := fun hb => by simp [hr] at hb
    pex := fun hb => by simp [hr] at hb
    frc := fun hb => by simp [hr] at hb }

theorem StorageInv.of_fault {s : State} (h : StorageInv s) (hr : s.run = .fault)
    (hc : s.faultCause ≠ 0 ∧ s.faultCause ≤ 9) (hd : s.done = false) : BlockInv s :=
  { h with
    fault_iff := iff_of_true hr hc.1
    cause_le := hc.2
    info_zero := fun hr' => absurd hr hr'
    done_idle := fun hd' => by simp [hd] at hd'
    lzd := fun hb => by simp [hr] at hb
    pex := fun hb => by simp [hr] at hb
    frc := fun hb => by simp [hr] at hb }

theorem StorageInv.of_busy {s : State} (h : StorageInv s) (hf : Unfaulted s) (hr : s.run = .busy)
    (hd : s.done = false) (hlzd : s.unit = .lzd → LzdInv s) (hpex : s.unit = .pex → PexInv s)
    (hfrc : s.unit = .frc → FrcInv s) : BlockInv s :=
  { h with
    fault_iff := by simp [hr, hf.1]
    cause_le := by simp [hf.1]
    info_zero := fun _ => hf.2
    done_idle := fun hd' => by simp [hd] at hd'
    lzd := fun _ => hlzd
    pex := fun _ => hpex
    frc := fun _ => hfrc }

/-- A running block whose LZD is left where its rules leave it. -/
theorem StorageInv.of_lzd {s : State} (h : StorageInv s) (hf : Unfaulted s) (hr : s.run = .busy) (hd : s.done = false)
    (hu : s.unit = .lzd) (hlzd : LzdInv s) : BlockInv s :=
  h.of_busy hf hr hd (fun _ => hlzd) (fun hu' => by simp [hu] at hu') (fun hu' => by simp [hu] at hu')

/-- A running block whose PEX is left where its rules leave it. -/
theorem StorageInv.of_pex {s : State} (h : StorageInv s) (hf : Unfaulted s) (hr : s.run = .busy) (hd : s.done = false)
    (hu : s.unit = .pex) (hpex : PexInv s) : BlockInv s :=
  h.of_busy hf hr hd (fun hu' => by simp [hu] at hu') (fun _ => hpex) (fun hu' => by simp [hu] at hu')

/-- A running block whose FRC is left where its rules leave it. -/
theorem StorageInv.of_frc {s : State} (h : StorageInv s) (hf : Unfaulted s) (hr : s.run = .busy) (hd : s.done = false)
    (hu : s.unit = .frc) (hfrc : FrcInv s) : BlockInv s :=
  h.of_busy hf hr hd (fun hu' => by simp [hu] at hu') (fun hu' => by simp [hu] at hu') (fun _ => hfrc)

/-- The invariant does not speak of the schedule and the reply (log entry 6). -/
theorem BlockInv.withTurnsReply {s : State} (h : BlockInv s) (ts : List Turn) (r : Reply) :
    BlockInv { s with turns := ts, reply := r } :=
  { h with
    lzd := fun hb hu => { h.lzd hb hu with }
    pex := fun hb hu => { h.pex hb hu with }
    frc := fun hb hu => { h.frc hb hu with } }

/-! ### Faults, the end of a command, and reset -/

/-- The code of a named cause is one of the nine (R190). -/
theorem cause_code_range (c : Cause) : c.code ≠ 0 ∧ c.code ≤ 9 := by
  cases c <;> decide

theorem StorageInv.raiseFault {s : State} (h : StorageInv s) (c : Cause) (n : Nat) : BlockInv (raiseFault c n s) :=
  StorageInv.of_fault (s := Machine.raiseFault c n s) h rfl (cause_code_range c) rfl

theorem StorageInv.raiseUnnamed {s : State} (h : StorageInv s) : BlockInv (raiseUnnamed s) :=
  StorageInv.of_fault (s := Machine.raiseUnnamed s) h rfl (freeFaultCode_range s.draws) rfl

theorem StorageInv.raiseNoValue {s : State} (h : StorageInv s) (sp : Space) : BlockInv (raiseNoValue sp s) := by
  obtain ⟨-, heq⟩ | ⟨-, heq⟩ := raiseNoValue_cases sp s <;> rw [heq]
  · exact h.raiseFault _ _
  · exact h.raiseUnnamed

theorem StorageInv.complete {s : State} (h : StorageInv s) (hf : Unfaulted s) : BlockInv (complete s) :=
  StorageInv.of_idle (s := Machine.complete s) h hf rfl

theorem not_holds_nil {w : Nat} (a : Nat) : ¬ holds ([] : Cells w) a := by simp [holds]

/-- An empty buffer holds the units below 0. -/
theorem holds_nil_iff {w : Nat} (a : Nat) : holds ([] : Cells w) a ↔ a < 0 :=
  iff_of_false (not_holds_nil a) (Nat.not_lt_zero a)

/-- The state after reset meets the invariant for every legal geometry (R45). -/
theorem blockInv_resetWith {p : Params} (hp : p.wf) (ts : List Turn) (r : Reply) (n : Nat) :
    BlockInv (State.resetWith p ts r n) where
  params_wf := hp
  inp_wf := Memory.wf_nil
  img_wf := Memory.wf_nil
  palRaw_wf := Memory.wf_nil
  palExp_wf := Memory.wf_nil
  out_wf := Memory.wf_nil
  inLen_le := Nat.zero_le _
  inp_below a ha := absurd ha (not_holds_nil a)
  imgValid_le := Nat.zero_le _
  img_held := holds_nil_iff
  palRaw_held a := iff_of_false (not_holds_nil a) (by simp [State.resetWith])
  palExp_below a ha := absurd ha (not_holds_nil a)
  palExp_held := nofun
  out_below a ha := absurd ha (not_holds_nil a)
  out_held := nofun
  fault_iff := by simp [State.resetWith]
  cause_le := by simp [State.resetWith]
  info_zero _ := rfl
  done_idle _ := rfl
  lzd := nofun
  pex := nofun
  frc := nofun

/-- The geometry of the block after reset is legal, whatever was drawn (R5, R8). -/
theorem config_params_wf : Config.params.wf where
  width_pos := Nat.le_add_left 1 _
  height_pos := Nat.le_add_left 1 _
  npix_le := by
    have hh : Config.height ≤ declMax := Nat.mod_lt _ (by decide)
    have hq : 0 < declMax / Config.height := Nat.div_pos hh (Nat.succ_pos _)
    have hw : Config.width ≤ declMax / Config.height := Nat.mod_lt _ hq
    exact (Nat.mul_le_mul_right _ hw).trans (Nat.div_mul_le_self _ _)
  inCap_ge := Nat.le_add_left 4 _
  inCap_lt := Nat.add_lt_add_right (Nat.mod_lt Config.inCapDraw (by decide : 0 < 4294967292)) 4

/-! ### Starting a unit -/

theorem StorageInv.startLzd {s : State} (h : StorageInv s) (hf : Unfaulted s) {c : Cmd}
    (hc : c = .decomp ∨ c = .frame) : BlockInv (startLzd c s) :=
  StorageInv.of_lzd (s := Machine.startLzd c s)
    (h.withImg Memory.wf_nil (Nat.zero_le _) holds_nil_iff) hf rfl rfl rfl
    { cmd_eq := hc
      img_op := rfl
      nbits_le := Nat.zero_le _
      at_header := fun _ => ⟨rfl, rfl, rfl, rfl, rfl⟩
      in_tokens := nofun }

theorem StorageInv.startPex {s : State} (h : StorageInv s) (hf : Unfaulted s) (hd : s.done = false)
    (hc : s.cmd = .palx ∨ s.cmd = .frame) (hp : s.palRawValid = true) : BlockInv (startPex s) :=
  StorageInv.of_pex (s := Machine.startPex s)
    (h.withPalExp Memory.wf_nil (fun a ha => absurd ha (not_holds_nil a)) nofun) hf rfl hd rfl
    { cmd_eq := hc
      raw_valid := hp
      exp_open := rfl
      pidx_le := Nat.zero_le _
      written := holds_nil_iff }

theorem StorageInv.startFrc {s : State} (h : StorageInv s) (hf : Unfaulted s) (hd : s.done = false)
    (hc : s.cmd = .recon ∨ s.cmd = .frame) (hi : s.imgValid = s.params.npix) (hp : s.palExpValid = true) :
    BlockInv (startFrc s) :=
  StorageInv.of_frc (s := Machine.startFrc s)
    (h.withOut Memory.wf_nil (fun a ha => absurd ha (not_holds_nil a)) nofun) hf rfl hd rfl
    { cmd_eq := hc
      img_full := hi
      exp_valid := hp
      out_open := rfl
      wp_le := Nat.zero_le _
      fy_lt := Nat.sub_lt h.params_wf.height_pos Nat.one_pos
      fx_lt := h.params_wf.width_pos
      wp_eq := fun _ => by simp
      written := holds_nil_iff }

/-! ### The running units, instruction by instruction -/

/-- A token keeps the invariant when its bytes are the `n` from `op` up and it stays within what was declared. -/
theorem BlockInv.afterToken {s : State} (h : BlockInv s) (hb : s.run = .busy) (hu : s.unit = .lzd)
    (hp : s.phase = .tok) {n k : Nat} {m : Cells 8} (hend : s.op + n ≤ s.endAt) (hip : s.ip + k ≤ s.inLen)
    (hwf : Memory.wf m) (hheld : ∀ a, holds m a ↔ a < s.op + n) : BlockInv (afterToken n k m s) := by
  obtain ⟨hlzd, hcap⟩ := lzdInv_of h hb hu hp
  obtain ⟨hlo, -, -, -⟩ := hlzd.in_tokens hp
  exact StorageInv.of_lzd (s := Machine.afterToken n k m s) (h.storage.withImg hwf (hend.trans hcap) hheld)
    (h.unfaulted_of_busy hb) hb (h.not_done hb) hu
    { cmd_eq := hlzd.cmd_eq
      img_op := rfl
      nbits_le := (Nat.sub_le _ _).trans hlzd.nbits_le
      at_header := fun hp' => by simp [hp] at hp'
      in_tokens := fun _ => ⟨hlo.trans (Nat.le_add_right _ _), hip, hend, hcap⟩ }

/-- The sweep stays inside the frame, and its place is the number of pixels written (R157, R158). -/
theorem nextPixel_sweep {p : Params} {x y wp : Nat} (hx : x < p.width) (hy : y < p.height)
    (hwp : wp = 3 * ((p.height - 1 - y) * p.width + x)) :
    (nextPixel p x y).1 < p.width ∧ (nextPixel p x y).2 < p.height ∧
      (wp + 3 < p.outLen →
        wp + 3 = 3 * ((p.height - 1 - (nextPixel p x y).2) * p.width + (nextPixel p x y).1)) := by
  unfold nextPixel
  split
  · next hrow => exact ⟨hrow, hy, fun _ => by subst hwp; ring⟩
  · next hrow =>
    have hlast : x + 1 = p.width := by omega
    split
    · next hpos =>
      refine ⟨by omega, by omega, fun _ => ?_⟩
      have hrows : p.height - 1 - (y - 1) = p.height - 1 - y + 1 := by omega
      rw [hwp, hrows, Nat.add_mul, ← hlast]
      ring
    · next hpos =>
      refine ⟨by omega, hy, fun hlt => absurd hlt (Nat.not_lt.2 (Nat.le_of_eq ?_))⟩
      obtain rfl : y = 0 := by omega
      have hrows : p.height = p.height - 1 + 1 := by omega
      calc p.outLen = 3 * (p.width * (p.height - 1 + 1)) := by rw [← hrows]; rfl
        _ = 3 * ((p.height - 1) * p.width + (x + 1)) := by rw [hlast]; ring
        _ = wp + 3 := by rw [hwp, Nat.sub_zero]; ring

theorem BlockInv.afterPixel {s : State} (h : BlockInv s) (hs : select s = some .pix) {c : Colour} {m : Cells 8}
    (hm : writeRun .out s.params.outLen s.out s.wp (pixelBytes c) = .ok m) : BlockInv (afterPixel m s) := by
  obtain ⟨hb, hu, hw⟩ := select_pix.1 hs
  have hfrc := h.frc hb hu
  have hle := wp_add_three_le hfrc hw
  obtain ⟨-, hval, hwf⟩ := writeRun_ok hm
  have hheld : ∀ a, holds m a ↔ a < s.wp + 3 := fun a => by
    have hlen : (pixelBytes c).length = 3 := rfl
    have hold := hfrc.written a
    unfold holds at hold ⊢
    rw [hval a, hlen]
    split
    · next hin =>
      have hbound : a - s.wp < (pixelBytes c).length := by omega
      simp [hbound, hin.2]
    · next hout => rw [hold]; omega
  obtain ⟨hx, hy, hwp⟩ := nextPixel_sweep hfrc.fx_lt hfrc.fy_lt (hfrc.wp_eq hw)
  exact StorageInv.of_frc (s := Machine.afterPixel m s)
    (h.storage.withOut (hwf h.out_wf) (fun a ha => ((hheld a).1 ha).trans_le hle)
      fun hv => by simp [hfrc.out_open] at hv)
    (h.unfaulted_of_busy hb) hb (h.not_done hb) hu
    { hfrc with wp_le := hle, fy_lt := hy, fx_lt := hx, wp_eq := hwp, written := hheld }

theorem execHdr_keeps_inv {d : BitVec 24} {g : Byte} {s t : State} (h : BlockInv s) (he : execHdr d g s = .next t) :
    BlockInv t := by
  obtain ⟨hs, ⟨-, rfl⟩ | ⟨-, -, rfl⟩ | ⟨hip, hcap, rfl⟩⟩ := execHdr_next he
  · exact h.storage.raiseFault _ _
  · exact h.storage.raiseFault _ _
  · obtain ⟨hb, hu, hp⟩ := select_hdr.1 hs
    have hlzd := h.lzd hb hu
    obtain ⟨-, hop, -⟩ := hlzd.at_header hp
    exact StorageInv.of_lzd h.storage (h.unfaulted_of_busy hb) hb (h.not_done hb) hu
      { cmd_eq := hlzd.cmd_eq
        img_op := hlzd.img_op.trans hop
        nbits_le := Nat.zero_le _
        at_header := nofun
        in_tokens := fun _ => ⟨Nat.le_add_left _ _, hip, Nat.zero_le _, hcap⟩ }

theorem execCtl_keeps_inv {c : Byte} {s t : State} (h : BlockInv s) (he : execCtl c s = .next t) : BlockInv t := by
  obtain ⟨hs, ⟨-, rfl⟩ | ⟨hip, rfl⟩⟩ := execCtl_next he
  · exact h.storage.raiseFault _ _
  · obtain ⟨hb, hu, hp, -⟩ := select_ctl.1 hs
    have hlzd := h.lzd hb hu
    obtain ⟨hlo, -, hop, hend⟩ := hlzd.in_tokens hp
    exact StorageInv.of_lzd h.storage (h.unfaulted_of_busy hb) hb (h.not_done hb) hu
      { hlzd with
        nbits_le := Nat.le_refl _
        at_header := fun hp' => by simp [hp] at hp'
        in_tokens := fun _ => ⟨hlo.trans (Nat.le_add_right _ _), hip, hop, hend⟩ }

theorem execLit_keeps_inv {v : Byte} {s t : State} (h : BlockInv s) (he : execLit v s = .next t) : BlockInv t := by
  obtain ⟨hs, ⟨-, rfl⟩ | ⟨hip, -, rfl⟩⟩ := execLit_next he
  · exact h.storage.raiseFault _ _
  · obtain ⟨hb, hu, hp, hop, -⟩ := select_lit.1 hs
    refine h.afterToken hb hu hp hop hip (putUnit_wf _ _ h.img_wf) fun a => ?_
    rw [holds_putUnit, h.img_held, (h.lzd hb hu).img_op]
    omega

theorem execRef_keeps_inv {d l : Nat} {s t : State} (h : BlockInv s) (he : execRef d l s = .next t) : BlockInv t := by
  obtain ⟨hs, ⟨-, rfl⟩ | ⟨-, -, rfl⟩ | ⟨-, -, -, rfl⟩ | ⟨hip, -, hend, ⟨m, hm, rfl⟩ | ⟨_, -, -, -, -, rfl⟩⟩⟩ :=
    execRef_next he
  · exact h.storage.raiseFault _ _
  · exact h.storage.raiseFault _ _
  · exact h.storage.raiseFault _ _
  · obtain ⟨hb, hu, hp, -⟩ := select_ref.1 hs
    obtain ⟨-, hnew, hold, hwf⟩ := copyLoop_ok hm
    refine h.afterToken hb hu hp hend hip (hwf h.img_wf) fun a => ?_
    by_cases ha : s.op ≤ a ∧ a < s.op + l
    · have := hnew (a - s.op) (by omega)
      rw [Nat.add_sub_cancel' ha.1] at this
      exact iff_of_true this ha.2
    · have himg := h.img_held a
      rw [(h.lzd hb hu).img_op] at himg
      rw [holds, hold a ha, ← holds, himg]
      omega
  · exact h.storage.raiseUnnamed

theorem execFin_keeps_inv {s t : State} (h : BlockInv s) (he : execFin s = .next t) : BlockInv t := by
  obtain ⟨hs, hcases⟩ := execFin_next he
  have hb := select_busy hs
  have hf := h.unfaulted_of_busy hb
  obtain ⟨-, rfl⟩ | ⟨hc, hp, rfl⟩ | ⟨-, -, rfl⟩ := hcases
  · exact h.storage.complete hf
  · exact h.storage.startPex hf (h.not_done hb) (.inr hc) hp
  · exact h.storage.raiseFault _ _

theorem execPexp_keeps_inv {v : RawEntry} {s t : State} (h : BlockInv s) (he : execPexp v s = .next t) :
    BlockInv t := by
  obtain ⟨hs, hidx, rfl⟩ := execPexp_next he
  obtain ⟨hb, hu, -⟩ := select_pexp.1 hs
  have hpex := h.pex hb hu
  have hheld : ∀ a, holds (putUnit s.palExp s.pidx (expand s.params.layout v)) a ↔ a < s.pidx + 1 := fun a => by
    rw [holds_putUnit, hpex.written]
    omega
  have hstorage := h.storage.withPalExp (v := s.palExpValid) (putUnit_wf s.pidx (expand s.params.layout v) h.palExp_wf)
    (fun a ha => ((hheld a).1 ha).trans_le hidx) fun hv => by simp [hpex.exp_open] at hv
  exact StorageInv.of_pex hstorage (h.unfaulted_of_busy hb) hb (h.not_done hb) hu
    { hpex with pidx_le := hidx, written := hheld }

/-- At PFIN all 256 entries are written, so the mark may be set (R147). -/
theorem BlockInv.markPalExp {s : State} (h : BlockInv s) (hs : select s = some .pfin) : StorageInv (markPalExp s) := by
  obtain ⟨hb, hu, hidx⟩ := select_pfin.1 hs
  exact h.storage.withPalExp h.palExp_wf h.palExp_below fun _ a ha => ((h.pex hb hu).written a).2 (hidx ▸ ha)

theorem execPfin_keeps_inv {s t : State} (h : BlockInv s) (he : execPfin s = .next t) : BlockInv t := by
  obtain ⟨hs, hcases⟩ := execPfin_next he
  have hb := select_busy hs
  have hf : Unfaulted (markPalExp s) := h.unfaulted_of_busy hb
  have hmark := h.markPalExp hs
  obtain ⟨-, rfl⟩ | ⟨hc, hi, rfl⟩ | ⟨-, -, rfl⟩ := hcases
  · exact hmark.complete hf
  · exact hmark.startFrc hf (h.not_done hb) (.inr hc) hi rfl
  · exact hmark.raiseFault _ _

theorem execPix_keeps_inv {k : Byte} {s t : State} (h : BlockInv s) (he : execPix k s = .next t) : BlockInv t := by
  obtain ⟨hs, ⟨c, m, -, hm, rfl⟩ | ⟨-, rfl⟩⟩ := execPix_next he
  · exact h.afterPixel hs hm
  · exact h.storage.raiseUnnamed

theorem execRfin_keeps_inv {s t : State} (h : BlockInv s) (he : execRfin s = .next t) : BlockInv t := by
  obtain ⟨hs, -, rfl⟩ := execRfin_next he
  obtain ⟨hb, hu, hw⟩ := select_rfin.1 hs
  have hmark : StorageInv { s with outValid := true } :=
    h.storage.withOut h.out_wf h.out_below fun _ a ha => ((h.frc hb hu).written a).2 (hw ▸ ha)
  exact hmark.complete (h.unfaulted_of_busy hb)

/-! ### The commands -/

theorem execDecomp_keeps_inv {s t : State} (h : BlockInv s) (he : execDecomp s = .next t) : BlockInv t := by
  obtain ⟨hr, rfl⟩ | ⟨-, rfl⟩ | ⟨-, rfl⟩ := execDecomp_next he
  · exact h.storage.startLzd (h.unfaulted (by simp [hr])) (.inl rfl)
  · exact h.storage.raiseFault _ _
  · exact h

theorem execPalx_keeps_inv {s t : State} (h : BlockInv s) (he : execPalx s = .next t) : BlockInv t := by
  obtain ⟨hr, hp, rfl⟩ | ⟨-, -, rfl⟩ | ⟨-, rfl⟩ | ⟨-, rfl⟩ := execPalx_next he
  · exact StorageInv.startPex (s := accepted .palx s) h.storage (h.unfaulted (by simp [hr])) rfl (.inl rfl) hp
  · exact h.storage.raiseFault _ _
  · exact h.storage.raiseFault _ _
  · exact h

theorem execRecon_keeps_inv {s t : State} (h : BlockInv s) (he : execRecon s = .next t) : BlockInv t := by
  obtain ⟨hr, hi, hp, rfl⟩ | ⟨-, -, rfl⟩ | ⟨-, -, -, rfl⟩ | ⟨-, rfl⟩ | ⟨-, rfl⟩ := execRecon_next he
  · exact StorageInv.startFrc (s := accepted .recon s) h.storage (h.unfaulted (by simp [hr])) rfl (.inl rfl) hi hp
  · exact h.storage.raiseFault _ _
  · exact h.storage.raiseFault _ _
  · exact h.storage.raiseFault _ _
  · exact h

theorem execFrame_keeps_inv {s t : State} (h : BlockInv s) (he : execFrame s = .next t) : BlockInv t := by
  obtain ⟨hr, rfl⟩ | ⟨-, rfl⟩ | ⟨-, rfl⟩ := execFrame_next he
  · exact h.storage.startLzd (h.unfaulted (by simp [hr])) (.inr rfl)
  · exact h.storage.raiseFault _ _
  · exact h

/-! ### Every instruction, every step of the block, every move of the host -/

theorem exec_keeps_inv {i : Instr} {s t : State} (h : BlockInv s) (he : exec i s = .next t) : BlockInv t := by
  cases i with
  | hdr d g => exact execHdr_keeps_inv (g := g) h he
  | ctl c => exact execCtl_keeps_inv h he
  | lit v => exact execLit_keeps_inv h he
  | ref d l => exact execRef_keeps_inv h he
  | fin => exact execFin_keeps_inv h he
  | pexp v => exact execPexp_keeps_inv h he
  | pfin => exact execPfin_keeps_inv h he
  | pix k => exact execPix_keeps_inv h he
  | rfin => exact execRfin_keeps_inv h he
  | decomp => exact execDecomp_keeps_inv h he
  | palx => exact execPalx_keeps_inv h he
  | recon => exact execRecon_keeps_inv h he
  | frame => exact execFrame_keeps_inv h he

theorem blockStep_keeps_inv {s t : State} (h : BlockInv s) (he : blockStep s = .next t) : BlockInv t := by
  obtain ⟨-, rfl⟩ | ⟨k, -, hrun⟩ := blockStep_next he
  · exact h
  obtain ⟨-, rfl⟩ | ⟨sp, a, -, rfl⟩ | ⟨bs, i, rest, -, -, hexec⟩ := runItem_next hrun
  · exact h.storage.raiseFault _ _
  · exact h.storage.raiseNoValue sp
  · exact exec_keeps_inv h hexec

/-- A host write that an idle block takes keeps the invariant when its effect on an idle block does. -/
theorem hostWrite_keeps_inv {n : Nat} {body : Out} {s t : State} (h : BlockInv s)
    (hidle : s.run = .idle → body = .next t → BlockInv t) (he : hostWrite n body s = .next t) : BlockInv t := by
  obtain ⟨hr, hbody⟩ | ⟨-, rfl⟩ | ⟨-, rfl⟩ := hostWrite_next he
  · exact hidle hr hbody
  · exact h.storage.raiseFault _ _
  · exact h

theorem hostLoadIn_keeps_inv {bs : List Byte} {s t : State} (h : BlockInv s) (he : hostLoadIn bs s = .next t) :
    BlockInv t := by
  refine hostWrite_keeps_inv h (fun hr hbody => ?_) he
  split at hbody
  · cases hbody
  · next hcap =>
    obtain rfl := Host.Outcome.next.inj hbody
    have hstorage := h.storage.withInp (cellsFrom_wf bs 0) (Nat.not_lt.1 hcap) fun a => (holds_cellsFrom_zero bs a).1
    exact hstorage.of_idle (h.unfaulted (by simp [hr])) hr

theorem hostLoadPal_keeps_inv {vs : List RawEntry} {s t : State} (h : BlockInv s) (he : hostLoadPal vs s = .next t) :
    BlockInv t := by
  refine hostWrite_keeps_inv h (fun hr hbody => ?_) he
  split at hbody
  · next hlen =>
    obtain rfl := Host.Outcome.next.inj hbody
    have hstorage := h.storage.withPalRaw (v := true) (cellsFrom_wf vs 0) fun a => by simp [holds_cellsFrom_zero, hlen]
    exact hstorage.of_idle (h.unfaulted (by simp [hr])) hr
  · cases hbody

theorem hostWriteInLen_keeps_inv {v : BitVec 32} {s t : State} (h : BlockInv s)
    (he : hostWriteInLen v s = .next t) : BlockInv t := by
  refine hostWrite_keeps_inv h (fun hr hbody => ?_) he
  split at hbody
  · cases hbody
  · next hcap =>
    obtain rfl := Host.Outcome.next.inj hbody
    have hbelow : ∀ a, holds (keepBelow v.toNat s.inp) a → a < v.toNat := fun a ha => by
      rw [holds, unitAt_keepBelow] at ha
      by_contra hge
      simp [hge] at ha
    have hstorage := h.storage.withInp (keepBelow_wf v.toNat h.inp_wf) (Nat.not_lt.1 hcap) hbelow
    exact hstorage.of_idle (h.unfaulted (by simp [hr])) hr

theorem hostWriteCmd_keeps_inv {c : BitVec 3} {s t : State} (h : BlockInv s) (he : hostWriteCmd c s = .next t) :
    BlockInv t := by
  unfold hostWriteCmd at he
  split at he
  · exact exec_keeps_inv h he
  · refine hostWrite_keeps_inv h (fun _ hbody => ?_) he
    obtain rfl := Host.Outcome.next.inj hbody
    exact h.storage.raiseFault _ _

theorem hostWriteOther_keeps_inv {n : Nat} {s t : State} (h : BlockInv s) (he : hostWriteOther n s = .next t) :
    BlockInv t := by
  unfold hostWriteOther at he
  split at he
  · exact Host.Outcome.next.inj he ▸ h
  · split at he <;> cases he

/-- A host's read changes the reply alone (R64, R181). -/
theorem hostReadReg_next {n : Nat} {s t : State} (h : hostReadReg n s = .next t) : ∃ r, t = { s with reply := r } := by
  unfold hostReadReg at h
  split at h
  · exact ⟨_, (Host.Outcome.next.inj h).symm⟩
  · cases h

theorem hostReadImg_next {s t : State} (h : hostReadImg s = .next t) : ∃ r, t = { s with reply := r } := by
  unfold hostReadImg at h
  split at h
  · cases h
  · split at h
    · exact absurd h (hostMissed_ne_next _ _)
    · exact ⟨_, (Host.Outcome.next.inj h).symm⟩

theorem hostReadOut_next {s t : State} (h : hostReadOut s = .next t) : ∃ r, t = { s with reply := r } := by
  unfold hostReadOut at h
  split at h
  · split at h
    · exact absurd h (hostMissed_ne_next _ _)
    · exact ⟨_, (Host.Outcome.next.inj h).symm⟩
  · cases h

theorem hostStep_keeps_inv {m : HostMove} {s t : State} (h : BlockInv s) (he : hostStep m s = .next t) :
    BlockInv t := by
  cases m with
  | reset => exact Host.Outcome.next.inj he ▸ blockInv_resetWith h.params_wf s.turns s.reply s.draws
  | loadIn bs => exact hostLoadIn_keeps_inv h he
  | loadPal vs => exact hostLoadPal_keeps_inv h he
  | writeCmd c => exact hostWriteCmd_keeps_inv h he
  | writeInLen v => exact hostWriteInLen_keeps_inv h he
  | writeOther n => exact hostWriteOther_keeps_inv h he
  | readReg n => obtain ⟨r, rfl⟩ := hostReadReg_next he; exact h.withTurnsReply s.turns r
  | readImg => obtain ⟨r, rfl⟩ := hostReadImg_next he; exact h.withTurnsReply s.turns r
  | readOut => obtain ⟨r, rfl⟩ := hostReadOut_next he; exact h.withTurnsReply s.turns r

end Sys2Proof.Safety

namespace Sys2Proof.Proofs

open Sys2Proof.Machine Sys2Proof.Safety

/-- Settles O40: reset leaves every buffer empty and no unit running, and the drawn geometry is legal. -/
theorem resetMeetsInvariant : Obligations.ResetMeetsInvariant :=
  blockInv_resetWith config_params_wf [] .nothing 0

/-- Settles O41: whose turn it is decides between a step of the block and a move of the host, and each keeps the
invariant. -/
theorem stepKeepsInvariant : Obligations.StepKeepsInvariant := by
  intro s t hinv h
  rw [step_eq] at h
  have hrest (rest : List Turn) : BlockInv { s with turns := rest } := hinv.withTurnsReply rest s.reply
  split at h
  · exact blockStep_keeps_inv hinv h
  · exact blockStep_keeps_inv (hrest _) h
  · split at h
    · exact blockStep_keeps_inv hinv h
    · exact Host.Outcome.next.inj h ▸ hrest _
  · exact hostStep_keeps_inv (hrest _) h

end Sys2Proof.Proofs

/-! SUPPORT. States that agree on all but the registers R45 leaves unspecified: agreement is kept by each operation of
the model, so by each instruction, each step of the block and each move of the host. -/

namespace Sys2Proof.Safety

open Sys2Proof.Machine Sys2Proof.Laws

theorem agreeOut_ite {c c' : Prop} [Decidable c] [Decidable c'] {a a' b b' : Out} (hc : c ↔ c')
    (ha : agreeOut a a') (hb : agreeOut b b') : agreeOut (if c then a else b) (if c' then a' else b') := by
  by_cases hp : c
  · rwa [if_pos hp, if_pos (hc.1 hp)]
  · rwa [if_neg hp, if_neg (hc.not.1 hp)]

theorem agreeOut_hostMissed (m : Miss) : agreeOut (hostMissed m) (hostMissed m) := by
  cases m <;> rfl

/-- Only a fetch from `IN` can be short of bytes or find no value in `IN`. -/
theorem onStream_of_fetch {k : Kind} {s : State}
    (hf : fetch k s = .underrun ∨ ∃ a, fetch k s = .miss (.noValue .inp a)) : onStream k := by
  cases k with
  | hdr | ctl | lit | ref => simp [onStream]
  | fin | pfin | rfin | cmd => simp [fetch] at hf
  | pexp =>
    simp only [fetch, fetchEntry] at hf
    split at hf
    · next m hm => obtain ⟨-, -, rfl⟩ | ⟨-, rfl⟩ := readUnit_error_iff.1 hm <;> simp at hf
    · simp at hf
  | pix =>
    simp only [fetch, fetchPixel] at hf
    split at hf
    · next m hm => obtain ⟨-, -, rfl⟩ | ⟨-, rfl⟩ := readUnit_error_iff.1 hm <;> simp at hf
    · simp at hf

section Agreement

variable {s t : State} (h : Agree s t)
include h

/-! ### What a step reads first: the selection, the fetch and the host's registers -/

theorem Agree.selectLzd_eq (hb : s.run = .busy) (hu : s.unit = .lzd) : selectLzd s = selectLzd t := by
  obtain ⟨-, hop, hend, hctl, hnbits, hphase⟩ := h.lzd hb hu
  unfold selectLzd tokenFlag
  rw [hop, hend, hctl, hnbits, hphase]

theorem Agree.selectPex_eq (hb : s.run = .busy) (hu : s.unit = .pex) : selectPex s = selectPex t := by
  simp only [selectPex, h.pex hb hu]

theorem Agree.selectFrc_eq (hb : s.run = .busy) (hu : s.unit = .frc) : selectFrc s = selectFrc t := by
  obtain ⟨-, -, hwp⟩ := h.frc hb hu
  simp only [selectFrc, hwp, h.params]

theorem Agree.select_eq : select s = select t := by
  unfold select
  rw [← h.run]
  cases hb : s.run with
  | idle | fault => rfl
  | busy =>
    obtain ⟨-, hunit⟩ := h.busy hb
    rw [← hunit]
    cases hu : s.unit with
    | lzd => exact h.selectLzd_eq hb hu
    | pex => exact h.selectPex_eq hb hu
    | frc => exact h.selectFrc_eq hb hu

/-- The steps that read `IN` are the LZD's, which uses `ip`. -/
theorem Agree.ip_eq {k : Kind} (hs : select s = some k) (hk : onStream k) : s.ip = t.ip := by
  have hlzd : s.run = .busy ∧ s.unit = .lzd := by
    rcases hk with rfl | rfl | rfl | rfl
    · obtain ⟨hb, hu, -⟩ := select_hdr.1 hs; exact ⟨hb, hu⟩
    · obtain ⟨hb, hu, -⟩ := select_ctl.1 hs; exact ⟨hb, hu⟩
    · obtain ⟨hb, hu, -⟩ := select_lit.1 hs; exact ⟨hb, hu⟩
    · obtain ⟨hb, hu, -⟩ := select_ref.1 hs; exact ⟨hb, hu⟩
  exact (h.lzd hlzd.1 hlzd.2).1

theorem Agree.fetch_eq {k : Kind} (hs : select s = some k) : fetch k s = fetch k t := by
  by_cases hk : onStream k
  · simp only [fetch_of_onStream hk, fetchStream, h.ip_eq hs hk, h.inLen, h.params, h.inp]
  cases k with
  | hdr | ctl | lit | ref => exact absurd (by simp [onStream]) hk
  | fin | pfin | rfin | cmd => rfl
  | pexp =>
    obtain ⟨hb, hu, -⟩ := select_pexp.1 hs
    simp only [fetch, fetchEntry, h.palRaw, h.pex hb hu]
  | pix =>
    obtain ⟨hb, hu, -⟩ := select_pix.1 hs
    obtain ⟨hfy, hfx, -⟩ := h.frc hb hu
    simp only [fetch, fetchPixel, h.params, h.img, hfy, hfx]

theorem Agree.readRegister_eq (n : Nat) : readRegister s n = readRegister t n := by
  simp only [readRegister, status, h.outValid, h.palExpValid, h.palRawValid, h.imgValid, h.params, h.run, h.done,
    h.faultCause, h.faultInfo, h.inLen]

theorem Agree.pexCheck_eq : pexCheck s = pexCheck t := by
  simp only [pexCheck, h.palRawValid]

theorem Agree.frcCheck_eq : frcCheck s = frcCheck t := by
  simp only [frcCheck, h.imgValid, h.params, h.palExpValid]

/-! ### The updates of the state -/

theorem Agree.enterFault (code : BitVec 4) (info : BitVec 32) :
    Agree (enterFault code info s) (enterFault code info t) :=
  { h with
    run := rfl, done := rfl, faultCause := rfl, faultInfo := rfl, busy := nofun, lzd := nofun, pex := nofun,
    frc := nofun }

theorem Agree.raiseFault (c : Cause) (n : Nat) : Agree (raiseFault c n s) (raiseFault c n t) :=
  h.enterFault _ _

theorem Agree.raiseUnnamed : Agree (raiseUnnamed s) (raiseUnnamed t) :=
  { h.enterFault (Config.freeFaultCode s.draws) (Config.faultInfoDraw s.draws) with
    faultCause := congrArg Config.freeFaultCode h.draws
    faultInfo := congrArg Config.faultInfoDraw h.draws
    draws := congrArg (· + 1) h.draws
    lzd := nofun
    pex := nofun
    frc := nofun }

theorem Agree.raiseNoValue {sp : Space} (hip : sp = .inp → s.ip = t.ip) :
    Agree (raiseNoValue sp s) (raiseNoValue sp t) := by
  cases sp with
  | inp => unfold Machine.raiseNoValue; rw [hip rfl]; exact h.raiseFault _ _
  | img | palRaw | palExp | out => exact h.raiseUnnamed

theorem Agree.complete : Agree (complete s) (complete t) :=
  { h with run := rfl, done := rfl, busy := nofun, lzd := nofun, pex := nofun, frc := nofun }

theorem Agree.markPalExp : Agree (markPalExp s) (markPalExp t) := { h with palExpValid := rfl }

theorem Agree.accepted (c : Cmd) : Agree (accepted c s) (accepted c t) :=
  { h with done := rfl, busy := fun hb => ⟨rfl, (h.busy hb).2⟩ }

theorem Agree.startLzd (c : Cmd) : Agree (startLzd c s) (startLzd c t) :=
  { h with
    run := rfl, done := rfl, img := rfl, imgValid := rfl
    busy := fun _ => ⟨rfl, rfl⟩
    lzd := fun _ _ => ⟨rfl, rfl, rfl, rfl, rfl, rfl⟩
    pex := nofun
    frc := nofun }

theorem Agree.startPex (hc : s.cmd = t.cmd) : Agree (startPex s) (startPex t) :=
  { h with
    run := rfl, palExp := rfl, palExpValid := rfl
    busy := fun _ => ⟨hc, rfl⟩
    lzd := nofun
    pex := fun _ _ => rfl
    frc := nofun }

theorem Agree.startFrc (hc : s.cmd = t.cmd) : Agree (startFrc s) (startFrc t) :=
  { h with
    run := rfl, out := rfl, outValid := rfl
    busy := fun _ => ⟨hc, rfl⟩
    lzd := nofun
    pex := nofun
    frc := fun _ _ => ⟨congrArg (·.height - 1) h.params, rfl, rfl⟩ }

theorem Agree.afterToken (hb : s.run = .busy) (hu : s.unit = .lzd) (n k : Nat) (m : Cells 8) :
    Agree (afterToken n k m s) (afterToken n k m t) := by
  obtain ⟨hip, hop, hend, hctl, hnbits, hphase⟩ := h.lzd hb hu
  exact
    { h with
      img := rfl
      imgValid := congrArg (· + n) hop
      lzd := fun _ _ => ⟨congrArg (· + k) hip, congrArg (· + n) hop, hend, congrArg shiftFlags hctl,
        congrArg (· - 1) hnbits, hphase⟩ }

theorem Agree.afterPixel (hb : s.run = .busy) (hu : s.unit = .frc) (m : Cells 8) :
    Agree (afterPixel m s) (afterPixel m t) := by
  obtain ⟨hfy, hfx, hwp⟩ := h.frc hb hu
  have hnext : nextPixel s.params s.fx s.fy = nextPixel t.params t.fx t.fy := by rw [h.params, hfx, hfy]
  exact
    { h with
      out := rfl
      frc := fun _ _ => ⟨congrArg Prod.snd hnext, congrArg Prod.fst hnext, congrArg (· + 3) hwp⟩ }

theorem Agree.startChecked {check check' : Option (Cause × Nat)} {u u' : State} (hc : check = check')
    (hu : Agree u u') : Agree (startChecked check u s) (startChecked check' u' t) := by
  subst hc
  cases check with
  | none => exact hu
  | some _ => exact h.raiseFault _ _

theorem Agree.commandWrite (c : Cmd) {u u' : State} (hu : Agree u u') :
    Agree (commandWrite c u s) (commandWrite c u' t) := by
  unfold Machine.commandWrite
  rw [← h.run]
  cases s.run with
  | idle => exact hu
  | busy => exact h.raiseFault _ _
  | fault => exact h

/-! ### What stands around the meanings: conditions, the enabling, the input check and the host's writes -/

theorem Agree.missed {m : Miss} (hip : ∀ a, m = .noValue .inp a → s.ip = t.ip) :
    agreeOut (missed m s) (missed m t) := by
  cases m with
  | noValue sp a => exact h.raiseNoValue fun hsp => hip a (by rw [hsp])
  | outside sp a => rfl

theorem Agree.whenEnabled {k : Kind} {b b' : Out} (hb : select s = some k → agreeOut b b') :
    agreeOut (whenEnabled k s b) (whenEnabled k t b') := by
  unfold Machine.whenEnabled
  rw [← h.select_eq]
  split
  · next hs => exact hb hs
  · rfl

theorem Agree.withInput (n : Nat) {b b' : Out} (hip : s.ip = t.ip) (hb : agreeOut b b') :
    agreeOut (withInput n s b) (withInput n t b') := by
  refine agreeOut_ite (by rw [hip, h.inLen]) ?_ hb
  rw [hip]
  exact h.raiseFault _ _

theorem Agree.hostWrite (n : Nat) {b b' : Out} (hb : agreeOut b b') :
    agreeOut (hostWrite n b s) (hostWrite n b' t) := by
  unfold Machine.hostWrite
  rw [← h.run]
  cases s.run with
  | idle => exact hb
  | busy => exact h.raiseFault _ _
  | fault => exact h

/-! ### The meanings -/

theorem Agree.execHdr (d : BitVec 24) (g : Byte) : agreeOut (execHdr d g s) (execHdr d g t) := by
  refine h.whenEnabled fun hs => ?_
  have hip := h.ip_eq hs (.inl rfl)
  refine h.withInput 4 hip (agreeOut_ite (by rw [h.params]) (h.raiseFault _ _) ?_)
  exact { h with lzd := fun _ _ => ⟨congrArg (· + 4) hip, rfl, rfl, rfl, rfl, rfl⟩ }

theorem Agree.execCtl (c : Byte) : agreeOut (execCtl c s) (execCtl c t) := by
  refine h.whenEnabled fun hs => ?_
  obtain ⟨hb, hu, -⟩ := select_ctl.1 hs
  obtain ⟨hip, hop, hend, -, -, hphase⟩ := h.lzd hb hu
  refine h.withInput 1 hip ?_
  exact { h with lzd := fun _ _ => ⟨congrArg (· + 1) hip, hop, hend, rfl, rfl, hphase⟩ }

theorem Agree.execLit (v : Byte) : agreeOut (execLit v s) (execLit v t) := by
  refine h.whenEnabled fun hs => ?_
  obtain ⟨hb, hu, -⟩ := select_lit.1 hs
  obtain ⟨hip, hop, -⟩ := h.lzd hb hu
  have hwrite : writeUnit .img s.params.imgCap s.img s.op v = writeUnit .img t.params.imgCap t.img t.op v := by
    rw [h.params, h.img, hop]
  refine h.withInput 1 hip ?_
  rw [hwrite]
  cases writeUnit .img t.params.imgCap t.img t.op v with
  | error m => exact h.missed fun _ _ => hip
  | ok m => exact h.afterToken hb hu 1 1 m

theorem Agree.execRef (d l : Nat) : agreeOut (execRef d l s) (execRef d l t) := by
  refine h.whenEnabled fun hs => ?_
  obtain ⟨hb, hu, -⟩ := select_ref.1 hs
  obtain ⟨hip, hop, hend, -⟩ := h.lzd hb hu
  have hfault (c : Cause) : Agree (Machine.raiseFault c s.ip s) (Machine.raiseFault c t.ip t) :=
    hip ▸ h.raiseFault c s.ip
  have hcopy : copyLoop s.params.imgCap s.img (s.op - d) s.op l =
      copyLoop t.params.imgCap t.img (t.op - d) t.op l := by rw [h.params, h.img, hop]
  refine h.withInput 2 hip (agreeOut_ite (by rw [hop]) (hfault _) (agreeOut_ite (by rw [hop, hend]) (hfault _) ?_))
  rw [hcopy]
  cases copyLoop t.params.imgCap t.img (t.op - d) t.op l with
  | error m => exact h.missed fun _ _ => hip
  | ok m => exact h.afterToken hb hu l 2 m

theorem Agree.execFin : agreeOut (execFin s) (execFin t) := by
  refine h.whenEnabled fun hs => ?_
  obtain ⟨hcmd, -⟩ := h.busy (select_busy hs)
  rw [← hcmd]
  cases s.cmd with
  | decomp => exact h.complete
  | frame => exact h.startChecked h.pexCheck_eq (h.startPex hcmd)
  | palx | recon => rfl

theorem Agree.execPexp (v : RawEntry) : agreeOut (execPexp v s) (execPexp v t) := by
  refine h.whenEnabled fun hs => ?_
  obtain ⟨hb, hu, -⟩ := select_pexp.1 hs
  have hpidx := h.pex hb hu
  have hwrite : writeUnit .palExp palSize s.palExp s.pidx (expand s.params.layout v) =
      writeUnit .palExp palSize t.palExp t.pidx (expand t.params.layout v) := by rw [h.params, h.palExp, hpidx]
  rw [hwrite]
  cases hw : writeUnit .palExp palSize t.palExp t.pidx (expand t.params.layout v) with
  | error m =>
    obtain ⟨-, rfl⟩ := writeUnit_error_iff.1 hw
    rfl
  | ok m => exact { h with palExp := rfl, pex := fun _ _ => congrArg (· + 1) hpidx }

theorem Agree.execPfin : agreeOut (execPfin s) (execPfin t) := by
  refine h.whenEnabled fun hs => ?_
  obtain ⟨hcmd, -⟩ := h.busy (select_busy hs)
  rw [← hcmd]
  cases s.cmd with
  | palx => exact h.markPalExp.complete
  | frame => exact h.markPalExp.startChecked h.markPalExp.frcCheck_eq (h.markPalExp.startFrc hcmd)
  | decomp | recon => rfl

theorem Agree.execPix (k : Byte) : agreeOut (execPix k s) (execPix k t) := by
  refine h.whenEnabled fun hs => ?_
  obtain ⟨hb, hu, -⟩ := select_pix.1 hs
  obtain ⟨-, -, hwp⟩ := h.frc hb hu
  rw [← h.palExp]
  cases hread : readUnit .palExp palSize s.palExp k.toNat with
  | error m =>
    refine h.missed fun a ha => ?_
    subst ha
    obtain ⟨-, -, hm⟩ | ⟨-, hm⟩ := readUnit_error_iff.1 hread <;> cases hm
  | ok c =>
    have hwrite : writeRun .out s.params.outLen s.out s.wp (pixelBytes c) =
        writeRun .out t.params.outLen t.out t.wp (pixelBytes c) := by rw [h.params, h.out, hwp]
    simp only [hwrite]
    cases hw : writeRun .out t.params.outLen t.out t.wp (pixelBytes c) with
    | error m =>
      obtain ⟨_, -, -, -, rfl⟩ := writeRun_error hw
      rfl
    | ok m => exact h.afterPixel hb hu m

theorem Agree.execRfin : agreeOut (execRfin s) (execRfin t) := by
  refine h.whenEnabled fun hs => ?_
  obtain ⟨hcmd, -⟩ := h.busy (select_busy hs)
  have hmark : Agree { s with outValid := true } { t with outValid := true } := { h with outValid := rfl }
  have hdone := hmark.complete
  generalize Machine.complete { s with outValid := true } = u at hdone ⊢
  generalize Machine.complete { t with outValid := true } = u' at hdone ⊢
  rw [← hcmd]
  cases s.cmd with
  | recon | frame => exact hdone
  | decomp | palx => rfl

theorem Agree.exec (i : Instr) : agreeOut (exec i s) (exec i t) := by
  cases i with
  | hdr d g => exact h.execHdr d g
  | ctl c => exact h.execCtl c
  | lit v => exact h.execLit v
  | ref d l => exact h.execRef d l
  | fin => exact h.execFin
  | pexp v => exact h.execPexp v
  | pfin => exact h.execPfin
  | pix k => exact h.execPix k
  | rfin => exact h.execRfin
  | decomp => exact h.commandWrite .decomp (h.startLzd .decomp)
  | palx => exact h.commandWrite .palx (h.startChecked h.pexCheck_eq ((h.accepted .palx).startPex rfl))
  | recon => exact h.commandWrite .recon (h.startChecked h.frcCheck_eq ((h.accepted .recon).startFrc rfl))
  | frame => exact h.commandWrite .frame (h.startLzd .frame)

/-! ### The block's step and the host's moves -/

theorem Agree.runItem {k : Kind} (hs : select s = some k) : agreeOut (runItem k s) (runItem k t) := by
  unfold Machine.runItem
  rw [← h.fetch_eq hs]
  cases hf : fetch k s with
  | underrun =>
    rw [← h.ip_eq hs (onStream_of_fetch (.inl hf))]
    exact h.raiseFault _ _
  | miss m => exact h.missed fun a ha => h.ip_eq hs (onStream_of_fetch (.inr ⟨a, ha ▸ hf⟩))
  | item bs =>
    simp only
    split
    · exact h.exec _
    · rfl

theorem Agree.blockStep : agreeOut (blockStep s) (blockStep t) := by
  unfold Machine.blockStep
  rw [← h.run, ← h.select_eq]
  cases s.run with
  | idle | fault => exact h
  | busy =>
    cases hs : select s with
    | none => rfl
    | some k => exact h.runItem hs

theorem Agree.resetBlock : Agree (resetBlock s) (resetBlock t) where
  params := h.params
  run := rfl
  done := rfl
  inLen := rfl
  faultCause := rfl
  faultInfo := rfl
  inp := rfl
  img := rfl
  imgValid := rfl
  palRaw := rfl
  palRawValid := rfl
  palExp := rfl
  palExpValid := rfl
  out := rfl
  outValid := rfl
  turns := h.turns
  reply := h.reply
  draws := h.draws
  busy := nofun
  lzd := nofun
  pex := nofun
  frc := nofun

theorem Agree.hostWriteCmd (c : BitVec 3) : agreeOut (hostWriteCmd c s) (hostWriteCmd c t) := by
  unfold Machine.hostWriteCmd
  split
  · exact h.exec _
  · exact h.hostWrite _ (h.raiseFault _ _)

theorem Agree.hostWriteOther (n : Nat) : agreeOut (hostWriteOther n s) (hostWriteOther n t) := by
  unfold Machine.hostWriteOther
  rw [← h.run]
  cases s.run with
  | fault => exact h
  | idle | busy => exact agreeOut_ite Iff.rfl rfl rfl

theorem Agree.hostReadReg (n : Nat) : agreeOut (hostReadReg n s) (hostReadReg n t) := by
  unfold Machine.hostReadReg
  rw [← h.readRegister_eq n]
  cases readRegister s n with
  | none => rfl
  | some v => exact { h with reply := rfl }

theorem Agree.hostReadImg : agreeOut (hostReadImg s) (hostReadImg t) := by
  refine agreeOut_ite (by rw [h.run]) rfl ?_
  have hread : readRun .img s.params.imgCap s.img 0 s.imgValid = readRun .img t.params.imgCap t.img 0 t.imgValid := by
    rw [h.params, h.img, h.imgValid]
  rw [hread]
  cases readRun .img t.params.imgCap t.img 0 t.imgValid with
  | error m => exact agreeOut_hostMissed m
  | ok bs => exact { h with reply := rfl }

theorem Agree.hostReadOut : agreeOut (hostReadOut s) (hostReadOut t) := by
  refine agreeOut_ite (by rw [h.run, h.outValid]) ?_ rfl
  have hread : readRun .out s.params.outLen s.out 0 s.params.outLen =
      readRun .out t.params.outLen t.out 0 t.params.outLen := by rw [h.params, h.out]
  rw [hread]
  cases readRun .out t.params.outLen t.out 0 t.params.outLen with
  | error m => exact agreeOut_hostMissed m
  | ok bs => exact { h with reply := rfl }

theorem Agree.hostStep (m : HostMove) : agreeOut (hostStep m s) (hostStep m t) := by
  have hcap (n : Nat) : s.params.inCap < n ↔ t.params.inCap < n := by rw [h.params]
  cases m with
  | reset => exact h.resetBlock
  | loadIn bs => exact h.hostWrite 0 (agreeOut_ite (hcap _) rfl { h with inp := rfl, inLen := rfl })
  | loadPal vs => exact h.hostWrite 0 (agreeOut_ite Iff.rfl { h with palRaw := rfl, palRawValid := rfl } rfl)
  | writeCmd c => exact h.hostWriteCmd c
  | writeInLen v =>
    exact h.hostWrite 0 (agreeOut_ite (hcap _) rfl { h with inp := congrArg (keepBelow v.toNat) h.inp, inLen := rfl })
  | writeOther n => exact h.hostWriteOther n
  | readReg n => exact h.hostReadReg n
  | readImg => exact h.hostReadImg
  | readOut => exact h.hostReadOut

end Agreement

end Sys2Proof.Safety

namespace Sys2Proof.Proofs

open Sys2Proof.Machine Sys2Proof.Safety

/-- Settles O45: the schedule is the same, and each turn of it keeps the agreement. -/
theorem unspecifiedRegistersNeverMatter : Obligations.UnspecifiedRegistersNeverMatter := by
  intro s t h
  have hrest (rest : List Turn) : Agree { s with turns := rest } { t with turns := rest } := { h with turns := rfl }
  rw [step_eq, step_eq, ← h.turns]
  match s.turns with
  | [] => exact h.blockStep
  | .block :: rest => exact (hrest rest).blockStep
  | .await :: rest => exact agreeOut_ite (by rw [h.run]) h.blockStep (hrest rest)
  | .host m :: rest => exact (hrest rest).hostStep m

end Sys2Proof.Proofs

/-! SUPPORT. What each instruction and each step of the block leave unchanged, and how the LZD's cursors move. -/

namespace Sys2Proof.Machine

open Sys2Proof.Safety Sys2Proof.Laws

/-! ### What the block never writes -/

/-- The parameters, the buffers that the host fills, their marks, the schedule and the reply (R46, R51, R55). -/
def hostSide (s : State) : Params × Cells 8 × Nat × Cells 16 × Bool × List Turn × Reply :=
  (s.params, s.inp, s.inLen, s.palRaw, s.palRawValid, s.turns, s.reply)

/-- A frame that names no field of the host's side keeps it. -/
theorem hostSide_of_eq {s t u : State} (h : t = u) (hu : hostSide u = hostSide s) : hostSide t = hostSide s := h ▸ hu

theorem hostSide_raiseNoValue (sp : Space) (s : State) : hostSide (raiseNoValue sp s) = hostSide s :=
  hostSide_of_eq (precise_raiseNoValue sp s) rfl

/-! ### The cursors of the LZD (R21, R22, R124) -/

/-- Neither cursor of the LZD goes back. -/
def CursorsKept (s t : State) : Prop := s.ip ≤ t.ip ∧ s.op ≤ t.op

theorem CursorsKept.of_eq {s t : State} (hip : t.ip = s.ip) (hop : t.op = s.op) : CursorsKept s t :=
  ⟨hip.ge, hop.ge⟩

theorem execHdr_cursors {d : BitVec 24} {g : Byte} {s t : State} (hinv : BlockInv s) (h : execHdr d g s = .next t) :
    CursorsKept s t := by
  obtain ⟨hs, ⟨-, rfl⟩ | ⟨-, -, rfl⟩ | ⟨-, -, rfl⟩⟩ := execHdr_next h
  · exact .of_eq rfl rfl
  · exact .of_eq rfl rfl
  · obtain ⟨hb, hu, hp⟩ := select_hdr.1 hs
    obtain ⟨-, hop, -⟩ := (hinv.lzd hb hu).at_header hp
    exact ⟨Nat.le_add_right _ _, hop.le⟩

theorem execCtl_cursors {c : Byte} {s t : State} (h : execCtl c s = .next t) : CursorsKept s t := by
  obtain ⟨-, ⟨-, rfl⟩ | ⟨-, rfl⟩⟩ := execCtl_next h
  · exact .of_eq rfl rfl
  · exact ⟨Nat.le_add_right _ _, Nat.le_refl _⟩

theorem execFin_cursors {s t : State} (h : execFin s = .next t) : CursorsKept s t := by
  obtain ⟨-, ⟨-, rfl⟩ | ⟨-, -, rfl⟩ | ⟨-, -, rfl⟩⟩ := execFin_next h
  · exact .of_eq rfl rfl
  · exact .of_eq rfl rfl
  · exact .of_eq rfl rfl

/-- A token that faults leaves both cursors; any other moves both. -/
def TokenMoves (s t : State) : Prop :=
  (t.run = .fault ∧ t.ip = s.ip ∧ t.op = s.op) ∨ (s.ip < t.ip ∧ s.op < t.op)

theorem TokenMoves.cursors {s t : State} (h : TokenMoves s t) :
    CursorsKept s t ∧ (t.run = .busy → s.ip < t.ip ∧ s.op < t.op) := by
  obtain ⟨hr, hip, hop⟩ | ⟨hip, hop⟩ := h
  · exact ⟨.of_eq hip hop, fun hb => by simp [hr] at hb⟩
  · exact ⟨⟨hip.le, hop.le⟩, fun _ => ⟨hip, hop⟩⟩

theorem execLit_moves {v : Byte} {s t : State} (h : execLit v s = .next t) : TokenMoves s t := by
  obtain ⟨-, ⟨-, rfl⟩ | ⟨-, -, rfl⟩⟩ := execLit_next h
  · exact .inl ⟨rfl, rfl, rfl⟩
  · exact .inr ⟨Nat.lt_succ_self _, Nat.lt_succ_self _⟩

/-- A back-reference copies at least one byte (R97). -/
theorem execRef_moves {d l : Nat} {s t : State} (hl : 0 < l) (h : execRef d l s = .next t) : TokenMoves s t := by
  obtain ⟨-, ⟨-, rfl⟩ | ⟨-, -, rfl⟩ | ⟨-, -, -, rfl⟩ | ⟨-, -, -, ⟨m, -, rfl⟩ | ⟨_, -, -, -, -, rfl⟩⟩⟩ :=
    execRef_next h
  · exact .inl ⟨rfl, rfl, rfl⟩
  · exact .inl ⟨rfl, rfl, rfl⟩
  · exact .inl ⟨rfl, rfl, rfl⟩
  · exact .inr ⟨Nat.lt_add_of_pos_right (by decide), Nat.lt_add_of_pos_right hl⟩
  · exact .inl ⟨rfl, rfl, rfl⟩

end Sys2Proof.Machine

namespace Sys2Proof.Proofs

open Sys2Proof.Machine Sys2Proof.Safety

/-- Settles O46: no way HDR or CTL can end writes a buffer. -/
theorem hdrCtlFrame : Obligations.HdrCtlFrame := by
  refine ⟨fun s t d g h => ?_, fun s t c h => ?_⟩
  · obtain ⟨-, ⟨-, rfl⟩ | ⟨-, -, rfl⟩ | ⟨-, -, rfl⟩⟩ := execHdr_next (g := g) h
    · exact ⟨rfl, fun _ => ⟨rfl, rfl⟩⟩
    · exact ⟨rfl, fun _ => ⟨rfl, rfl⟩⟩
    · exact ⟨rfl, fun _ => ⟨rfl, rfl⟩⟩
  · obtain ⟨-, ⟨-, rfl⟩ | ⟨-, rfl⟩⟩ := execCtl_next h
    · exact ⟨rfl, fun _ => ⟨rfl, rfl⟩⟩
    · exact ⟨rfl, fun _ => ⟨rfl, rfl⟩⟩

/-- Settles O47: a literal writes one unit, and the copy loop of a back-reference none outside its destination. -/
theorem tokenFrame : Obligations.TokenFrame := by
  rintro s t i n (⟨⟨v, rfl⟩, rfl⟩ | ⟨d, rfl⟩) h
  · obtain ⟨-, ⟨-, rfl⟩ | ⟨-, -, rfl⟩⟩ := execLit_next h
    · exact ⟨rfl, fun _ _ => rfl⟩
    · exact ⟨rfl, fun a ha => unitAt_putUnit_ne s.img v (by omega)⟩
  · obtain ⟨-, ⟨-, rfl⟩ | ⟨-, -, rfl⟩ | ⟨-, -, -, rfl⟩ | ⟨-, -, -, ⟨m, hm, rfl⟩ | ⟨_, -, -, -, -, rfl⟩⟩⟩ :=
      execRef_next h
    · exact ⟨rfl, fun _ _ => rfl⟩
    · exact ⟨rfl, fun _ _ => rfl⟩
    · exact ⟨rfl, fun _ _ => rfl⟩
    · obtain ⟨-, -, hold, -⟩ := copyLoop_ok hm
      exact ⟨rfl, hold⟩
    · exact ⟨rfl, fun _ _ => rfl⟩

/-- Settles O48: PEXP writes one unit and PIX three; the lookup of PIX finds a value under the invariant. -/
theorem pexpPixFrame : Obligations.PexpPixFrame := by
  refine ⟨fun s t v h => ?_, fun s t k h => ?_⟩
  · obtain ⟨-, -, rfl⟩ := execPexp_next h
    exact ⟨rfl, fun a ha => unitAt_putUnit_ne s.palExp _ ha⟩
  · obtain ⟨hs, ⟨c, m, -, hm, rfl⟩ | ⟨hn, rfl⟩⟩ := execPix_next h
    · obtain ⟨-, hval, -⟩ := writeRun_ok hm
      exact ⟨.inl rfl, fun a ha => (hval a).trans (if_neg ha)⟩
    · have hlookup : ¬ holds s.palExp k.toNat := not_holds_iff.2 hn
      have hinv : ¬ BlockInv s := fun hinv => hlookup (Option.isSome_iff_exists.2 (palExp_value_of_inv hinv hs k))
      exact ⟨.inr ⟨hinv, hlookup, faultedUnnamed_raiseUnnamed s⟩, fun _ _ => rfl⟩

/-- Settles O49: a final step completes, starts the next unit or faults, by the command that runs. -/
theorem finalStepFrame : Obligations.FinalStepFrame := by
  refine fun s t => ⟨fun h => ?_, fun h => ?_, fun h => ?_⟩
  · obtain ⟨-, ⟨-, rfl⟩ | ⟨hc, -, rfl⟩ | ⟨hc, -, rfl⟩⟩ := execFin_next h
    · exact ⟨rfl, fun _ => rfl⟩
    · exact ⟨rfl, fun hd => by simp [hc] at hd⟩
    · exact ⟨rfl, fun hd => by simp [hc] at hd⟩
  · obtain ⟨-, ⟨-, rfl⟩ | ⟨hc, -, rfl⟩ | ⟨hc, -, rfl⟩⟩ := execPfin_next h
    · exact ⟨rfl, fun _ => rfl⟩
    · exact ⟨rfl, fun hp => by simp [hc] at hp⟩
    · exact ⟨rfl, fun hp => by simp [hc] at hp⟩
  · obtain ⟨-, -, rfl⟩ := execRfin_next h
    rfl

/-- Settles O50: a command starts its unit, which empties that unit's buffer, or faults, or is ignored. -/
theorem commandFrame : Obligations.CommandFrame := by
  refine ⟨fun s t i hi h => ?_, fun s t h => ?_, fun s t h => ?_⟩
  · obtain rfl | rfl := hi
    · obtain ⟨hr, rfl⟩ | ⟨-, rfl⟩ | ⟨-, rfl⟩ := execDecomp_next h
      · exact ⟨rfl, fun hn => absurd hr hn⟩
      · exact ⟨rfl, fun _ _ => rfl⟩
      · exact ⟨rfl, fun _ _ => rfl⟩
    · obtain ⟨hr, rfl⟩ | ⟨-, rfl⟩ | ⟨-, rfl⟩ := execFrame_next h
      · exact ⟨rfl, fun hn => absurd hr hn⟩
      · exact ⟨rfl, fun _ _ => rfl⟩
      · exact ⟨rfl, fun _ _ => rfl⟩
  · obtain ⟨hr, hp, rfl⟩ | ⟨-, -, rfl⟩ | ⟨-, rfl⟩ | ⟨-, rfl⟩ := execPalx_next h
    · exact ⟨rfl, fun hn => by simp [hr, hp] at hn⟩
    · exact ⟨rfl, fun _ _ => rfl⟩
    · exact ⟨rfl, fun _ _ => rfl⟩
    · exact ⟨rfl, fun _ _ => rfl⟩
  · obtain ⟨hr, hi, hp, rfl⟩ | ⟨-, -, rfl⟩ | ⟨-, -, -, rfl⟩ | ⟨-, rfl⟩ | ⟨-, rfl⟩ := execRecon_next h
    · exact ⟨rfl, fun hn => by simp [hr, hi, hp] at hn⟩
    · exact ⟨rfl, fun _ _ => rfl⟩
    · exact ⟨rfl, fun _ _ => rfl⟩
    · exact ⟨rfl, fun _ _ => rfl⟩
    · exact ⟨rfl, fun _ _ => rfl⟩

/-- No frame of an instruction (O46 to O50) names a field of the host's side. -/
theorem exec_hostSide {i : Instr} {s t : State} (h : exec i s = .next t) : hostSide t = hostSide s := by
  obtain ⟨hhdr, hctl⟩ := hdrCtlFrame
  obtain ⟨hpexp, hpix⟩ := pexpPixFrame
  obtain ⟨hfin, hpfin, hrfin⟩ := finalStepFrame s t
  obtain ⟨hlzd, hpalx, hrecon⟩ := commandFrame
  cases i with
  | hdr d g => exact hostSide_of_eq (hhdr s t d g h).1 rfl
  | ctl c => exact hostSide_of_eq (hctl s t c h).1 rfl
  | lit v => exact hostSide_of_eq (tokenFrame s t _ 1 (.inl ⟨⟨v, rfl⟩, rfl⟩) h).1 rfl
  | ref d l => exact hostSide_of_eq (tokenFrame s t _ l (.inr ⟨d, rfl⟩) h).1 rfl
  | fin => exact hostSide_of_eq (hfin h).1 rfl
  | pexp v => exact hostSide_of_eq (hpexp s t v h).1 rfl
  | pfin => exact hostSide_of_eq (hpfin h).1 rfl
  | pix k =>
    obtain ⟨hframe | ⟨-, -, _, _, -, -, hfault⟩, -⟩ := hpix s t k h
    · exact hostSide_of_eq hframe rfl
    · exact hostSide_of_eq hfault rfl
  | rfin => exact hostSide_of_eq (hrfin h) rfl
  | decomp => exact hostSide_of_eq (hlzd s t _ (.inl rfl) h).1 rfl
  | palx => exact hostSide_of_eq (hpalx s t h).1 rfl
  | recon => exact hostSide_of_eq (hrecon s t h).1 rfl
  | frame => exact hostSide_of_eq (hlzd s t _ (.inr rfl) h).1 rfl

theorem blockStep_hostSide {s t : State} (h : blockStep s = .next t) : hostSide t = hostSide s := by
  obtain ⟨-, rfl⟩ | ⟨k, -, hrun⟩ := blockStep_next h
  · rfl
  obtain ⟨-, rfl⟩ | ⟨sp, a, -, rfl⟩ | ⟨bs, i, rest, -, -, hexec⟩ := runItem_next hrun
  · rfl
  · exact hostSide_raiseNoValue sp s
  · exact exec_hostSide hexec

/-- Settles O51: neither the fetch's faults nor any instruction touches the host's side. -/
theorem blockNeverWritesHostBuffers : Obligations.BlockNeverWritesHostBuffers := by
  intro s t h
  simpa only [hostSide, Prod.mk.injEq] using blockStep_hostSide h

/-- Settles O52: under the invariant the LZD's step is a fault of its fetch, which moves no cursor, or runs one of the
LZD's instructions. -/
theorem cursorsOnlyAdvance : Obligations.CursorsOnlyAdvance := by
  intro s t hinv hb hu h
  obtain ⟨k, hs⟩ := select_of_inv hinv hb
  suffices hgoal : CursorsKept s t ∧ (k = .lit ∨ k = .ref → t.run = .busy → s.ip < t.ip ∧ s.op < t.op) by
    obtain ⟨⟨hip, hop⟩, htoken⟩ := hgoal
    rw [hs]
    simpa using ⟨hip, hop, htoken⟩
  obtain ⟨-, hfault⟩ | ⟨i, hwf, rfl, hexec⟩ := blockStep_of_inv hinv hs
  · rw [hfault] at h
    obtain rfl := Host.Outcome.next.inj h
    exact ⟨.of_eq rfl rfl, fun _ hr => by simp at hr⟩
  rw [hexec] at h
  cases i with
  | hdr d g => exact ⟨execHdr_cursors (g := g) hinv h, nofun⟩
  | ctl c => exact ⟨execCtl_cursors h, nofun⟩
  | fin => exact ⟨execFin_cursors h, nofun⟩
  | lit v => exact (execLit_moves h).cursors.imp_right fun hmoves _ => hmoves
  | ref d l =>
    obtain ⟨-, -, hlen, -⟩ := ref_wf_iff.1 hwf
    exact (execRef_moves (by omega) h).cursors.imp_right fun hmoves _ => hmoves
  | pexp => simp [select_pexp, Instr.kind, hu] at hs
  | pfin => simp [select_pfin, Instr.kind, hu] at hs
  | pix => simp [select_pix, Instr.kind, hu] at hs
  | rfin => simp [select_rfin, Instr.kind, hu] at hs
  | decomp | palx | recon | frame => exact absurd hs (select_ne_cmd s)

end Sys2Proof.Proofs

/-! SUPPORT. The host's registers: what each bit and each number reads, the write of `IN_LEN`, and reset. -/

namespace Sys2Proof.Machine

open Sys2Proof.Safety

/-- A read of a register that exists answers its value and changes nothing but the reply. -/
theorem hostReadReg_of {s : State} {n : Nat} {v : BitVec 32} (h : readRegister s n = some v) :
    hostStep (.readReg n) s = .next { s with reply := .register v } := by
  show hostReadReg n s = _
  rw [hostReadReg, h]

/-- No register has a number of 6 or more (R44, U18). -/
theorem readRegister_absent (s : State) {n : Nat} (h : 6 ≤ n) : readRegister s n = none := by
  match n, h with
  | _ + 6, _ => rfl

/-- `STATUS` is its seven fields shifted in one by one under the reserved bit (R39). -/
theorem status_eq_concat (s : State) :
    status s = (((((((BitVec.concat 0#1 s.outValid).concat s.palExpValid).concat s.palRawValid).concat
      (decide (s.imgValid = s.params.imgCap))).concat (decide (s.run = .fault))).concat s.done).concat
      (decide (s.run = .busy))) := rfl

/-- The bits of `STATUS`, bit 0 first (R39). -/
theorem status_bits (s : State) :
    (status s).getLsbD 0 = decide (s.run = .busy) ∧ (status s).getLsbD 1 = s.done ∧
      (status s).getLsbD 2 = decide (s.run = .fault) ∧
      (status s).getLsbD 3 = decide (s.imgValid = s.params.imgCap) ∧
      (status s).getLsbD 4 = s.palRawValid ∧ (status s).getLsbD 5 = s.palExpValid ∧
      (status s).getLsbD 6 = s.outValid ∧ (status s).getLsbD 7 = false := by
  rw [status_eq_concat]
  simp

/-- `IN_LEN` and `IMG_COUNT` lose no bit of what they hold (log entry 19). -/
theorem inLen_lt {s : State} (hinv : BlockInv s) : s.inLen < 2 ^ 32 :=
  hinv.inLen_le.trans_lt hinv.params_wf.inCap_lt

theorem imgValid_lt {s : State} (hinv : BlockInv s) : s.imgValid < 2 ^ 24 :=
  (hinv.imgValid_le.trans hinv.params_wf.npix_le).trans_lt (by decide)

/-- The state that reset gives is as R45 says, for every legal geometry: an image of no pixels would count as full. -/
theorem afterReset_resetWith {p : Params} (hp : p.wf) (ts : List Turn) (r : Reply) (n : Nat) :
    AfterReset (State.resetWith p ts r n) where
  run := rfl
  done := rfl
  inLen := rfl
  faultCause := rfl
  faultInfo := rfl
  imgValid := rfl
  palRawValid := rfl
  palExpValid := rfl
  outValid := rfl
  no_values a := ⟨not_holds_nil a, not_holds_nil a, not_holds_nil a, not_holds_nil a, not_holds_nil a⟩
  status_zero := by
    have hpix : 0 ≠ p.imgCap := (Nat.mul_pos hp.width_pos hp.height_pos).ne
    simp [readRegister, status, State.resetWith, hpix]
  count_zero := rfl

end Sys2Proof.Machine

namespace Sys2Proof.Proofs

open Sys2Proof.Machine Sys2Proof.Safety

/-- Settles O29: an idle block takes the write, and `keepBelow` is what it leaves of `IN`. -/
theorem inLenWriteSetsLength : Obligations.InLenWriteSetsLength := by
  intro s v hrun hcap
  refine ⟨keepBelow v.toNat s.inp, ?_, unitAt_keepBelow s.inp v.toNat⟩
  show hostWriteInLen v s = _
  rw [hostWriteInLen, hostWrite, hrun]
  exact if_neg (Nat.not_lt.2 hcap)

/-- Settles O30: the bits are read off the table, and the invariant keeps DONE to an idle block. -/
theorem statusBits : Obligations.StatusBits := by
  refine ⟨fun s => ?_, fun s hinv => ?_⟩
  · obtain ⟨h0, h1, h2, h3, h4, h5, h6, h7⟩ := status_bits s
    exact ⟨h0, h1, h2, h3, h4, h5, h6, h7, hostReadReg_of rfl⟩
  · obtain ⟨hbusy, hdone, hfault, -⟩ := status_bits s
    rw [hbusy, hdone, hfault]
    refine ⟨fun ⟨hb, hf⟩ => ?_, fun hd => ?_⟩
    · simp [of_decide_eq_true hb] at hf
    · simp [hinv.done_idle hd]

/-- Settles O31: each number reads its field, and the two counts fit their registers under the invariant. -/
theorem registerReads : Obligations.RegisterReads := by
  refine ⟨fun s => ⟨hostReadReg_of rfl, hostReadReg_of rfl, hostReadReg_of rfl, fun n hn => ?_⟩,
    fun s hinv => ⟨_, _, hostReadReg_of rfl, ?_, hostReadReg_of rfl, ?_⟩⟩
  · show hostReadReg n s = _
    rw [hostReadReg, readRegister_absent s hn]
  · rw [BitVec.toNat_ofNat, Nat.mod_eq_of_lt (inLen_lt hinv)]
  · rw [BitVec.toNat_setWidth_of_le (by decide), BitVec.toNat_ofNat, Nat.mod_eq_of_lt (imgValid_lt hinv)]

/-- Settles O39: the host's reset and the state the block first runs from are both a `State.resetWith`. -/
theorem resetLeavesStatedValues : Obligations.ResetLeavesStatedValues :=
  ⟨fun s hp => ⟨resetBlock s, rfl, rfl, afterReset_resetWith hp s.turns s.reply s.draws⟩,
    afterReset_resetWith config_params_wf [] .nothing 0⟩

end Sys2Proof.Proofs

/-! SUPPORT. The header word: its value, and the parts that decoding takes from it (R58, R82). -/

namespace Sys2Proof

/-- A byte appended below a word adds its value under the word shifted up by a byte. -/
theorem toNat_append_byte {n : Nat} (x : BitVec n) (b : Byte) : (x ++ b).toNat = x.toNat * 2 ^ 8 + b.toNat := by
  rw [BitVec.toNat_append, ← Nat.shiftLeft_add_eq_or_of_lt b.isLt, Nat.shiftLeft_eq]

theorem toNat_leWord32 (b0 b1 b2 b3 : Byte) :
    (leWord32 b0 b1 b2 b3).toNat = b0.toNat + b1.toNat * 2 ^ 8 + b2.toNat * 2 ^ 16 + b3.toNat * 2 ^ 24 := by
  simp only [leWord32, toNat_append_byte]
  omega

@[simp] theorem headerTag_leWord32 (b0 b1 b2 b3 : Byte) : headerTag (leWord32 b0 b1 b2 b3) = b0 :=
  BitVec.extractLsb'_append_eq_right

@[simp] theorem headerDeclared_leWord32 (b0 b1 b2 b3 : Byte) :
    headerDeclared (leWord32 b0 b1 b2 b3) = b3 ++ b2 ++ b1 :=
  BitVec.extractLsb'_append_eq_left

/-- Shifting the tag out of a header word keeps the declared length whole: the shifted word has 24 bits. -/
theorem toNat_headerDeclared (w : BitVec 32) : (headerDeclared w).toNat = (w >>> 8).toNat := by
  have hw : w.toNat >>> 8 < 2 ^ 24 := by
    have := w.isLt
    omega
  rw [headerDeclared, BitVec.extractLsb'_toNat, BitVec.toNat_ushiftRight, Nat.mod_eq_of_lt hw]

end Sys2Proof

namespace Sys2Proof.Proofs

/-- Settles O2: the word is `leWord32` of the header bytes, from which decoding takes the tag and the declared length. -/
theorem headerIsLittleEndian : Obligations.HeaderIsLittleEndian := by
  intro b0 b1 b2 b3 rest
  refine ⟨leWord32 b0 b1 b2 b3, headerDeclared (leWord32 b0 b1 b2 b3), ?_, toNat_leWord32 b0 b1 b2 b3, rfl,
    toNat_headerDeclared _, (headerTag_leWord32 b0 b1 b2 b3).symm, ?_⟩
  · rw [decode, headerTag_leWord32]
  · rw [headerDeclared_leWord32]
    simp only [toNat_append_byte]
    omega

end Sys2Proof.Proofs

/-! SUPPORT. The encoder against the decoder: each operand field is taken apart and put together without loss. -/

namespace Sys2Proof

/-! ### The little-endian words (R58, R60, R82) -/

/-- A word of 24 bits is its three bytes, the highest first. -/
theorem append_bytes_eq_word24 (d : BitVec 24) : d.extractLsb' 16 8 ++ d.extractLsb' 8 8 ++ d.extractLsb' 0 8 = d := by
  rw [BitVec.extractLsb'_append_extractLsb'_eq_extractLsb' (show 16 = 8 + 8 from rfl),
    BitVec.extractLsb'_append_extractLsb'_eq_extractLsb' (show 8 = 0 + 8 from rfl)]
  exact BitVec.extractLsb'_eq_self

theorem extract_middle_byte (b1 b2 b3 : Byte) : (b3 ++ b2 ++ b1).extractLsb' 8 8 = b2 := by
  rw [BitVec.extractLsb'_append_eq_of_le (by decide)]
  exact BitVec.extractLsb'_append_eq_right

theorem extract_high_byte (b1 b2 b3 : Byte) : (b3 ++ b2 ++ b1).extractLsb' 16 8 = b3 := by
  rw [BitVec.extractLsb'_append_eq_of_le (by decide)]
  exact BitVec.extractLsb'_append_eq_left

theorem leWord16_bytes (v : RawEntry) : leWord16 (v.extractLsb' 0 8) (v.extractLsb' 8 8) = v := by
  rw [leWord16, BitVec.extractLsb'_append_extractLsb'_eq_extractLsb' (show 8 = 0 + 8 from rfl)]
  exact BitVec.extractLsb'_eq_self

theorem toNat_leWord16 (b0 b1 : Byte) : (leWord16 b0 b1).toNat = b1.toNat * 2 ^ 8 + b0.toNat :=
  toNat_append_byte b1 b0

/-! ### The operands of a back-reference (R86) -/

theorem refDist_eq (b0 b1 : Byte) : refDist b0 b1 = b0.toNat % 16 * 2 ^ 8 + b1.toNat + 1 := by
  rw [refDist, toNat_append_byte, BitVec.extractLsb'_toNat, Nat.shiftRight_zero]

theorem refLen_eq (b0 : Byte) : refLen b0 = b0.toNat / 16 + 3 := by
  have hb0 := b0.isLt
  rw [refLen, BitVec.extractLsb'_toNat, Nat.shiftRight_eq_div_pow]
  omega

/-- The mask of the low four bits of a token. -/
theorem toNat_and_low4 (t : BitVec 16) : (t &&& 0x000F#16).toNat = t.toNat % 16 :=
  Nat.and_two_pow_sub_one_eq_mod t.toNat 4

theorem refDist_eq_token (b0 b1 : Byte) :
    refDist b0 b1 = ((leWord16 b0 b1 &&& 0x000F#16) <<< 8 ||| leWord16 b0 b1 >>> 8).toNat + 1 := by
  have hb0 := b0.isLt
  have hb1 := b1.isLt
  have hhigh : (leWord16 b0 b1 >>> 8).toNat = b1.toNat := by
    rw [BitVec.toNat_ushiftRight, toNat_leWord16]
    omega
  have hlow : ((leWord16 b0 b1 &&& 0x000F#16) <<< 8).toNat = (b0.toNat % 16) <<< 8 := by
    rw [BitVec.toNat_shiftLeft, toNat_and_low4, toNat_leWord16]
    omega
  rw [refDist_eq, BitVec.toNat_or, hhigh, hlow, ← Nat.shiftLeft_add_eq_or_of_lt hb1, Nat.shiftLeft_eq]

theorem refLen_eq_token (b0 b1 : Byte) : refLen b0 = ((leWord16 b0 b1 >>> 4) &&& 0x000F#16).toNat + 3 := by
  have hb0 := b0.isLt
  rw [refLen_eq, toNat_and_low4, BitVec.toNat_ushiftRight, toNat_leWord16]
  omega

/-- The length and the high part of the distance are a nibble each, so no bit of the first byte is lost. -/
theorem toNat_refByte0 {dist len : Nat} (hd : dist ≤ 4096) (hl : len ≤ 18) :
    (refByte0 dist len).toNat = (len - 3) * 16 + (dist - 1) / 256 := by
  rw [refByte0, BitVec.toNat_ofNat]
  omega

theorem toNat_refByte1 (dist : Nat) : (refByte1 dist).toNat = (dist - 1) % 256 :=
  BitVec.toNat_ofNat _ _

theorem toNat_refByte0_eq_or {dist len : Nat} (hd : dist ≤ 4096) (hl : len ≤ 18) :
    (refByte0 dist len).toNat = ((len - 3) <<< 4 ||| (dist - 1) >>> 8) := by
  have hnibble : (dist - 1) >>> 8 < 2 ^ 4 := by omega
  rw [toNat_refByte0 hd hl, ← Nat.shiftLeft_add_eq_or_of_lt hnibble]
  omega

theorem refDist_refBytes {dist len : Nat} (hd : 1 ≤ dist) (hd' : dist ≤ 4096) (hl : len ≤ 18) :
    refDist (refByte0 dist len) (refByte1 dist) = dist := by
  rw [refDist_eq, toNat_refByte0 hd' hl, toNat_refByte1]
  omega

theorem refLen_refByte0 {dist len : Nat} (hd : dist ≤ 4096) (hl : 3 ≤ len) (hl' : len ≤ 18) :
    refLen (refByte0 dist len) = len := by
  rw [refLen_eq, toNat_refByte0 hd hl']
  omega

theorem refByte0_operands (b0 b1 : Byte) : refByte0 (refDist b0 b1) (refLen b0) = b0 := by
  have hb1 := b1.isLt
  obtain ⟨-, hd, -, hl⟩ := Machine.ref_wf_iff.1 (Machine.ref_operands_wf b0 b1)
  apply BitVec.eq_of_toNat_eq
  rw [toNat_refByte0 hd hl, refDist_eq, refLen_eq]
  omega

theorem refByte1_operands (b0 b1 : Byte) : refByte1 (refDist b0 b1) = b1 := by
  have hb1 := b1.isLt
  apply BitVec.eq_of_toNat_eq
  rw [toNat_refByte1, refDist_eq]
  omega

/-! ### The commands (R90) -/

/-- A command is written as the code that selects it. -/
theorem encode_of_commandOf {b : Byte} {i : Instr} (h : commandOf b = some i) : encode i = [b] := by
  revert h
  fun_cases commandOf b with
  | case1 | case2 | case3 | case4 => rintro ⟨⟩; subst b; rfl
  | case5 => nofun

/-- A command is decoded from its code. -/
theorem decode_cmd_ok {bs rest : List Byte} {i : Instr} (h : decode .cmd bs = .ok (i, rest)) :
    ∃ b, bs = b :: rest ∧ commandOf b = some i := by
  cases bs with
  | nil => nomatch h
  | cons b r =>
    rw [decode] at h
    split at h
    · next j hj =>
      obtain ⟨rfl, rfl⟩ := Prod.mk.inj (Except.ok.inj h)
      exact ⟨b, rfl, hj⟩
    · nomatch h

/-! ### Encoding what was decoded -/

/-- The bytes read are the encoding of the item they decode to, then the rest. -/
theorem encode_append_of_decode {k : Kind} {bs rest : List Byte} {i : Instr} (h : decode k bs = .ok (i, rest)) :
    bs = encode i ++ rest := by
  cases k with
  | hdr =>
    match bs, h with
    | b0 :: b1 :: b2 :: b3 :: _, h =>
      obtain ⟨rfl, rfl⟩ := Prod.mk.inj (Except.ok.inj h)
      rw [encode, headerTag_leWord32, headerDeclared_leWord32, extract_high_byte, extract_middle_byte,
        BitVec.extractLsb'_append_eq_right]
      rfl
  | ref =>
    obtain ⟨b0, b1, rfl, rfl⟩ := Machine.decode_ref_ok h
    rw [encode, refByte0_operands, refByte1_operands]
    rfl
  | pexp =>
    match bs, h with
    | b0 :: b1 :: _, h =>
      obtain ⟨rfl, rfl⟩ := Prod.mk.inj (Except.ok.inj h)
      rw [encode, leWord16, BitVec.extractLsb'_append_eq_right, BitVec.extractLsb'_append_eq_left]
      rfl
  | ctl | lit | pix =>
    match bs, h with
    | b :: _, h =>
      obtain ⟨rfl, rfl⟩ := Prod.mk.inj (Except.ok.inj h)
      rfl
  | fin | pfin | rfin =>
    obtain ⟨rfl, rfl⟩ := Prod.mk.inj (Except.ok.inj h)
    rfl
  | cmd =>
    obtain ⟨b, rfl, hb⟩ := decode_cmd_ok h
    rw [encode_of_commandOf hb]
    rfl

end Sys2Proof

namespace Sys2Proof.Proofs

open Sys2Proof.Machine

/-- Settles O4: each format's fields are put together as they were taken apart; only those of a back-reference need
the ranges of R97. -/
theorem decodeReadsBackEncode : Obligations.DecodeReadsBackEncode := by
  intro i rest hwf
  cases i with
  | hdr d g =>
    show Except.ok (Instr.hdr (headerDeclared _) (headerTag _), rest) = _
    rw [headerTag_leWord32, headerDeclared_leWord32, append_bytes_eq_word24]
  | ref dist len =>
    obtain ⟨hd, hd', hl, hl'⟩ := ref_wf_iff.1 hwf
    show Except.ok (Instr.ref (refDist _ _) (refLen _), rest) = _
    rw [refDist_refBytes hd hd' hl', refLen_refByte0 hd' hl hl']
  | pexp v =>
    show Except.ok (Instr.pexp (leWord16 _ _), rest) = _
    rw [leWord16_bytes]
  | ctl | lit | fin | pfin | pix | rfin | decomp | palx | recon | frame => rfl

/-- Settles O3: both readings are the same digits in base 16 and 256, and the inverse puts them back. -/
theorem refOperandAssembly : Obligations.RefOperandAssembly := by
  refine ⟨fun b0 b1 => ?_, fun dist len hd hd' hl hl' => ?_, by decide⟩
  · exact ⟨refDist_eq b0 b1, refDist_eq_token b0 b1, refLen_eq b0, refLen_eq_token b0 b1,
      ref_wf_iff.1 (ref_operands_wf b0 b1)⟩
  · exact ⟨toNat_refByte0_eq_or hd' hl',
      (toNat_refByte1 dist).trans (Nat.and_two_pow_sub_one_eq_mod (dist - 1) 8).symm,
      refDist_refBytes hd hd' hl', refLen_refByte0 hd' hl hl'⟩

/-- Settles O5: each kind's bytes are rebuilt from the fields the decoder took from them. -/
theorem encodeRebuildsDecodedBytes : Obligations.EncodeRebuildsDecodedBytes :=
  fun _ _ _ _ h => ⟨decode_wf h, decode_kind h, encode_append_of_decode h⟩

end Sys2Proof.Proofs

/-! SUPPORT. The expansion of a palette entry as its three channels (R87, R141, R144), and the writing of one pixel
(R158). -/

namespace Sys2Proof.Machine

/-! ### The channels of an entry -/

/-- The mask of R144 keeps every field of bits 14:0. -/
theorem extract_and_low15 {v : RawEntry} {start : Nat} (h : (0x7FFF#16).extractLsb' start 5 = BitVec.allOnes 5) :
    (v &&& 0x7FFF#16).extractLsb' start 5 = v.extractLsb' start 5 := by
  rw [BitVec.extractLsb'_and, h, BitVec.and_allOnes]

theorem lowChannel_and_low15 (v : RawEntry) : lowChannel (v &&& 0x7FFF#16) = lowChannel v :=
  extract_and_low15 (by decide)

theorem midChannel_and_low15 (v : RawEntry) : midChannel (v &&& 0x7FFF#16) = midChannel v :=
  extract_and_low15 (by decide)

theorem highChannel_and_low15 (v : RawEntry) : highChannel (v &&& 0x7FFF#16) = highChannel v :=
  extract_and_low15 (by decide)

/-- An entry without bit 15 is its three channels under a zero bit. -/
theorem and_low15_eq_channels (v : RawEntry) :
    v &&& 0x7FFF#16 = 0#1 ++ highChannel v ++ midChannel v ++ lowChannel v := by
  have hbits : v = v.extractLsb' 15 1 ++ highChannel v ++ midChannel v ++ lowChannel v := by
    rw [highChannel, midChannel, lowChannel,
      BitVec.extractLsb'_append_extractLsb'_eq_extractLsb' (show 15 = 10 + 5 from rfl),
      BitVec.extractLsb'_append_extractLsb'_eq_extractLsb' (show 10 = 5 + 5 from rfl),
      BitVec.extractLsb'_append_extractLsb'_eq_extractLsb' (show 5 = 0 + 5 from rfl)]
    exact BitVec.extractLsb'_eq_self.symm
  have hmask : 0x7FFF#16 = 0#1 ++ BitVec.allOnes 5 ++ BitVec.allOnes 5 ++ BitVec.allOnes 5 := by decide
  calc v &&& 0x7FFF#16
      = (v.extractLsb' 15 1 ++ highChannel v ++ midChannel v ++ lowChannel v) &&&
          (0#1 ++ BitVec.allOnes 5 ++ BitVec.allOnes 5 ++ BitVec.allOnes 5) := by rw [← hbits, ← hmask]
    _ = 0#1 ++ highChannel v ++ midChannel v ++ lowChannel v := by
      simp only [BitVec.and_append, BitVec.and_allOnes, BitVec.and_zero]

/-! ### The channels of a colour -/

/-- A layout's channels stand in bits 23:19, 15:11 and 7:3 of the colour (R141). -/
theorem red5_expand (l : PalLayout) (v : RawEntry) : (expand l v).extractLsb' 19 5 = red5 l v := by
  rw [expand, BitVec.extractLsb'_append_eq_of_le (by decide), BitVec.extractLsb'_append_eq_of_le (by decide),
    BitVec.extractLsb'_append_eq_of_le (by decide), BitVec.extractLsb'_append_eq_of_le (by decide)]
  exact BitVec.extractLsb'_append_eq_left

theorem green5_expand (l : PalLayout) (v : RawEntry) : (expand l v).extractLsb' 11 5 = green5 v := by
  rw [expand, BitVec.extractLsb'_append_eq_of_le (by decide), BitVec.extractLsb'_append_eq_of_le (by decide),
    BitVec.extractLsb'_append_eq_of_le (by decide)]
  exact BitVec.extractLsb'_append_eq_right

theorem blue5_expand (l : PalLayout) (v : RawEntry) : (expand l v).extractLsb' 3 5 = blue5 l v := by
  rw [expand, BitVec.extractLsb'_append_eq_of_le (by decide)]
  exact BitVec.extractLsb'_append_eq_right

/-- The expansion keeps all three channels, whichever two a layout takes for red and blue. -/
theorem channels_eq_of_expand_eq {l : PalLayout} {v u : RawEntry} (h : expand l v = expand l u) :
    highChannel v = highChannel u ∧ midChannel v = midChannel u ∧ lowChannel v = lowChannel u := by
  have hred : red5 l v = red5 l u := by rw [← red5_expand, h, red5_expand]
  have hgreen : green5 v = green5 u := by rw [← green5_expand l, h, green5_expand]
  have hblue : blue5 l v = blue5 l u := by rw [← blue5_expand, h, blue5_expand]
  cases l with
  | redLow => exact ⟨hblue, hgreen, hred⟩
  | redHigh => exact ⟨hred, hgreen, hblue⟩

/-- The expansion reads an entry through its channels alone. -/
theorem expand_congr {l : PalLayout} {v u : RawEntry} (hhigh : highChannel v = highChannel u)
    (hmid : midChannel v = midChannel u) (hlow : lowChannel v = lowChannel u) : expand l v = expand l u := by
  cases l with
  | redLow => rw [expand, expand, red5, red5, green5, green5, blue5, blue5, hhigh, hmid, hlow]
  | redHigh => rw [expand, expand, red5, red5, green5, green5, blue5, blue5, hhigh, hmid, hlow]

/-- The low 3 bits of each byte are the zeros under its channel. -/
theorem expand_and_low3 (l : PalLayout) (v : RawEntry) : expand l v &&& 0x070707#24 = 0 := by
  calc expand l v &&& 0x070707#24
      = (red5 l v ++ 0#3 ++ green5 v ++ 0#3 ++ blue5 l v ++ 0#3) &&&
          (0#5 ++ 7#3 ++ 0#5 ++ 7#3 ++ 0#5 ++ 7#3) := rfl
    _ = 0#5 ++ 0#3 ++ 0#5 ++ 0#3 ++ 0#5 ++ 0#3 := by
      simp only [BitVec.and_append, BitVec.and_zero, BitVec.zero_and]
    _ = 0 := rfl

/-! ### One pixel (R158) -/

/-- What `OUT` holds once the bytes of a pixel are written in the order of R89. -/
theorem unitAt_writePixel {sp : Space} {cap a : Nat} {m m' : Cells 8} {c : Colour}
    (h : writeRun sp cap m a (pixelBytes c) = .ok m') (b : Nat) :
    unitAt m' b = if b = a then some (red8 c) else if b = a + 1 then some (green8 c)
      else if b = a + 2 then some (blue8 c) else unitAt m b := by
  obtain ⟨-, hval, -⟩ := writeRun_ok h
  have hlen : (pixelBytes c).length = 3 := rfl
  rw [hval b, hlen]
  by_cases hin : a ≤ b ∧ b < a + 3
  · rw [if_pos hin]
    obtain rfl | rfl | rfl : b = a ∨ b = a + 1 ∨ b = a + 2 := by omega
    all_goals simp [pixelBytes]
  · rw [if_neg hin, if_neg (by omega), if_neg (by omega), if_neg (by omega)]

/-- A pixel whose palette entry holds a value, with room for its bytes, is appended. -/
theorem execPix_of {s : State} {k : Byte} {c : Colour} {m : Cells 8} (hs : select s = some .pix)
    (hc : unitAt s.palExp k.toNat = some c) (hm : writeRun .out s.params.outLen s.out s.wp (pixelBytes c) = .ok m) :
    execPix k s = .next (afterPixel m s) := by
  have hlookup : readUnit .palExp palSize s.palExp k.toNat = .ok c := readUnit_ok_iff.2 ⟨k.isLt, hc⟩
  rw [execPix, whenEnabled_of hs, hlookup]
  simp only [hm]

/-- Column and row of the next pixel, each by its own condition (R158). -/
theorem nextPixel_eq (p : Params) (x y : Nat) :
    nextPixel p x y = (if x + 1 < p.width then x + 1 else 0,
      if x + 1 < p.width then y else if 0 < y then y - 1 else y) := by
  unfold nextPixel
  split
  · rfl
  · split <;> rfl

end Sys2Proof.Machine

namespace Sys2Proof.Proofs

open Sys2Proof.Machine

/-- Settles O18: the expansion reads an entry through its three channels, keeps them, and has zeros below each. -/
theorem expandProperties : Obligations.ExpandProperties := by
  intro l
  refine ⟨fun v => ?_, fun v u h => ?_, expand_and_low3 l, ?_⟩
  · exact expand_congr (highChannel_and_low15 v).symm (midChannel_and_low15 v).symm (lowChannel_and_low15 v).symm
  · obtain ⟨hhigh, hmid, hlow⟩ := channels_eq_of_expand_eq h
    rw [and_low15_eq_channels, and_low15_eq_channels, hhigh, hmid, hlow]
  · cases l with
    | redLow => decide
    | redHigh => decide

/-- Settles O1: the decoder computes each item from its bytes. -/
theorem sampleWordsDecode : Obligations.SampleWordsDecode :=
  ⟨rfl, rfl, rfl, rfl, rfl, rfl, rfl, rfl, rfl⟩

/-- Settles O6: each of these kinds decodes from any bytes of its length. -/
theorem everyStreamItemIsLegal : Obligations.EveryStreamItemIsLegal := fun _ _ _ _ =>
  ⟨decode_isOk nofun rfl, decode_isOk nofun rfl, decode_isOk nofun rfl, decode_isOk nofun rfl,
    decode_isOk nofun rfl, decode_isOk nofun rfl⟩

/-- Settles O12: `execHdr` does not read its tag. -/
theorem headerTagIsIgnored : Obligations.HeaderTagIsIgnored := fun _ _ _ _ => rfl

/-- Settles O21: the three bytes of the entry are a run of writes that has room, and `nextPixel` moves the sweep. -/
theorem pixAppendsOnePixel : Obligations.PixAppendsOnePixel := by
  intro s hrun hunit hroom
  have hs : select s = some .pix := select_pix.2 ⟨hrun, hunit, by omega⟩
  refine ⟨fun k c hc => ?_, fun k hin hk => ?_⟩
  · obtain ⟨m, hm⟩ := writeRun_isOk (sp := .out) (m := s.out) (pixelBytes c)
      (show s.wp + 3 ≤ s.params.outLen by omega)
    refine ⟨m, ?_, unitAt_writePixel hm⟩
    show execPix k s = _
    rw [execPix_of hs hc hm, afterPixel, nextPixel_eq]
  · exact blockStep_of_decoded hs (fetchPixel_of hin hk) rfl

end Sys2Proof.Proofs

/-! SUPPORT. The LZD's rules: what each of its steps answers in its condition, branch by branch, and how the block's
step comes to run it on the bytes at `ip`. -/

namespace Sys2Proof.Machine

open Sys2Proof.Safety Sys2Proof.Laws

/-! ### Bytes at `ip` -/

/-- An item below `IN_LEN` whose bytes hold values is fetched whole (R56). -/
theorem fetchStream_of {s : State} {bs : List Byte} (hin : s.ip + bs.length ≤ s.inLen)
    (hcap : s.inLen ≤ s.params.inCap) (hbs : ∀ i, i < bs.length → unitAt s.inp (s.ip + i) = bs[i]?) :
    fetchStream bs.length s = .item bs := by
  have hread : readRun .inp s.params.inCap s.inp s.ip bs.length = .ok bs :=
    readRun_ok_iff.2 ⟨rfl, fun i hi => ⟨by omega, hbs i hi⟩⟩
  rw [fetchStream, if_neg (Nat.not_lt.2 hin), hread]

/-- The block's step on an item of the stream whose bytes are below `IN_LEN` and hold values. -/
theorem blockStep_of_bytes {k : Kind} {s : State} {bs : List Byte} {i : Instr} (hs : select s = some k)
    (hk : onStream k) (hlen : bs.length = itemBytes k) (hd : decode k bs = .ok (i, []))
    (hin : s.ip + bs.length ≤ s.inLen) (hcap : s.inLen ≤ s.params.inCap)
    (hbs : ∀ j, j < bs.length → unitAt s.inp (s.ip + j) = bs[j]?) : blockStep s = exec i s := by
  refine blockStep_of_decoded hs ?_ hd
  rw [fetch_of_onStream hk, ← hlen]
  exact fetchStream_of hin hcap hbs

/-- The block's step on an item of the stream that is not wholly below `IN_LEN` (R56, R191). -/
theorem blockStep_of_underrun {k : Kind} {s : State} (hs : select s = some k) (hk : onStream k)
    (hlt : s.inLen < s.ip + itemBytes k) : blockStep s = .next (raiseFault .inputUnderrun s.ip s) := by
  refine (blockStep_of hs).trans (runItem_of_underrun ?_)
  rw [fetch_of_onStream hk]
  exact if_pos hlt

theorem decode_hdr_bytes (b0 b1 b2 b3 : Byte) : decode .hdr [b0, b1, b2, b3] = .ok (.hdr (b3 ++ b2 ++ b1) b0, []) := by
  rw [decode, headerTag_leWord32, headerDeclared_leWord32]

/-- The operands of R86 as the digits of the two bytes. -/
theorem decode_ref_bytes (b0 b1 : Byte) :
    decode .ref [b0, b1] = .ok (.ref (b0.toNat % 16 * 2 ^ 8 + b1.toNat + 1) (b0.toNat / 16 + 3), []) := by
  rw [decode, refDist_eq, refLen_eq]

/-- HDR on four bytes that are there (R112). -/
theorem blockStep_hdr {s : State} {b0 b1 b2 b3 : Byte} (hs : select s = some .hdr) (hin : s.ip + 4 ≤ s.inLen)
    (hcap : s.inLen ≤ s.params.inCap) (h0 : unitAt s.inp s.ip = some b0) (h1 : unitAt s.inp (s.ip + 1) = some b1)
    (h2 : unitAt s.inp (s.ip + 2) = some b2) (h3 : unitAt s.inp (s.ip + 3) = some b3) :
    blockStep s = execHdr (b3 ++ b2 ++ b1) b0 s :=
  blockStep_of_bytes hs (.inl rfl) rfl (decode_hdr_bytes b0 b1 b2 b3) hin hcap fun
    | 0, _ => h0
    | 1, _ => h1
    | 2, _ => h2
    | 3, _ => h3

/-- CTL on a byte that is there (R114). -/
theorem blockStep_ctl {s : State} {c : Byte} (hs : select s = some .ctl) (hin : s.ip + 1 ≤ s.inLen)
    (hcap : s.inLen ≤ s.params.inCap) (hc : unitAt s.inp s.ip = some c) : blockStep s = execCtl c s :=
  blockStep_of_bytes (bs := [c]) hs (.inr (.inl rfl)) rfl rfl hin hcap fun
    | 0, _ => hc

/-- LIT on a byte that is there (R116). -/
theorem blockStep_lit {s : State} {v : Byte} (hs : select s = some .lit) (hin : s.ip + 1 ≤ s.inLen)
    (hcap : s.inLen ≤ s.params.inCap) (hv : unitAt s.inp s.ip = some v) : blockStep s = execLit v s :=
  blockStep_of_bytes (bs := [v]) hs (.inr (.inr (.inl rfl))) rfl rfl hin hcap fun
    | 0, _ => hv

/-- REF on two bytes that are there (R118). -/
theorem blockStep_ref {s : State} {b0 b1 : Byte} (hs : select s = some .ref) (hin : s.ip + 2 ≤ s.inLen)
    (hcap : s.inLen ≤ s.params.inCap) (h0 : unitAt s.inp s.ip = some b0) (h1 : unitAt s.inp (s.ip + 1) = some b1) :
    blockStep s = execRef (b0.toNat % 16 * 2 ^ 8 + b1.toNat + 1) (b0.toNat / 16 + 3) s :=
  blockStep_of_bytes hs (.inr (.inr (.inr rfl))) rfl (decode_ref_bytes b0 b1) hin hcap fun
    | 0, _ => h0
    | 1, _ => h1

/-- FIN fetches nothing (R100, R122). -/
theorem blockStep_fin {s : State} (hs : select s = some .fin) : blockStep s = execFin s :=
  blockStep_of_decoded (rest := []) hs rfl rfl

/-! ### The meanings, branch by branch -/

theorem execHdr_of_underrun {s : State} (d : BitVec 24) (g : Byte) (hs : select s = some .hdr)
    (hlt : s.inLen < s.ip + 4) : execHdr d g s = .next (raiseFault .inputUnderrun s.ip s) := by
  rw [execHdr, whenEnabled_of hs, withInput_underrun hlt]

theorem execHdr_of_tooLong {s : State} {d : BitVec 24} (g : Byte) (hs : select s = some .hdr)
    (hin : s.ip + 4 ≤ s.inLen) (hd : s.params.imgCap < d.toNat) :
    execHdr d g s = .next (raiseFault .lengthExceedsCapacity d.toNat s) := by
  rw [execHdr, whenEnabled_of hs, withInput_of hin, if_pos hd]

theorem execHdr_of {s : State} {d : BitVec 24} (g : Byte) (hs : select s = some .hdr) (hin : s.ip + 4 ≤ s.inLen)
    (hd : d.toNat ≤ s.params.imgCap) : execHdr d g s =
      .next { s with endAt := d.toNat, op := 0, ctl := 0, nbits := 0, ip := s.ip + 4, phase := .tok } := by
  rw [execHdr, whenEnabled_of hs, withInput_of hin, if_neg (Nat.not_lt.2 hd)]

theorem execCtl_of_underrun {s : State} (c : Byte) (hs : select s = some .ctl) (hlt : s.inLen < s.ip + 1) :
    execCtl c s = .next (raiseFault .inputUnderrun s.ip s) := by
  rw [execCtl, whenEnabled_of hs, withInput_underrun hlt]

theorem execCtl_of {s : State} (c : Byte) (hs : select s = some .ctl) (hin : s.ip + 1 ≤ s.inLen) :
    execCtl c s = .next { s with ctl := c, nbits := 8, ip := s.ip + 1 } := by
  rw [execCtl, whenEnabled_of hs, withInput_of hin]

theorem execLit_of_underrun {s : State} (v : Byte) (hs : select s = some .lit) (hlt : s.inLen < s.ip + 1) :
    execLit v s = .next (raiseFault .inputUnderrun s.ip s) := by
  rw [execLit, whenEnabled_of hs, withInput_underrun hlt]

theorem execLit_of {s : State} (v : Byte) (hs : select s = some .lit) (hin : s.ip + 1 ≤ s.inLen)
    (hop : s.op < s.params.imgCap) : execLit v s = .next (afterToken 1 1 (putUnit s.img s.op v) s) := by
  rw [execLit, whenEnabled_of hs, withInput_of hin, writeUnit_ok_iff.2 ⟨hop, rfl⟩]

theorem execRef_of_underrun {s : State} (d l : Nat) (hs : select s = some .ref) (hlt : s.inLen < s.ip + 2) :
    execRef d l s = .next (raiseFault .inputUnderrun s.ip s) := by
  rw [execRef, whenEnabled_of hs, withInput_underrun hlt]

theorem execRef_of_beforeStart {s : State} {d : Nat} (l : Nat) (hs : select s = some .ref) (hin : s.ip + 2 ≤ s.inLen)
    (hd : s.op < d) : execRef d l s = .next (raiseFault .distanceBeforeStart s.ip s) := by
  rw [execRef, whenEnabled_of hs, withInput_of hin, if_pos hd]

theorem execRef_of_overrun {s : State} {d l : Nat} (hs : select s = some .ref) (hin : s.ip + 2 ≤ s.inLen)
    (hd : d ≤ s.op) (hl : s.endAt < s.op + l) : execRef d l s = .next (raiseFault .copyOverrun s.ip s) := by
  rw [execRef, whenEnabled_of hs, withInput_of hin, if_neg (Nat.not_lt.2 hd), if_pos hl]

theorem execRef_of {s : State} {d l : Nat} {m : Cells 8} (hs : select s = some .ref) (hin : s.ip + 2 ≤ s.inLen)
    (hd : d ≤ s.op) (hl : s.op + l ≤ s.endAt)
    (hm : copyLoop s.params.imgCap s.img (s.op - d) s.op l = .ok m) :
    execRef d l s = .next (afterToken l 2 m s) := by
  rw [execRef, whenEnabled_of hs, withInput_of hin, if_neg (Nat.not_lt.2 hd), if_neg (Nat.not_lt.2 hl), hm]

theorem execFin_of_decomp {s : State} (hs : select s = some .fin) (hc : s.cmd = .decomp) :
    execFin s = .next (complete s) := by
  rw [execFin, whenEnabled_of hs, hc]

theorem execFin_of_frame {s : State} (hs : select s = some .fin) (hc : s.cmd = .frame) (hp : s.palRawValid = true) :
    execFin s = .next (startPex s) := by
  rw [execFin, whenEnabled_of hs, hc, pexCheck, if_pos hp]
  rfl

theorem execFin_of_notLoaded {s : State} (hs : select s = some .fin) (hc : s.cmd = .frame)
    (hp : s.palRawValid = false) : execFin s = .next (raiseFault .paletteNotLoaded 0 s) := by
  rw [execFin, whenEnabled_of hs, hc, pexCheck, hp]
  rfl

/-- PEX started while the block runs leaves `run` as it was. -/
theorem startPex_of_busy {s : State} (hb : s.run = .busy) :
    startPex s = { s with unit := .pex, pidx := 0, palExp := [], palExpValid := false } := by
  rw [startPex, ← hb]

/-! ### What comes after a token -/

/-- When `op` reaches `end` the next step is FIN, whatever the control byte holds (R116, R118). -/
theorem select_afterToken_end {s : State} {n k : Nat} {m : Cells 8} (hb : s.run = .busy) (hu : s.unit = .lzd)
    (hp : s.phase = .tok) (hop : (afterToken n k m s).op = s.endAt) : select (afterToken n k m s) = some .fin :=
  select_fin.2 ⟨hb, hu, hp, hop⟩

/-- The copy repeats the bytes between source and destination (R120): a read past them finds what the loop wrote. -/
theorem copyLoop_pattern {cap : Nat} {m m' : Cells 8} {src dst n i : Nat} (h : copyLoop cap m src dst n = .ok m')
    (hsd : src < dst) (hi : i < n) : unitAt m' (dst + i) = unitAt m (src + i % (dst - src)) := by
  induction n generalizing src dst m i with
  | zero => omega
  | succ n ih =>
    rw [copyLoop] at h
    split at h
    · cases h
    · next v hv =>
      obtain ⟨-, hv⟩ := readUnit_ok_iff.1 hv
      split at h
      · cases h
      · next m1 hm1 =>
        obtain ⟨-, rfl⟩ := writeUnit_ok_iff.1 hm1
        cases i with
        | zero =>
          obtain ⟨-, -, hold, -⟩ := copyLoop_ok h
          rw [Nat.add_zero, hold dst (by omega), unitAt_putUnit_same, Nat.zero_mod, Nat.add_zero, hv]
        | succ i =>
          have hrest := ih h (i := i) (by omega) (by omega)
          have hlt : i % (dst - src) < dst - src := Nat.mod_lt _ (by omega)
          rw [show dst + (i + 1) = dst + 1 + i by omega, hrest, show dst + 1 - (src + 1) = dst - src by omega]
          rw [← Nat.mod_add_mod i (dst - src) 1]
          by_cases hwrap : i % (dst - src) + 1 = dst - src
          · rw [hwrap, Nat.mod_self, show src + 1 + i % (dst - src) = dst by omega, unitAt_putUnit_same,
              Nat.add_zero, hv]
          · rw [Nat.mod_eq_of_lt (a := i % (dst - src) + 1) (by omega), unitAt_putUnit_ne _ _ (by omega),
              Nat.add_assoc, Nat.add_comm 1]

end Sys2Proof.Machine

namespace Sys2Proof.Proofs

open Sys2Proof.Machine Sys2Proof.Safety

/-- Settles O9: each step's condition is the one `selectLzd` tests. -/
theorem lzdDispatch : Obligations.LzdDispatch := by
  intro s hb hu hop
  refine ⟨fun hp => ?_, fun hp he => ?_, fun hp hne hn => ?_, fun hp hne hn hf => ?_, fun hp hne hn hf => ?_⟩
  · exact select_hdr.2 ⟨hb, hu, hp⟩
  · exact select_fin.2 ⟨hb, hu, hp, he⟩
  · exact select_ctl.2 ⟨hb, hu, hp, Nat.lt_of_le_of_ne hop hne, hn⟩
  · exact select_lit.2 ⟨hb, hu, hp, Nat.lt_of_le_of_ne hop hne, Nat.pos_of_ne_zero hn, hf⟩
  · exact select_ref.2 ⟨hb, hu, hp, Nat.lt_of_le_of_ne hop hne, Nat.pos_of_ne_zero hn, hf⟩

/-- Settles O11: HDR's two checks, its effect, and that a declared length of 0 leaves no output due. -/
theorem hdrReadsHeader : Obligations.HdrReadsHeader := by
  intro s hb hu hp
  have hs : select s = some .hdr := select_hdr.2 ⟨hb, hu, hp⟩
  refine ⟨fun hlt => ⟨blockStep_of_underrun hs (.inl rfl) hlt, fun d g => execHdr_of_underrun d g hs hlt⟩,
    fun hin d g => ⟨execHdr_of_tooLong g hs hin, execHdr_of g hs hin, fun t ht hbusy => ?_⟩,
    fun hin hcap b0 b1 b2 b3 => blockStep_hdr hs hin hcap⟩
  obtain ⟨-, ⟨-, rfl⟩ | ⟨-, -, rfl⟩ | ⟨-, -, rfl⟩⟩ := execHdr_next (g := g) ht
  · simp at hbusy
  · simp at hbusy
  · split
    · next hd => exact select_fin.2 ⟨hb, hu, rfl, by simp [hd]⟩
    · next hd => exact select_ctl.2 ⟨hb, hu, rfl, Nat.pos_of_ne_zero fun hz => hd (BitVec.eq_of_toNat_eq hz), rfl⟩

/-- Settles O13: CTL's condition has output due, and its one check comes before its effect. -/
theorem ctlFetchesControlByte : Obligations.CtlFetchesControlByte := by
  refine ⟨fun s hs => ?_, fun s hb hu hp hop hn => ?_⟩
  · obtain ⟨-, -, -, hop, -⟩ := select_ctl.1 hs
    exact hop
  · have hs : select s = some .ctl := select_ctl.2 ⟨hb, hu, hp, hop, hn⟩
    exact ⟨fun hlt => ⟨blockStep_of_underrun hs (.inr (.inl rfl)) hlt, fun c => execCtl_of_underrun c hs hlt⟩,
      fun hin c => execCtl_of c hs hin, fun hin hcap c => blockStep_ctl hs hin hcap⟩

/-- Settles O14: LIT writes one unit of `IMG`; only its effect, not its fault, leaves the block running. -/
theorem litCopiesOneByte : Obligations.LitCopiesOneByte := by
  intro s hb hu hp hop hn hf
  have hs : select s = some .lit := select_lit.2 ⟨hb, hu, hp, hop, hn, hf⟩
  refine ⟨fun hlt => ⟨blockStep_of_underrun hs (.inr (.inr (.inl rfl))) hlt, fun v => execLit_of_underrun v hs hlt⟩,
    fun hin hend v => ⟨_, execLit_of v hs hin (hop.trans_le hend), fun a => unitAt_putUnit s.img s.op a v⟩,
    fun v t ht hbusy hopt => ?_, fun hin hcap v => blockStep_lit hs hin hcap⟩
  obtain ⟨-, ⟨-, rfl⟩ | ⟨-, -, rfl⟩⟩ := execLit_next ht
  · simp at hbusy
  · exact select_afterToken_end hb hu hp hopt

/-- Settles O15: the three checks in their order, then the copy loop, whose result `copyLoop_pattern` gives. -/
theorem refCopiesPattern : Obligations.RefCopiesPattern := by
  intro s hb hu hp hop hn hf
  have hs : select s = some .ref := select_ref.2 ⟨hb, hu, hp, hop, hn, hf⟩
  refine ⟨fun hlt => ⟨blockStep_of_underrun hs (.inr (.inr (.inr rfl))) hlt,
      fun d l => execRef_of_underrun d l hs hlt⟩,
    fun hin d l => ⟨execRef_of_beforeStart l hs hin, execRef_of_overrun hs hin, fun hpos hd hl hend hheld => ?_,
      fun t ht hbusy hopt => ?_⟩,
    fun hin hcap b0 b1 => blockStep_ref hs hin hcap⟩
  · obtain ⟨m, hm⟩ := copyLoop_isOk l (src := s.op - d) (dst := s.op) (m := s.img) (by omega) (hl.trans hend)
      fun a _ ha => hheld a ha
    obtain ⟨-, -, hold, -⟩ := copyLoop_ok hm
    refine ⟨m, execRef_of hs hin hd hl hm, fun a => ?_⟩
    split
    · next ha =>
      have hpattern := copyLoop_pattern hm (by omega) (show a - s.op < l by omega)
      rwa [Nat.add_sub_cancel' ha.1, Nat.sub_sub_self hd] at hpattern
    · next ha => exact hold a ha
  · obtain ⟨-, ⟨-, rfl⟩ | ⟨-, -, rfl⟩ | ⟨-, -, -, rfl⟩ | ⟨-, -, -, ⟨m, -, rfl⟩ | ⟨_, -, -, -, -, rfl⟩⟩⟩ :=
      execRef_next ht
    · simp at hbusy
    · simp at hbusy
    · simp at hbusy
    · exact select_afterToken_end hb hu hp hopt
    · simp at hbusy

/-- Settles O16: FIN's rows of R176, and that the marks of a running LZD follow `op`. -/
theorem finEndsTheStream : Obligations.FinEndsTheStream := by
  intro s hb hu hp hop
  have hs : select s = some .fin := select_fin.2 ⟨hb, hu, hp, hop⟩
  refine ⟨blockStep_fin hs, fun hinv => (hinv.lzd hb hu).img_op.trans hop, execFin_of_decomp hs, fun hc hraw => ?_,
    execFin_of_notLoaded hs⟩
  rw [← startPex_of_busy hb]
  exact execFin_of_frame hs hc hraw

end Sys2Proof.Proofs

/-! SUPPORT. Runs: how steps chain, the steps that a run still has before it, and that each step of the block uses one
of them up (R127, R147, R159, R236). -/

namespace Sys2Proof.Machine

open Sys2Proof.Safety

/-! ### Chains of steps -/

theorem core_run_succ {M : Host.Core} {n : Nat} {s t : M.State} (h : M.step s = .next t) :
    M.run (n + 1) s = M.run n t := by
  rw [Host.Core.run, h]

theorem core_run_add {M : Host.Core} {n m : Nat} {s t : M.State} (h : M.run n s = .next t) :
    M.run (n + m) s = M.run m t := by
  induction n generalizing s with
  | zero =>
    obtain rfl := Host.Outcome.next.inj h
    rw [Nat.zero_add]
  | succ n ih =>
    rw [Host.Core.run] at h
    split at h
    · next s' hs' => rw [Nat.succ_add, core_run_succ hs', ih h]
    · cases h
    · cases h

theorem run_succ {n : Nat} {s t : State} (h : step s = .next t) :
    Host.Core.run Sys2Proof.core (n + 1) s = Host.Core.run Sys2Proof.core n t := core_run_succ (M := Sys2Proof.core) h

theorem run_add {n m : Nat} {s t : State} (h : Host.Core.run Sys2Proof.core n s = .next t) :
    Host.Core.run Sys2Proof.core (n + m) s = Host.Core.run Sys2Proof.core m t := core_run_add h

/-- A run of one step. -/
theorem run_one {s t : State} (h : step s = .next t) : Host.Core.run Sys2Proof.core 1 s = .next t := run_succ h

/-- The host leaves the block alone until its run ends: it has no turn listed, or it waits for that end (log entry
6). -/
def HostWaits (s : State) : Prop := s.turns = [] ∨ ∃ ts, s.turns = .await :: ts

theorem step_of_hostWaits {s : State} (h : HostWaits s) (hb : s.run = .busy) : step s = blockStep s := by
  obtain h | ⟨ts, h⟩ := h <;> rw [step_eq, h]
  exact if_pos hb

/-- The block's step leaves the schedule alone (R51, R55). -/
theorem blockStep_turns {s t : State} (h : blockStep s = .next t) : t.turns = s.turns := by
  obtain ⟨-, -, -, -, -, hturns, -⟩ := Proofs.blockNeverWritesHostBuffers s t h
  exact hturns

/-- A block that does not run has no step (R200, R221). -/
theorem blockStep_of_rest {s : State} (hr : s.run ≠ .busy) : blockStep s = .next s := by
  cases h : s.run with
  | idle | fault => rw [blockStep, h]
  | busy => exact absurd h hr

/-- Once the block does not run, the host's wait is lifted (log entry 6). -/
theorem step_of_wait_over {s : State} {ts : List Turn} (hr : s.run ≠ .busy) (ht : s.turns = .await :: ts) :
    step s = .next { s with turns := ts } := by
  rw [step_eq, ht]
  exact if_neg hr

/-- Once the run has ended, further steps change nothing. -/
theorem run_of_rest (n : Nat) {t : State} (hr : t.run ≠ .busy) (ht : t.turns = []) :
    Host.Core.run Sys2Proof.core n t = .next t := by
  have hstep : step t = .next t := by rw [step_eq, ht, blockStep_of_rest hr]
  induction n with
  | zero => rfl
  | succ n ih => rw [run_succ hstep, ih]

/-- A run has one end, however many steps are counted. -/
theorem run_rest_unique {n m : Nat} {s t u : State} (ht : Host.Core.run Sys2Proof.core n s = .next t)
    (hu : Host.Core.run Sys2Proof.core m s = .next u) (htr : t.run ≠ .busy ∧ t.turns = [])
    (hur : u.run ≠ .busy ∧ u.turns = []) : t = u := by
  have hafter (k : Nat) : Host.Core.run Sys2Proof.core (n + k) s = .next t :=
    (run_add ht).trans (run_of_rest k htr.1 htr.2)
  have hsame : Host.Core.run Sys2Proof.core (m + n) s = .next u := (run_add hu).trans (run_of_rest n hur.1 hur.2)
  rw [Nat.add_comm, hafter] at hsame
  exact Host.Outcome.next.inj hsame

/-! ### The steps a run has before it -/

/-- The steps of the LZD with `due` bytes to write while the control byte governs `governed` more tokens: at most one
token for each byte, a control byte for every eight tokens after those, and FIN (R127). -/
def tokenWork (due governed : Nat) : Nat := due + (due - governed + 7) / 8 + 1

/-- The steps of the LZD before it (R127); the header may declare as much as `NPIX`. -/
def lzdWork (s : State) : Nat :=
  match s.phase with
  | .hdr => 1 + tokenWork s.params.npix 0
  | .tok => tokenWork (s.endAt - s.op) s.nbits

/-- The steps of FRC that follow PFIN, if any (R159, R176). -/
def frcAfter (s : State) : Nat := if s.cmd = .frame then s.params.npix + 1 else 0

/-- The steps of PEX and FRC that follow FIN, if any (R147, R176). -/
def pexAfter (s : State) : Nat := if s.cmd = .frame then 257 + (s.params.npix + 1) else 0

/-- How many steps the running block takes at the most before its run ends. -/
def workLeft (s : State) : Nat :=
  match s.unit with
  | .lzd => lzdWork s + pexAfter s
  | .pex => 256 - s.pidx + 1 + frcAfter s
  | .frc => (s.params.outLen - s.wp + 2) / 3 + 1

theorem workLeft_hdr {s : State} (hu : s.unit = .lzd) (hp : s.phase = .hdr) :
    workLeft s = 1 + tokenWork s.params.npix 0 + pexAfter s := by
  rw [workLeft, hu, lzdWork, hp]

theorem workLeft_tok {s : State} (hu : s.unit = .lzd) (hp : s.phase = .tok) :
    workLeft s = tokenWork (s.endAt - s.op) s.nbits + pexAfter s := by
  rw [workLeft, hu, lzdWork, hp]

theorem workLeft_pex {s : State} (hu : s.unit = .pex) : workLeft s = 256 - s.pidx + 1 + frcAfter s := by
  rw [workLeft, hu]

theorem workLeft_frc {s : State} (hu : s.unit = .frc) : workLeft s = (s.params.outLen - s.wp + 2) / 3 + 1 := by
  rw [workLeft, hu]

theorem workLeft_pos (s : State) : 0 < workLeft s := by
  cases hu : s.unit with
  | lzd =>
    cases hp : s.phase with
    | hdr => rw [workLeft_hdr hu hp]; omega
    | tok => rw [workLeft_tok hu hp, tokenWork]; omega
  | pex => rw [workLeft_pex hu]; omega
  | frc => rw [workLeft_frc hu]; omega

/-- A control byte is one step, and it governs the next eight tokens (R114). -/
theorem tokenWork_ctl {due : Nat} (h : 0 < due) : tokenWork due 8 < tokenWork due 0 := by
  unfold tokenWork
  omega

/-- A token is one step and writes at least one byte (R116, R118). -/
theorem tokenWork_token {due governed n : Nat} (hn : 0 < n) (hle : n ≤ due) :
    tokenWork (due - n) (governed - 1) < tokenWork due governed := by
  unfold tokenWork
  omega

/-- Fewer bytes due and more tokens governed are less work. -/
theorem tokenWork_le {due due' governed : Nat} (h : due ≤ due') : tokenWork due governed ≤ tokenWork due' 0 := by
  unfold tokenWork
  omega

theorem pexAfter_le (s : State) : pexAfter s ≤ 257 + (s.params.npix + 1) := by
  unfold pexAfter
  split <;> omega

theorem frcAfter_le (s : State) : frcAfter s ≤ s.params.npix + 1 := by
  unfold frcAfter
  split <;> omega

/-- No running unit has more before it than the bound of R236. -/
theorem workLeft_le_runBound {s : State} (hinv : BlockInv s) (hb : s.run = .busy) :
    workLeft s ≤ runBound s.params := by
  have hpex := pexAfter_le s
  have hfrc := frcAfter_le s
  have hbound : runBound s.params = 1 + tokenWork s.params.npix 0 + (257 + (s.params.npix + 1)) := by
    unfold runBound tokenWork
    omega
  cases hu : s.unit with
  | lzd =>
    cases hp : s.phase with
    | hdr => rw [workLeft_hdr hu hp]; omega
    | tok =>
      obtain ⟨-, hcap⟩ := lzdInv_of hinv hb hu hp
      have hdue := tokenWork_le (governed := s.nbits) (show s.endAt - s.op ≤ s.params.npix from by
        rw [Params.imgCap] at hcap
        omega)
      rw [workLeft_tok hu hp]
      omega
  | pex => rw [workLeft_pex hu]; omega
  | frc =>
    have hout : s.params.outLen = 3 * s.params.npix := rfl
    rw [workLeft_frc hu]
    omega

/-! ### Each step uses one up -/

/-- A step that ends the run, or leaves fewer steps before it. -/
inductive Progress (s t : State) : Prop
  | faulted : t.run = .fault → Progress s t
  | completed : t.run = .idle → t.done = true → Progress s t
  | goesOn : t.run = .busy → workLeft t < workLeft s → Progress s t

/-- A token that the LZD ran to its end. -/
theorem progress_afterToken {s : State} {n k : Nat} {m : Cells 8} (hb : s.run = .busy) (hu : s.unit = .lzd)
    (hp : s.phase = .tok) (hn : 0 < n) (hend : s.op + n ≤ s.endAt) : Progress s (afterToken n k m s) := by
  refine .goesOn hb ?_
  calc _ = tokenWork (s.endAt - (s.op + n)) (s.nbits - 1) + pexAfter s :=
      workLeft_tok (s := afterToken n k m s) hu hp
    _ = tokenWork (s.endAt - s.op - n) (s.nbits - 1) + pexAfter s := by rw [Nat.sub_sub]
    _ < tokenWork (s.endAt - s.op) s.nbits + pexAfter s :=
      Nat.add_lt_add_right (tokenWork_token hn (by omega)) _
    _ = workLeft s := (workLeft_tok hu hp).symm

theorem execHdr_progress {d : BitVec 24} {g : Byte} {s t : State} (h : execHdr d g s = .next t) : Progress s t := by
  obtain ⟨hs, ⟨-, rfl⟩ | ⟨-, -, rfl⟩ | ⟨-, hcap, rfl⟩⟩ := execHdr_next h
  · exact .faulted rfl
  · exact .faulted rfl
  · obtain ⟨hb, hu, hp⟩ := select_hdr.1 hs
    have hdue : tokenWork (d.toNat - 0) 0 ≤ tokenWork s.params.npix 0 := tokenWork_le hcap
    refine .goesOn hb ?_
    calc _ = tokenWork (d.toNat - 0) 0 + pexAfter s :=
        workLeft_tok (s := { s with endAt := d.toNat, op := 0, ctl := 0, nbits := 0, ip := s.ip + 4, phase := .tok })
          hu rfl
      _ < 1 + tokenWork s.params.npix 0 + pexAfter s := by omega
      _ = workLeft s := (workLeft_hdr hu hp).symm

theorem execCtl_progress {c : Byte} {s t : State} (h : execCtl c s = .next t) : Progress s t := by
  obtain ⟨hs, ⟨-, rfl⟩ | ⟨-, rfl⟩⟩ := execCtl_next h
  · exact .faulted rfl
  · obtain ⟨hb, hu, hp, hop, hn⟩ := select_ctl.1 hs
    refine .goesOn hb ?_
    calc _ = tokenWork (s.endAt - s.op) 8 + pexAfter s :=
        workLeft_tok (s := { s with ctl := c, nbits := 8, ip := s.ip + 1 }) hu hp
      _ < tokenWork (s.endAt - s.op) 0 + pexAfter s := Nat.add_lt_add_right (tokenWork_ctl (Nat.sub_pos_of_lt hop)) _
      _ = workLeft s := by rw [workLeft_tok hu hp, hn]

theorem execLit_progress {v : Byte} {s t : State} (h : execLit v s = .next t) : Progress s t := by
  obtain ⟨hs, ⟨-, rfl⟩ | ⟨-, -, rfl⟩⟩ := execLit_next h
  · exact .faulted rfl
  · obtain ⟨hb, hu, hp, hop, -⟩ := select_lit.1 hs
    exact progress_afterToken hb hu hp Nat.one_pos hop

theorem execRef_progress {d l : Nat} {s t : State} (hl : 0 < l) (h : execRef d l s = .next t) : Progress s t := by
  obtain ⟨hs, ⟨-, rfl⟩ | ⟨-, -, rfl⟩ | ⟨-, -, -, rfl⟩ | ⟨-, -, hend, ⟨m, -, rfl⟩ | ⟨_, -, -, -, -, rfl⟩⟩⟩ :=
    execRef_next h
  · exact .faulted rfl
  · exact .faulted rfl
  · exact .faulted rfl
  · obtain ⟨hb, hu, hp, -⟩ := select_ref.1 hs
    exact progress_afterToken hb hu hp hl hend
  · exact .faulted rfl

theorem execFin_progress {s t : State} (h : execFin s = .next t) : Progress s t := by
  obtain ⟨hs, ⟨-, rfl⟩ | ⟨hc, -, rfl⟩ | ⟨-, -, rfl⟩⟩ := execFin_next h
  · exact .completed rfl rfl
  · obtain ⟨-, hu, hp, -⟩ := select_fin.1 hs
    refine .goesOn rfl ?_
    calc _ = 257 + frcAfter s := workLeft_pex rfl
      _ = pexAfter s := by rw [frcAfter, pexAfter, if_pos hc, if_pos hc]
      _ < workLeft s := by
        rw [workLeft_tok hu hp, tokenWork]
        omega
  · exact .faulted rfl

theorem execPexp_progress {v : RawEntry} {s t : State} (h : execPexp v s = .next t) : Progress s t := by
  obtain ⟨hs, hidx, rfl⟩ := execPexp_next h
  obtain ⟨hb, hu, -⟩ := select_pexp.1 hs
  have hlt : s.pidx < 256 := hidx
  refine .goesOn hb ?_
  calc _ = 256 - (s.pidx + 1) + 1 + frcAfter s :=
      workLeft_pex
        (s := { s with palExp := putUnit s.palExp s.pidx (expand s.params.layout v), pidx := s.pidx + 1 }) hu
    _ < 256 - s.pidx + 1 + frcAfter s := by omega
    _ = workLeft s := (workLeft_pex hu).symm

theorem execPfin_progress {s t : State} (h : execPfin s = .next t) : Progress s t := by
  obtain ⟨hs, ⟨-, rfl⟩ | ⟨hc, -, rfl⟩ | ⟨-, -, rfl⟩⟩ := execPfin_next h
  · exact .completed rfl rfl
  · obtain ⟨-, hu, -⟩ := select_pfin.1 hs
    have hout : s.params.outLen = 3 * s.params.npix := rfl
    refine .goesOn rfl ?_
    calc _ = (s.params.outLen - 0 + 2) / 3 + 1 := workLeft_frc rfl
      _ < 256 - s.pidx + 1 + (s.params.npix + 1) := by omega
      _ = workLeft s := by rw [workLeft_pex hu, frcAfter, if_pos hc]
  · exact .faulted rfl

/-- Under the invariant a pixel that is due has room for its three bytes. -/
theorem execPix_progress {k : Byte} {s t : State} (hinv : BlockInv s) (h : execPix k s = .next t) : Progress s t := by
  obtain ⟨hs, ⟨c, m, -, -, rfl⟩ | ⟨-, rfl⟩⟩ := execPix_next h
  · obtain ⟨hb, hu, hw⟩ := select_pix.1 hs
    have hroom := wp_add_three_le (hinv.frc hb hu) hw
    refine .goesOn hb ?_
    calc _ = (s.params.outLen - (s.wp + 3) + 2) / 3 + 1 := workLeft_frc (s := afterPixel m s) hu
      _ < (s.params.outLen - s.wp + 2) / 3 + 1 := by omega
      _ = workLeft s := (workLeft_frc hu).symm
  · exact .faulted rfl

theorem execRfin_progress {s t : State} (h : execRfin s = .next t) : Progress s t := by
  obtain ⟨-, -, rfl⟩ := execRfin_next h
  exact .completed rfl rfl

theorem exec_progress {i : Instr} {s t : State} (hinv : BlockInv s) (hwf : i.wf = true) (hs : select s = some i.kind)
    (h : exec i s = .next t) : Progress s t := by
  cases i with
  | hdr d g => exact execHdr_progress (g := g) h
  | ctl c => exact execCtl_progress h
  | lit v => exact execLit_progress h
  | ref d l =>
    obtain ⟨-, -, hl, -⟩ := ref_wf_iff.1 hwf
    exact execRef_progress (Nat.lt_of_lt_of_le (by decide) hl) h
  | fin => exact execFin_progress h
  | pexp v => exact execPexp_progress h
  | pfin => exact execPfin_progress h
  | pix k => exact execPix_progress hinv h
  | rfin => exact execRfin_progress h
  | decomp | palx | recon | frame => exact absurd hs (select_ne_cmd s)

/-- Under the invariant a running block always has a step to take, and it makes progress (R184, R237). -/
theorem blockStep_progress {s : State} (hinv : BlockInv s) (hb : s.run = .busy) :
    ∃ t, blockStep s = .next t ∧ Progress s t := by
  obtain ⟨k, hs⟩ := select_of_inv hinv hb
  obtain ⟨t, ht⟩ := blockStep_isNext hinv
  refine ⟨t, ht, ?_⟩
  obtain ⟨-, hfault⟩ | ⟨i, hwf, rfl, hexec⟩ := blockStep_of_inv hinv hs
  · rw [hfault] at ht
    obtain rfl := Host.Outcome.next.inj ht
    exact .faulted rfl
  · exact exec_progress hinv hwf hs (hexec.symm.trans ht)

/-- From a running state that meets the invariant the run ends within `workLeft` steps, and the schedule is kept. -/
theorem run_ends {s : State} (hinv : BlockInv s) (hb : s.run = .busy) (hw : HostWaits s) :
    ∃ (n : Nat) (t : State), n ≤ workLeft s ∧ Host.Core.run Sys2Proof.core n s = .next t ∧
      (endedWell t ∨ endedBadly t) ∧ t.turns = s.turns := by
  induction hm : workLeft s using Nat.strong_induction_on generalizing s with
  | _ m ih =>
    subst hm
    obtain ⟨t, ht, hprogress⟩ := blockStep_progress hinv hb
    have hstep : step s = .next t := (step_of_hostWaits hw hb).trans ht
    have hturns := blockStep_turns ht
    have hinv' := blockStep_keeps_inv hinv ht
    cases hprogress with
    | faulted hr => exact ⟨1, t, workLeft_pos s, run_one hstep, .inr hr, hturns⟩
    | completed hr hd =>
      obtain ⟨hcause, -⟩ := hinv'.unfaulted (by simp [hr])
      exact ⟨1, t, workLeft_pos s, run_one hstep, .inl ⟨hr, hd, hcause⟩, hturns⟩
    | goesOn hr hlt =>
      have hw' : HostWaits t := by rwa [HostWaits, hturns]
      obtain ⟨n, u, hn, hrun, hended, hu⟩ := ih (workLeft t) hlt hinv' hr hw' rfl
      exact ⟨n + 1, u, by omega, (run_succ hstep).trans hrun, hended, hu.trans hturns⟩

theorem not_busy_of_ended {t : State} (h : endedWell t ∨ endedBadly t) : t.run ≠ .busy := by
  obtain ⟨hr, -⟩ | hr := h
  · simp [hr]
  · rw [endedBadly] at hr
    simp [hr]

/-- Whether a run ended, and how, does not depend on the schedule. -/
theorem ended_withTurns {t : State} (ts : List Turn) (h : endedWell t ∨ endedBadly t) :
    endedWell { t with turns := ts } ∨ endedBadly { t with turns := ts } := h

end Sys2Proof.Machine

namespace Sys2Proof.Proofs

open Sys2Proof.Machine

/-- Settles O43: each step of the block uses up one of the steps `workLeft` counts; once the run has ended, the host's
wait takes one step more. -/
theorem everyRunEnds : Obligations.EveryRunEnds := by
  refine ⟨fun s hinv hb hturns => ?_, fun s ts hinv hb hturns => ?_⟩
  · obtain ⟨n, t, hn, hrun, hended, -⟩ := run_ends hinv hb (.inl hturns)
    exact ⟨n, t, hn.trans (workLeft_le_runBound hinv hb), hrun, hended⟩
  · obtain ⟨n, t, hn, hrun, hended, ht⟩ := run_ends hinv hb (.inr ⟨ts, hturns⟩)
    have hlift := step_of_wait_over (not_busy_of_ended hended) (ht.trans hturns)
    exact ⟨n + 1, { t with turns := ts }, Nat.succ_le_succ (hn.trans (workLeft_le_runBound hinv hb)),
      (run_add hrun).trans (run_one hlift), ended_withTurns ts hended, rfl⟩

end Sys2Proof.Proofs

/-! SUPPORT. The LZD computes `lz` (R130): the machine between two tokens stands where the loop of R130 stands, token by
token, group by group, and the header starts them there. -/

namespace Sys2Proof.Machine

open Sys2Proof.Safety Sys2Proof.Laws

/-! ### Where a run gets to -/

/-- Some number of steps takes `s` to `t`. -/
def Reaches (s t : State) : Prop := ∃ n, Host.Core.run Sys2Proof.core n s = .next t

theorem Reaches.refl (s : State) : Reaches s s := ⟨0, rfl⟩

theorem Reaches.head {s t u : State} (h : step s = .next t) (htu : Reaches t u) : Reaches s u :=
  have ⟨n, hn⟩ := htu
  ⟨n + 1, (run_succ h).trans hn⟩

theorem Reaches.trans {s t u : State} (hst : Reaches s t) (htu : Reaches t u) : Reaches s u :=
  have ⟨_, hn⟩ := hst
  have ⟨m, hm⟩ := htu
  ⟨_ + m, (run_add hn).trans hm⟩

/-- The run from `s` ends in the fault of cause `c` that records `info`. -/
def ReachesFault (s : State) (c : Cause) (info : Nat) : Prop :=
  ∃ t, Reaches s (raiseFault c info t) ∧ t.turns = []

theorem ReachesFault.of_reaches {s t : State} {c : Cause} {info : Nat} (hst : Reaches s t)
    (ht : ReachesFault t c info) : ReachesFault s c info :=
  have ⟨u, hu, hturns⟩ := ht
  ⟨u, hst.trans hu, hturns⟩

/-! ### The copy of a back-reference against `lzCopy` -/

theorem lzCopy_length (dist n : Nat) (out : List Byte) : (lzCopy dist n out).length = out.length + n := by
  induction n generalizing out with
  | zero => rfl
  | succ n ih =>
    rw [lzCopy, ih, List.length_append]
    simp only [List.length_singleton]
    omega

/-- A byte written behind the last one is a byte appended. -/
theorem unitAt_putUnit_append {m : Cells 8} {out : List Byte} (hm : ∀ a, unitAt m a = out[a]?) (v : Byte) (a : Nat) :
    unitAt (putUnit m out.length v) a = (out ++ [v])[a]? := by
  rw [unitAt_putUnit, hm]
  split
  · next ha => rw [ha, List.getElem?_concat_length]
  · next ha =>
    obtain hlt | hgt := Nat.lt_or_gt_of_ne ha
    · rw [List.getElem?_append_left hlt]
    · rw [List.getElem?_eq_none (Nat.le_of_lt hgt), List.getElem?_eq_none]
      simpa using hgt

/-- The copy loop of R120 appends what `lzCopy` appends, step by step. -/
theorem copyLoop_eq_lzCopy {cap d : Nat} (n : Nat) {m : Cells 8} {out : List Byte} (hpos : 1 ≤ d)
    (hd : d ≤ out.length) (hcap : out.length + n ≤ cap) (hm : ∀ a, unitAt m a = out[a]?) :
    ∃ m', copyLoop cap m (out.length - d) out.length n = .ok m' ∧ ∀ a, unitAt m' a = (lzCopy d n out)[a]? := by
  induction n generalizing m out with
  | zero => exact ⟨m, rfl, hm⟩
  | succ n ih =>
    have hsource : out.length - d < out.length := by omega
    have hread : readUnit .img cap m (out.length - d) = .ok (out.getD (out.length - d) 0) := by
      refine readUnit_ok_iff.2 ⟨by omega, ?_⟩
      rw [hm, List.getD_eq_getElem _ _ hsource, List.getElem?_eq_getElem hsource]
    have hlen : (out ++ [out.getD (out.length - d) 0]).length = out.length + 1 := by simp
    obtain ⟨m', hm', hval⟩ := ih (by omega) (by omega) (unitAt_putUnit_append hm (out.getD (out.length - d) 0))
    rw [hlen, Nat.sub_add_comm hd] at hm'
    refine ⟨m', ?_, hval⟩
    rw [copyLoop, hread]
    simp only [writeUnit_ok_iff.2 (⟨by omega, rfl⟩ : out.length < cap ∧ putUnit m out.length _ = _)]
    exact hm'

/-! ### The loaded input -/

/-- The whole input is loaded, and no move of the host comes. -/
structure InputReady (s : State) (input : List Byte) : Prop where
  turns : s.turns = []
  length : input.length = s.inLen
  bytes : ∀ a, a < s.inLen → unitAt s.inp a = input[a]?

/-- A byte of the input stands in `IN` below `IN_LEN`. -/
theorem InputReady.byte {s : State} {input : List Byte} (h : InputReady s input) {a : Nat} {v : Byte}
    (hv : input[a]? = some v) : a + 1 ≤ s.inLen ∧ unitAt s.inp a = some v := by
  obtain ⟨hlt, -⟩ := List.getElem?_eq_some_iff.1 hv
  rw [h.length] at hlt
  exact ⟨hlt, (h.bytes a hlt).trans hv⟩

/-- Where the input has no more bytes, neither has `IN`. -/
theorem InputReady.le_of_none {s : State} {input : List Byte} (h : InputReady s input) {a : Nat}
    (hn : input[a]? = none) : s.inLen ≤ a := by
  rw [← h.length]
  exact List.getElem?_eq_none_iff.1 hn

/-- What the host loaded and lists is the same for states with the same host's side. -/
theorem InputReady.of_hostSide {s t : State} {input : List Byte} (h : InputReady s input)
    (hst : hostSide t = hostSide s) : InputReady t input := by
  simp only [hostSide, Prod.mk.injEq] at hst
  obtain ⟨-, hinp, hinLen, -, -, hturns, -⟩ := hst
  exact ⟨hturns.trans h.turns, h.length.trans hinLen.symm, by rw [hinp, hinLen]; exact h.bytes⟩

/-- While the block runs and no turn is listed, a step is the block's. -/
theorem InputReady.step {s t : State} {input : List Byte} (h : InputReady s input) (hb : s.run = .busy)
    (ht : blockStep s = .next t) : step s = .next t :=
  (step_of_hostWaits (.inl h.turns) hb).trans ht

/-- The block's step that raises a fault ends the run. -/
theorem InputReady.reachesFault {s : State} {input : List Byte} {c : Cause} {info : Nat} (h : InputReady s input)
    (hb : s.run = .busy) (ht : blockStep s = .next (raiseFault c info s)) : ReachesFault s c info :=
  ⟨s, .head (h.step hb ht) (.refl _), h.turns⟩

/-! ### Between two tokens -/

/-- The LZD that started as `s0` stands between two tokens, with the output `out` written, `ip` the next byte of its
input, and `declared` bytes to write in all: the variables of the loop of R130. -/
structure AtToken (s0 : State) (declared : Nat) (out : List Byte) (ip : Nat) (s : State) : Prop where
  inv : BlockInv s
  run : s.run = .busy
  unit : s.unit = .lzd
  phase : s.phase = .tok
  host : hostSide s = hostSide s0
  cmd : s.cmd = s0.cmd
  endAt : s.endAt = declared
  op : s.op = out.length
  ip_eq : s.ip = ip
  img : ∀ a, unitAt s.img a = out[a]?

/-- The control byte `c` still governs `k` tokens, whose flags are its low `k` bits (R24, R25). -/
def Governs (c : Byte) (k : Nat) (s : State) : Prop := s.nbits = k ∧ s.ctl = c <<< (8 - k)

/-- The flag of the next token is the highest bit left (R37). -/
theorem Governs.flag {c : Byte} {k : Nat} {s : State} (h : Governs c (k + 1) s) (hk : k < 8) :
    tokenFlag s = c.getLsbD k := by
  obtain ⟨-, hctl⟩ := h
  rw [tokenFlag, hctl, BitVec.getLsbD_shiftLeft, show 7 - (8 - (k + 1)) = k by omega]
  simp

theorem Governs.afterToken {c : Byte} {k : Nat} {s : State} (h : Governs c (k + 1) s) (hk : k < 8) (n j : Nat)
    (m : Cells 8) : Governs c k (afterToken n j m s) := by
  obtain ⟨hn, hctl⟩ := h
  refine ⟨by rw [afterToken_nbits, hn, Nat.add_sub_cancel], ?_⟩
  rw [afterToken_ctl, shiftFlags, hctl, ← BitVec.shiftLeft_add, show 8 - (k + 1) + 1 = 8 - k by omega]

section Tokens

variable {s0 s : State} {input out : List Byte} {declared ip : Nat}

theorem AtToken.le (h : AtToken s0 declared out ip s) : out.length ≤ declared ∧ declared ≤ s.params.imgCap := by
  obtain ⟨hlzd, hcap⟩ := lzdInv_of h.inv h.run h.unit h.phase
  obtain ⟨-, -, hop, -⟩ := hlzd.in_tokens h.phase
  rw [h.op, h.endAt] at hop
  exact ⟨hop, h.endAt ▸ hcap⟩

theorem AtToken.inLen_le (h : AtToken s0 declared out ip s) : s.inLen ≤ s.params.inCap := h.inv.inLen_le

theorem AtToken.ready (h : AtToken s0 declared out ip s) (h0 : InputReady s0 input) : InputReady s input :=
  h0.of_hostSide h.host

/-- An item that is not wholly in the input ends the run (R191). -/
theorem AtToken.underrun (h : AtToken s0 declared out ip s) (h0 : InputReady s0 input) {k : Kind}
    (hs : select s = some k) (hk : onStream k) (hlt : s.inLen < s.ip + itemBytes k) :
    ReachesFault s .inputUnderrun ip :=
  (h.ready h0).reachesFault h.run (h.ip_eq ▸ blockStep_of_underrun hs hk hlt)

/-- A token that appends `n` bytes and takes `j` bytes of input. -/
theorem AtToken.afterToken (h : AtToken s0 declared out ip s) {n j : Nat} {m : Cells 8} {out' : List Byte}
    (ht : blockStep s = .next (afterToken n j m s)) (hlen : out'.length = out.length + n)
    (hm : ∀ a, unitAt m a = out'[a]?) : AtToken s0 declared out' (ip + j) (afterToken n j m s) where
  inv := blockStep_keeps_inv h.inv ht
  run := h.run
  unit := h.unit
  phase := h.phase
  host := h.host
  cmd := h.cmd
  endAt := h.endAt
  op := by rw [afterToken_op, h.op, hlen]
  ip_eq := by rw [afterToken_ip, h.ip_eq]
  img := hm

/-- A literal appends the byte at `ip` (R116). -/
theorem AtToken.lit (h : AtToken s0 declared out ip s) (h0 : InputReady s0 input) (hs : select s = some .lit) {v : Byte}
    (hv : input[ip]? = some v) : ∃ m, blockStep s = .next (Machine.afterToken 1 1 m s) ∧
      AtToken s0 declared (out ++ [v]) (ip + 1) (Machine.afterToken 1 1 m s) := by
  obtain ⟨hin, hbyte⟩ := (h.ready h0).byte hv
  obtain ⟨-, -, -, hop, -⟩ := select_lit.1 hs
  obtain ⟨-, hcap⟩ := h.le
  rw [← h.ip_eq] at hin hbyte
  rw [h.endAt] at hop
  have ht : blockStep s = .next (Machine.afterToken 1 1 (putUnit s.img s.op v) s) :=
    (blockStep_lit hs hin h.inLen_le hbyte).trans (execLit_of v hs hin (hop.trans_le hcap))
  refine ⟨_, ht, h.afterToken ht (by simp) ?_⟩
  rw [h.op]
  exact unitAt_putUnit_append h.img v

/-- What a back-reference does with the bytes at `ip`, in the order of its checks (R118). -/
theorem AtToken.ref (h : AtToken s0 declared out ip s) (h0 : InputReady s0 input) (hs : select s = some .ref)
    {b0 b1 : Byte} (hb0 : input[ip]? = some b0) (hb1 : input[ip + 1]? = some b1) {d l : Nat}
    (hd : d = b0.toNat % 16 * 256 + b1.toNat + 1) (hl : l = b0.toNat / 16 + 3) :
    (out.length < d → ReachesFault s .distanceBeforeStart ip) ∧
      (d ≤ out.length → declared < out.length + l → ReachesFault s .copyOverrun ip) ∧
      (d ≤ out.length → out.length + l ≤ declared → ∃ m, blockStep s = .next (Machine.afterToken l 2 m s) ∧
        AtToken s0 declared (lzCopy d l out) (ip + 2) (Machine.afterToken l 2 m s)) := by
  have hready := h.ready h0
  obtain ⟨-, hbyte0⟩ := hready.byte hb0
  obtain ⟨hin, hbyte1⟩ := hready.byte hb1
  rw [← h.ip_eq] at hin hbyte0 hbyte1
  have hexec : blockStep s = execRef d l s := by
    rw [hd, hl]
    exact blockStep_ref hs hin h.inLen_le hbyte0 hbyte1
  rw [← h.op, ← h.endAt, ← h.ip_eq]
  refine ⟨fun hlt => hready.reachesFault h.run (hexec.trans (execRef_of_beforeStart l hs hin hlt)),
    fun hle hlt => hready.reachesFault h.run (hexec.trans (execRef_of_overrun hs hin hle hlt)), fun hle hend => ?_⟩
  obtain ⟨-, hcap⟩ := h.le
  rw [← h.endAt] at hcap
  obtain ⟨m, hm, hval⟩ := copyLoop_eq_lzCopy l (out := out) (d := d) (cap := s.params.imgCap) (by omega)
    (h.op ▸ hle) (h.op ▸ hend.trans hcap) h.img
  rw [← h.op] at hm
  have ht := hexec.trans (execRef_of hs hin hle hend hm)
  refine ⟨m, ht, ?_⟩
  rw [h.ip_eq, h.endAt]
  exact h.afterToken ht (lzCopy_length d l out) hval

/-- A control byte is fetched where none governs a token and output is due (R114). -/
theorem AtToken.ctl (h : AtToken s0 declared out ip s) (h0 : InputReady s0 input) (hs : select s = some .ctl) {c : Byte}
    (hc : input[ip]? = some c) :
    ∃ t, blockStep s = .next t ∧ AtToken s0 declared out (ip + 1) t ∧ Governs c 8 t := by
  obtain ⟨hin, hbyte⟩ := (h.ready h0).byte hc
  rw [← h.ip_eq] at hin hbyte
  have ht := (blockStep_ctl hs hin h.inLen_le hbyte).trans (execCtl_of c hs hin)
  refine ⟨_, ht, ?_, rfl, (BitVec.shiftLeft_zero c).symm⟩
  exact { h with inv := blockStep_keeps_inv h.inv ht, ip_eq := congrArg (· + 1) h.ip_eq }

/-! ### A group of tokens under one control byte -/

/-- The run from `s` gives what a group of R130 gives: its fault, or the state after its last token, where the output is
whole or the control byte is used up. -/
def GroupReach (s0 : State) (declared : Nat) (s : State) : Except (Cause × Nat) (List Byte × Nat) → Prop
  | .error (c, info) => ReachesFault s c info
  | .ok (out, ip) => ∃ t, Reaches s t ∧ AtToken s0 declared out ip t ∧ (declared ≤ out.length ∨ t.nbits = 0)

theorem GroupReach.head {t : State} {r : Except (Cause × Nat) (List Byte × Nat)} (h : step s = .next t)
    (hr : GroupReach s0 declared t r) : GroupReach s0 declared s r := by
  match r, hr with
  | .error (c, info), hr => exact ReachesFault.of_reaches (.head h (.refl t)) hr
  | .ok (out, ip), ⟨u, hu, hrest⟩ => exact ⟨u, .head h hu, hrest⟩

theorem AtToken.group (h0 : InputReady s0 input) {c : Byte} {k : Nat} (hk : k ≤ 8)
    (h : AtToken s0 declared out ip s) (hg : Governs c k s) :
    GroupReach s0 declared s (lzGroup input declared c k out ip) := by
  induction k generalizing s out ip with
  | zero => exact ⟨s, .refl s, h, .inr hg.1⟩
  | succ k ih =>
    have hready := h.ready h0
    have hnbits : 0 < s.nbits := hg.1 ▸ Nat.succ_pos k
    rw [lzGroup]
    split
    · next hle => exact ⟨s, .refl s, h, .inl hle⟩
    next hlt =>
    have hop : s.op < s.endAt := by
      rw [h.op, h.endAt]
      exact Nat.not_le.1 hlt
    split
    · next hflag =>
      have hs : select s = some .lit := select_lit.2 ⟨h.run, h.unit, h.phase, hop, hnbits, (hg.flag hk).trans hflag⟩
      split
      · next hnone =>
        exact h.underrun h0 hs (.inr (.inr (.inl rfl))) (h.ip_eq ▸ Nat.lt_succ_of_le (hready.le_of_none hnone))
      · next v hv =>
        obtain ⟨m, ht, hnext⟩ := h.lit h0 hs hv
        exact .head (hready.step h.run ht) (ih (Nat.le_of_lt hk) hnext (hg.afterToken hk 1 1 m))
    · next hflag =>
      have hs : select s = some .ref :=
        select_ref.2 ⟨h.run, h.unit, h.phase, hop, hnbits, (hg.flag hk).trans (Bool.eq_true_of_not_eq_false hflag)⟩
      split
      · next b0 b1 hb0 hb1 =>
        obtain ⟨hbefore, hover, hcopy⟩ := h.ref h0 hs hb0 hb1 rfl rfl
        split
        · next hd => exact hbefore hd
        next hd =>
        split
        · next hl => exact hover (Nat.not_lt.1 hd) hl
        · next hl =>
          obtain ⟨m, ht, hnext⟩ := hcopy (Nat.not_lt.1 hd) (Nat.not_lt.1 hl)
          exact .head (hready.step h.run ht) (ih (Nat.le_of_lt hk) hnext (hg.afterToken hk _ 2 m))
      · next hshort =>
        refine h.underrun h0 hs (.inr (.inr (.inr rfl))) (Nat.not_le.1 fun hin => ?_)
        rw [h.ip_eq, ← hready.length] at hin
        have hlast : ip + 1 < input.length := hin
        exact hshort _ _ (List.getElem?_eq_getElem (Nat.lt_of_succ_lt hlast)) (List.getElem?_eq_getElem hlast)

/-- A group of `k` tokens appends at least `k` bytes, unless it makes the output whole. -/
theorem lzGroup_length {c : Byte} {k ip' : Nat} {out' : List Byte}
    (h : lzGroup input declared c k out ip = .ok (out', ip')) : min declared (out.length + k) ≤ out'.length := by
  induction k generalizing out ip with
  | zero =>
    obtain ⟨rfl, -⟩ := Prod.mk.inj (Except.ok.inj h)
    exact Nat.min_le_right _ _
  | succ k ih =>
    rw [lzGroup] at h
    split at h
    · next hle =>
      obtain ⟨rfl, -⟩ := Prod.mk.inj (Except.ok.inj h)
      exact (Nat.min_le_left _ _).trans hle
    split at h
    · split at h
      · cases h
      · have hrest := ih h
        rw [List.length_append, List.length_singleton] at hrest
        omega
    · split at h
      · split at h
        · cases h
        split at h
        · cases h
        · have hrest := ih h
          rw [lzCopy_length] at hrest
          omega
      · cases h

/-! ### The whole stream -/

/-- The run from `s` gives what `lz` gives: its fault, or the state with the whole output written, before FIN. -/
def LzReach (s0 : State) (declared : Nat) (s : State) : LzResult → Prop
  | .fault c info => ReachesFault s c info
  | .ok out ip => out.length = declared ∧ ∃ t, Reaches s t ∧ AtToken s0 declared out ip t

theorem LzReach.of_reaches {t : State} {r : LzResult} (h : Reaches s t) (hr : LzReach s0 declared t r) :
    LzReach s0 declared s r := by
  match r, hr with
  | .fault c info, hr => exact ReachesFault.of_reaches h hr
  | .ok out ip, ⟨hlen, u, hu, hat⟩ => exact ⟨hlen, u, h.trans hu, hat⟩

theorem AtToken.groups (h0 : InputReady s0 input) {n : Nat} (h : AtToken s0 declared out ip s)
    (hn : declared ≤ out.length + n) (hend : declared ≤ out.length ∨ s.nbits = 0) :
    LzReach s0 declared s (lzGroups input declared n out ip) := by
  induction n generalizing s out ip with
  | zero => exact ⟨Nat.le_antisymm h.le.1 hn, s, .refl s, h⟩
  | succ n ih =>
    have hready := h.ready h0
    rw [lzGroups]
    split
    · next hle => exact ⟨Nat.le_antisymm h.le.1 hle, s, .refl s, h⟩
    next hlt =>
    have hop : s.op < s.endAt := by
      rw [h.op, h.endAt]
      exact Nat.not_le.1 hlt
    have hs : select s = some .ctl := select_ctl.2 ⟨h.run, h.unit, h.phase, hop, hend.resolve_left hlt⟩
    split
    · next hnone =>
      exact h.underrun h0 hs (.inr (.inl rfl)) (h.ip_eq ▸ Nat.lt_succ_of_le (hready.le_of_none hnone))
    · next c hc =>
      obtain ⟨t, ht, hat, hg⟩ := h.ctl h0 hs hc
      refine .of_reaches (.head (hready.step h.run ht) (.refl t)) ?_
      have hgroup := hat.group h0 (Nat.le_refl 8) hg
      split
      · next cause info hr =>
        rw [hr] at hgroup
        exact hgroup
      · next out' ip' hr =>
        rw [hr] at hgroup
        obtain ⟨u, hu, hat', hend'⟩ := hgroup
        have hlen := lzGroup_length hr
        exact .of_reaches hu (ih hat' (by omega) hend')

/-! ### The header -/

/-- The declared length of R82 as the decoder assembles it. -/
theorem toNat_declared (b0 b1 b2 b3 : Byte) (rest : List Byte) :
    (b3 ++ b2 ++ b1).toNat = declaredLength (b0 :: b1 :: b2 :: b3 :: rest) := by
  rw [toNat_append_byte, toNat_append_byte]
  simp only [declaredLength, List.getD_cons_succ, List.getD_cons_zero]
  omega

/-- No byte of `IMG` holds a value before the header is read (R172, R175). -/
theorem img_empty_of_header (hinv : BlockInv s) (hs : select s = some .hdr) (a : Nat) : unitAt s.img a = none := by
  obtain ⟨hb, hu, hp⟩ := select_hdr.1 hs
  have hlzd := hinv.lzd hb hu
  obtain ⟨-, hop, -⟩ := hlzd.at_header hp
  rw [← not_holds_iff, hinv.img_held, hlzd.img_op, hop]
  exact Nat.not_lt_zero a

/-- What HDR does with the loaded input, in the order of its checks (R112). -/
theorem blockStep_header (hinv : BlockInv s) (hready : InputReady s input) (hs : select s = some .hdr) :
    (input.length < 4 ∧ blockStep s = .next (raiseFault .inputUnderrun 0 s)) ∨
      (4 ≤ input.length ∧ s.params.imgCap < declaredLength input ∧
        blockStep s = .next (raiseFault .lengthExceedsCapacity (declaredLength input) s)) ∨
      (4 ≤ input.length ∧ declaredLength input ≤ s.params.imgCap ∧
        ∃ t, blockStep s = .next t ∧ t.nbits = 0 ∧ AtToken s (declaredLength input) [] 4 t) := by
  obtain ⟨hb, hu, hp⟩ := select_hdr.1 hs
  obtain ⟨hip, -⟩ := (hinv.lzd hb hu).at_header hp
  have himg := img_empty_of_header hinv hs
  obtain hlt | hle := Nat.lt_or_ge input.length 4
  · have hshort : s.inLen < s.ip + 4 := by rwa [hip, ← hready.length, Nat.zero_add]
    exact .inl ⟨hlt, hip ▸ blockStep_of_underrun hs (.inl rfl) hshort⟩
  have hin : s.ip + 4 ≤ s.inLen := by rwa [hip, ← hready.length, Nat.zero_add]
  match input, hready, hle with
  | b0 :: b1 :: b2 :: b3 :: rest, hready, hle =>
    have hbyte (i : Nat) {v : Byte} (hv : (b0 :: b1 :: b2 :: b3 :: rest)[i]? = some v) :
        unitAt s.inp (s.ip + i) = some v := by
      rw [hip, Nat.zero_add]
      exact (hready.byte hv).2
    have hexec := blockStep_hdr hs hin hinv.inLen_le (hbyte 0 rfl) (hbyte 1 rfl) (hbyte 2 rfl) (hbyte 3 rfl)
    have hdeclared := toNat_declared b0 b1 b2 b3 rest
    obtain hd | hd := Nat.lt_or_ge s.params.imgCap (declaredLength (b0 :: b1 :: b2 :: b3 :: rest))
    · refine .inr (.inl ⟨hle, hd, ?_⟩)
      rw [← hdeclared] at hd ⊢
      exact hexec.trans (execHdr_of_tooLong b0 hs hin hd)
    · have ht := hexec.trans (execHdr_of b0 hs hin (hdeclared ▸ hd))
      refine .inr (.inr ⟨hle, hd, _, ht, rfl, ?_⟩)
      exact
        { inv := blockStep_keeps_inv hinv ht, run := hb, unit := hu, phase := rfl, host := rfl, cmd := rfl,
          endAt := hdeclared, op := rfl, ip_eq := by rw [hip], img := himg }

/-- From the header on, the LZD computes `lz` of the input, under DECOMP and under FRAME. -/
theorem lzd_computes_lz (hinv : BlockInv s) (hready : InputReady s input) (hs : select s = some .hdr) :
    LzReach s (declaredLength input) s (lz input s.params.imgCap) := by
  have hb := select_busy hs
  unfold lz
  obtain ⟨hlt, ht⟩ | ⟨hle, hd, ht⟩ | ⟨hle, hd, t, ht, hnbits, hat⟩ := blockStep_header hinv hready hs
  · rw [if_pos hlt]
    exact hready.reachesFault hb ht
  · rw [if_neg (Nat.not_lt.2 hle), if_pos hd]
    exact hready.reachesFault hb ht
  · rw [if_neg (Nat.not_lt.2 hle), if_neg (Nat.not_lt.2 hd)]
    exact .of_reaches (.head (hready.step hb ht) (.refl t)) (hat.groups hready (Nat.le_add_left _ _) (.inr hnbits))

/-- Under DECOMP the run ends within the bound of R127 for the length its header declares. -/
theorem decomp_ends (hinv : BlockInv s) (hready : InputReady s input) (hs : select s = some .hdr)
    (hc : s.cmd = .decomp) :
    ∃ (n : Nat) (t : State), n ≤ 2 + declaredLength input + (declaredLength input + 7) / 8 ∧
      Host.Core.run Sys2Proof.core n s = .next t ∧ t.run ≠ .busy ∧ t.turns = [] := by
  have hb := select_busy hs
  obtain ⟨-, ht⟩ | ⟨-, -, ht⟩ | ⟨-, -, t, ht, hnbits, hat⟩ := blockStep_header hinv hready hs
  · exact ⟨1, _, by omega, run_one (hready.step hb ht), by simp, hready.turns⟩
  · exact ⟨1, _, by omega, run_one (hready.step hb ht), by simp, hready.turns⟩
  · have hturns := (hat.ready hready).turns
    obtain ⟨n, u, hn, hrun, hended, hu⟩ := run_ends hat.inv hat.run (.inl hturns)
    have hwork : workLeft t = declaredLength input + (declaredLength input + 7) / 8 + 1 := by
      rw [workLeft_tok hat.unit hat.phase, hat.endAt, hat.op, hnbits, pexAfter, hat.cmd, hc]
      rfl
    exact ⟨n + 1, u, by omega, (run_succ (hready.step hb ht)).trans hrun, not_busy_of_ended hended, hu.trans hturns⟩

/-- With the whole output written, FIN completes a DECOMP (R122). -/
theorem AtToken.complete (h : AtToken s0 declared out ip s) (h0 : InputReady s0 input) (hlen : out.length = declared)
    (hc : s0.cmd = .decomp) : step s = .next (complete s) := by
  have hs : select s = some .fin := select_fin.2 ⟨h.run, h.unit, h.phase, by rw [h.op, h.endAt, hlen]⟩
  exact (h.ready h0).step h.run ((blockStep_fin hs).trans (execFin_of_decomp hs (h.cmd.trans hc)))

end Tokens

end Sys2Proof.Machine

namespace Sys2Proof.Proofs

open Sys2Proof.Machine Sys2Proof.Safety

/-- Settles O53: the LZD follows the loop of R130, FIN completes the command, and the end it comes to is the one that
`decomp_ends` finds within the bound. -/
theorem decompComputesLz : Obligations.DecompComputesLz := by
  intro s s1 input hinv hrun hturns hlen hbytes h
  obtain ⟨-, rfl⟩ | ⟨hb, -⟩ | ⟨hf, -⟩ := execDecomp_next h
  · have hinv1 : BlockInv (startLzd .decomp s) := execDecomp_keeps_inv hinv h
    have hready : InputReady (startLzd .decomp s) input := ⟨hturns, hlen, hbytes⟩
    have hs : select (startLzd .decomp s) = some .hdr := select_hdr.2 ⟨rfl, rfl, rfl⟩
    obtain ⟨n, t, hn, hrun, hrest⟩ := decomp_ends hinv1 hready hs rfl
    refine ⟨n, t, hn, hrun, ?_⟩
    have hlz := lzd_computes_lz hinv1 hready hs
    rw [startLzd_params] at hlz
    split
    · next bytes used hr =>
      rw [hr] at hlz
      obtain ⟨hdeclared, u, hu, hat⟩ := hlz
      obtain ⟨m, hm⟩ := hu.trans (.head (hat.complete hready hdeclared rfl) (.refl _))
      obtain rfl := run_rest_unique hrun hm hrest ⟨by simp, (hat.ready hready).turns⟩
      obtain ⟨hcause, -⟩ := hat.inv.unfaulted_of_busy hat.run
      have hvalid : u.imgValid = bytes.length := (hat.inv.lzd hat.run hat.unit).img_op.trans hat.op
      exact ⟨⟨rfl, rfl, hcause⟩, hat.ip_eq, hvalid, hdeclared, hat.img⟩
    · next c info hr =>
      rw [hr] at hlz
      obtain ⟨u, ⟨m, hm⟩, hu⟩ := hlz
      obtain rfl := run_rest_unique hrun hm hrest ⟨by simp, hu⟩
      exact ⟨rfl, rfl, rfl⟩
  · simp [hrun] at hb
  · simp [hrun] at hf

end Sys2Proof.Proofs

/-! SUPPORT. The palette expander: the fields of a colour by masks and shifts (R141), what each of PEX's steps answers
in its condition (R145, R147), and its run entry by entry (R148). -/

namespace Sys2Proof.Machine

open Sys2Proof.Safety

/-! ### The colour of an entry by bytes, and by masks and shifts -/

/-- The 3 bits under a channel are among those that R144 (d) says are zero. -/
theorem extract_low3_expand (l : PalLayout) (v : RawEntry) {start : Nat}
    (h : (0x070707#24).extractLsb' start 3 = BitVec.allOnes 3) : (expand l v).extractLsb' start 3 = 0#3 := by
  calc (expand l v).extractLsb' start 3
      = (expand l v).extractLsb' start 3 &&& (0x070707#24).extractLsb' start 3 := by rw [h, BitVec.and_allOnes]
    _ = (expand l v &&& 0x070707#24).extractLsb' start 3 := BitVec.extractLsb'_and.symm
    _ = 0#3 := by rw [expand_and_low3]; exact BitVec.extractLsb'_zero

/-- Each byte of the expansion is a channel over 3 zero bits. -/
theorem extract_byte_expand (l : PalLayout) (v : RawEntry) {start : Nat}
    (h : (0x070707#24).extractLsb' start 3 = BitVec.allOnes 3) :
    (expand l v).extractLsb' start 8 = (expand l v).extractLsb' (start + 3) 5 ++ 0#3 := by
  rw [← extract_low3_expand l v h, BitVec.extractLsb'_append_extractLsb'_eq_extractLsb' rfl]

theorem red8_expand (l : PalLayout) (v : RawEntry) : red8 (expand l v) = red5 l v ++ 0#3 := by
  rw [red8, extract_byte_expand l v rfl, red5_expand]

theorem green8_expand (l : PalLayout) (v : RawEntry) : green8 (expand l v) = green5 v ++ 0#3 := by
  rw [green8, extract_byte_expand l v rfl, green5_expand]

theorem blue8_expand (l : PalLayout) (v : RawEntry) : blue8 (expand l v) = blue5 l v ++ 0#3 := by
  rw [blue8, extract_byte_expand l v rfl, blue5_expand]

/-- A mask of five bits keeps the field under it, in its place. -/
theorem and_mask5_shiftLeft (v : RawEntry) (start : Nat) :
    v.setWidth 24 &&& (BitVec.allOnes 5).setWidth 24 <<< start = (v.extractLsb' start 5).setWidth 24 <<< start := by
  ext i hi
  by_cases hlt : i < start
  · simp [hlt]
  · simp only [BitVec.getElem_and, BitVec.getElem_setWidth, BitVec.getElem_shiftLeft, BitVec.getLsbD_allOnes,
      BitVec.getLsbD_extractLsb', hlt, decide_false, Bool.not_false, Bool.true_and, Bool.and_comm,
      Nat.add_sub_cancel' (Nat.not_lt.1 hlt)]

theorem and_lowMask (v : RawEntry) : v.setWidth 24 &&& 0x001F#24 = (lowChannel v).setWidth 24 :=
  (and_mask5_shiftLeft v 0).trans (BitVec.shiftLeft_zero _)

theorem and_midMask (v : RawEntry) : v.setWidth 24 &&& 0x03E0#24 = (midChannel v).setWidth 24 <<< 5 :=
  and_mask5_shiftLeft v 5

theorem and_highMask (v : RawEntry) : v.setWidth 24 &&& 0x7C00#24 = (highChannel v).setWidth 24 <<< 10 :=
  and_mask5_shiftLeft v 10

/-- A channel at bit 10 stays within the word, so a shift down to bit 3 loses nothing. -/
theorem channel_shiftRight (c : BitVec 5) : (c.setWidth 24 <<< 10) >>> 7 = c.setWidth 24 <<< 3 := by
  have hlt : c.toNat < 32 := c.isLt
  apply BitVec.eq_of_toNat_eq
  simp only [BitVec.toNat_ushiftRight, BitVec.toNat_shiftLeft, BitVec.toNat_setWidth, Nat.shiftLeft_eq,
    Nat.shiftRight_eq_div_pow]
  omega

/-- R141 by shifts of the three channels. -/
theorem expand_eq_shifts (l : PalLayout) (v : RawEntry) : expand l v =
    (red5 l v).setWidth 24 <<< 19 ||| (green5 v).setWidth 24 <<< 11 ||| (blue5 l v).setWidth 24 <<< 3 := by
  rw [← BitVec.setWidth_eq (expand l v), expand]
  simp only [BitVec.setWidth_append_eq_shiftLeft_setWidth_or, BitVec.setWidth_zero, BitVec.or_zero,
    BitVec.shiftLeft_or_distrib, ← BitVec.shiftLeft_add]

/-! ### The meanings, branch by branch -/

theorem execPexp_of {s : State} (v : RawEntry) (hs : select s = some .pexp) : execPexp v s =
    .next { s with palExp := putUnit s.palExp s.pidx (expand s.params.layout v), pidx := s.pidx + 1 } := by
  obtain ⟨-, -, hidx⟩ := select_pexp.1 hs
  rw [execPexp, whenEnabled_of hs, writeUnit_ok_iff.2 ⟨hidx, rfl⟩]

/-- PEXP on an entry that holds a value (R145). -/
theorem blockStep_pexp {s : State} {v : RawEntry} (hs : select s = some .pexp)
    (hv : unitAt s.palRaw s.pidx = some v) : blockStep s = execPexp v s := by
  obtain ⟨-, -, hidx⟩ := select_pexp.1 hs
  have hdecode : decode .pexp [v.extractLsb' 0 8, v.extractLsb' 8 8] = .ok (.pexp v, []) := by
    rw [decode, leWord16_bytes]
  exact blockStep_of_decoded hs (fetchEntry_of hidx hv) hdecode

/-- PFIN fetches nothing (R100, R147). -/
theorem blockStep_pfin {s : State} (hs : select s = some .pfin) : blockStep s = execPfin s :=
  blockStep_of_decoded (rest := []) hs rfl rfl

theorem execPfin_of_palx {s : State} (hs : select s = some .pfin) (hc : s.cmd = .palx) :
    execPfin s = .next (complete (markPalExp s)) := by
  rw [execPfin, whenEnabled_of hs, hc]

theorem execPfin_of_frame {s : State} (hs : select s = some .pfin) (hc : s.cmd = .frame)
    (hi : s.imgValid = s.params.npix) : execPfin s = .next (startFrc (markPalExp s)) := by
  have hcheck : frcCheck (markPalExp s) = none := (if_neg (not_not.2 hi)).trans (if_pos rfl)
  rw [execPfin, whenEnabled_of hs, hc, hcheck]
  rfl

theorem execPfin_of_incomplete {s : State} (hs : select s = some .pfin) (hc : s.cmd = .frame)
    (hi : s.imgValid ≠ s.params.npix) :
    execPfin s = .next (raiseFault .imageIncomplete s.imgValid (markPalExp s)) := by
  have hcheck : frcCheck (markPalExp s) = some (.imageIncomplete, s.imgValid) := if_pos hi
  rw [execPfin, whenEnabled_of hs, hc, hcheck]
  rfl

/-- FRC started while the block runs leaves `run` as it was. -/
theorem startFrc_of_busy {s : State} (hb : s.run = .busy) : startFrc s =
    { s with unit := .frc, fy := s.params.height - 1, fx := 0, wp := 0, out := [], outValid := false } := by
  rw [startFrc, ← hb]

/-! ### The run of PEX (R148) -/

/-- `exp` holds the expansions of the first `n` entries of `raw`, and no other value. -/
def ExpandedBelow (l : PalLayout) (raw : Cells 16) (n : Nat) (exp : Cells 24) : Prop :=
  ∀ a, unitAt exp a = if a < n then (unitAt raw a).map (expand l) else none

theorem expandedBelow_zero (l : PalLayout) (raw : Cells 16) : ExpandedBelow l raw 0 [] :=
  fun _ => (if_neg (Nat.not_lt_zero _)).symm

theorem ExpandedBelow.putUnit {l : PalLayout} {raw : Cells 16} {n : Nat} {exp : Cells 24} {v : RawEntry}
    (h : ExpandedBelow l raw n exp) (hv : unitAt raw n = some v) :
    ExpandedBelow l raw (n + 1) (putUnit exp n (expand l v)) := by
  intro a
  rw [unitAt_putUnit, h a]
  obtain hlt | rfl | hgt := Nat.lt_trichotomy a n
  · rw [if_neg hlt.ne, if_pos hlt, if_pos (Nat.lt_succ_of_lt hlt)]
  · rw [if_pos rfl, if_pos (Nat.lt_succ_self a), hv, Option.map_some]
  · rw [if_neg hgt.ne', if_neg hgt.not_gt, if_neg (Nat.not_lt.2 hgt)]

/-- PEX started in `s` and standing at entry `n`, with `exp` in `PAL_EXP`. -/
def atEntry (exp : Cells 24) (n : Nat) (s : State) : State := { startPex s with palExp := exp, pidx := n }

/-- With no turn listed a running block takes its step. -/
theorem step_of_select {s t : State} {k : Kind} (ht : s.turns = []) (hs : select s = some k)
    (h : blockStep s = .next t) : step s = .next t :=
  (step_of_hostWaits (.inl ht) (select_busy hs)).trans h

/-- One PEXP of the run: from each entry that holds a value to the next. -/
theorem step_atEntry {s : State} {exp : Cells 24} {n : Nat} {v : RawEntry} (ht : s.turns = []) (hn : n < palSize)
    (hv : unitAt s.palRaw n = some v) :
    step (atEntry exp n s) = .next (atEntry (putUnit exp n (expand s.params.layout v)) (n + 1) s) :=
  have hs : select (atEntry exp n s) = some .pexp := select_pexp.2 ⟨rfl, rfl, hn⟩
  step_of_select ht hs ((blockStep_pexp hs hv).trans (execPexp_of v hs))

/-- `n` steps after the start of PEX on a loaded palette, by PALX or by FRAME, the first `n` entries are expanded and
nothing else has changed. -/
theorem run_startPex {s : State} {n : Nat} (ht : s.turns = []) (hraw : ∀ a, a < palSize → holds s.palRaw a)
    (hn : n ≤ palSize) : ∃ exp, ExpandedBelow s.params.layout s.palRaw n exp ∧
      Host.Core.run Sys2Proof.core n (startPex s) = .next (atEntry exp n s) := by
  induction n with
  | zero => exact ⟨[], expandedBelow_zero _ _, rfl⟩
  | succ n ih =>
    obtain ⟨exp, hexp, hrun⟩ := ih (Nat.le_of_succ_le hn)
    obtain ⟨v, hv⟩ := Option.isSome_iff_exists.1 (hraw n hn)
    exact ⟨_, hexp.putUnit hv, (run_add hrun).trans (run_one (step_atEntry ht hn hv))⟩

/-- After the last entry PFIN marks the palette and completes a PALX (R147, R176). -/
theorem step_atEntry_palSize {s : State} (exp : Cells 24) (ht : s.turns = []) (hc : s.cmd = .palx) :
    step (atEntry exp palSize s) = .next (complete (markPalExp (atEntry exp palSize s))) :=
  have hs : select (atEntry exp palSize s) = some .pfin := select_pfin.2 ⟨rfl, rfl, rfl⟩
  step_of_select ht hs ((blockStep_pfin hs).trans (execPfin_of_palx hs hc))

end Sys2Proof.Machine

namespace Sys2Proof.Proofs

open Sys2Proof.Machine Sys2Proof.Safety

/-- Settles O54: a loaded palette holds all 256 entries, one PEXP expands each, and PFIN ends the run. -/
theorem palxExpandsWholePalette : Obligations.PalxExpandsWholePalette := by
  intro s s1 hinv hrun hturns hraw h
  obtain ⟨-, -, rfl⟩ | ⟨-, hnot, -⟩ | ⟨hb, -⟩ | ⟨hf, -⟩ := execPalx_next h
  · have hheld : ∀ a, a < palSize → holds s.palRaw a := fun a ha => (hinv.palRaw_held a).2 ⟨hraw, ha⟩
    obtain ⟨exp, hexp, hentries⟩ := run_startPex (s := accepted .palx s) hturns hheld (Nat.le_refl palSize)
    obtain ⟨hcause, -⟩ := hinv.unfaulted (by simp [hrun])
    exact ⟨_, (run_add hentries).trans (run_one (step_atEntry_palSize exp hturns rfl)), ⟨rfl, rfl, hcause⟩, rfl,
      fun k hk => (hexp k).trans (if_pos hk)⟩
  · simp [hraw] at hnot
  · simp [hrun] at hb
  · simp [hrun] at hf

/-- Settles O17: each byte is a channel over zeros, and each mask of R141 cuts out one channel. -/
theorem expandByMaskAndShift : Obligations.ExpandByMaskAndShift := by
  refine ⟨fun l v => ⟨extract_low3_expand l v rfl, extract_low3_expand l v rfl, extract_low3_expand l v rfl,
    green5_expand l v⟩, fun v => ⟨red5_expand .redLow v, blue5_expand .redLow v, red5_expand .redHigh v,
    blue5_expand .redHigh v, ?_, ?_, ?_, ?_, ?_⟩⟩
  · exact (red8_expand .redHigh v).trans (blue8_expand .redLow v).symm
  · exact (green8_expand .redHigh v).trans (green8_expand .redLow v).symm
  · exact (blue8_expand .redHigh v).trans (red8_expand .redLow v).symm
  · rw [expand_eq_shifts, and_lowMask, and_midMask, and_highMask, channel_shiftRight, ← BitVec.shiftLeft_add]
    rfl
  · rw [expand_eq_shifts, and_lowMask, and_midMask, and_highMask, ← BitVec.shiftLeft_add, ← BitVec.shiftLeft_add]
    rfl

/-- Settles O19: PEXP puts one unit, and the entry's two bytes decode to the entry. -/
theorem pexpExpandsOneEntry : Obligations.PexpExpandsOneEntry := by
  intro s hb hu hidx
  have hs : select s = some .pexp := select_pexp.2 ⟨hb, hu, hidx⟩
  exact ⟨fun v => ⟨_, execPexp_of v hs, fun a => unitAt_putUnit _ _ a _⟩, fun v hv => blockStep_pexp hs hv⟩

/-- Settles O20: with the mark set, FRC's start can fail on the image alone. -/
theorem pfinEndsThePalette : Obligations.PfinEndsThePalette := by
  intro s hb hu hidx
  have hs : select s = some .pfin := select_pfin.2 ⟨hb, hu, hidx⟩
  refine ⟨blockStep_pfin hs, execPfin_of_palx hs, fun hc hi => ?_, execPfin_of_incomplete hs⟩
  exact (execPfin_of_frame hs hc hi).trans (congrArg _ (startFrc_of_busy hb))

end Sys2Proof.Proofs

/-! SUPPORT. The frame reconstructor: what each of FRC's steps answers in its condition (R158, R159), and its run pixel
by pixel (R157, R161). -/

namespace Sys2Proof.Machine

open Sys2Proof.Safety

/-! ### The meanings, branch by branch -/

/-- PIX on a pixel that holds a value (R158). -/
theorem blockStep_pix {s : State} {k : Byte} (hs : select s = some .pix)
    (hin : pixelIndex s.params s.fx s.fy < s.params.imgCap)
    (hk : unitAt s.img (pixelIndex s.params s.fx s.fy) = some k) : blockStep s = execPix k s :=
  blockStep_of_decoded (rest := []) hs (fetchPixel_of hin hk) rfl

/-- RFIN fetches nothing (R100, R159). -/
theorem blockStep_rfin {s : State} (hs : select s = some .rfin) : blockStep s = execRfin s :=
  blockStep_of_decoded (rest := []) hs rfl rfl

/-- RFIN's rows of R176 are the same for the two commands that run FRC. -/
theorem execRfin_of {s : State} (hs : select s = some .rfin) (hc : s.cmd = .recon ∨ s.cmd = .frame) :
    execRfin s = .next (complete { s with outValid := true }) := by
  rw [execRfin, whenEnabled_of hs]
  obtain hc | hc := hc <;> rw [hc]

/-- Under the invariant PIX finds its pixel and its palette entry, and has room for the three bytes (R57, R158). -/
theorem blockStep_pix_of_inv {s : State} (hinv : BlockInv s) (hs : select s = some .pix) :
    ∃ k c m, unitAt s.img (pixelIndex s.params s.fx s.fy) = some k ∧ unitAt s.palExp k.toNat = some c ∧
      writeRun .out s.params.outLen s.out s.wp (pixelBytes c) = .ok m ∧ blockStep s = .next (afterPixel m s) := by
  obtain ⟨hb, hu, hw⟩ := select_pix.1 hs
  have hfrc := hinv.frc hb hu
  have hin := pixelIndex_lt hfrc.fx_lt hfrc.fy_lt
  obtain ⟨k, hk⟩ := Option.isSome_iff_exists.1 ((hinv.img_held _).2 (hin.trans_eq hfrc.img_full.symm))
  obtain ⟨c, hc⟩ := palExp_value_of_inv hinv hs k
  obtain ⟨m, hm⟩ := writeRun_isOk (sp := .out) (m := s.out) (pixelBytes c) (wp_add_three_le hfrc hw)
  exact ⟨k, c, m, hk, hc, hm, (blockStep_pix hs hin hk).trans (execPix_of hs hc hm)⟩

/-! ### The sweep of FRC (R157) -/

/-- How many pixels the sweep appends before pixel (x, y): the rows below it, then its own columns (R157). -/
def sweepIndex (p : Params) (x y : Nat) : Nat := pixelIndex p x (p.height - 1 - y)

theorem pixelIndex_inj {p : Params} {x y x' y' : Nat} (hx : x < p.width) (hx' : x' < p.width)
    (h : pixelIndex p x y = pixelIndex p x' y') : x = x' ∧ y = y' := by
  have hpos : 0 < p.width := Nat.zero_lt_of_lt hx
  have hrow {a b : Nat} (ha : a < p.width) : pixelIndex p a b / p.width = b := by
    rw [pixelIndex, Nat.mul_comm, Nat.mul_add_div hpos, Nat.div_eq_of_lt ha, Nat.add_zero]
  obtain rfl : y = y' := (hrow hx).symm.trans ((congrArg (· / p.width) h).trans (hrow hx'))
  exact ⟨Nat.add_left_cancel h, rfl⟩

theorem sweepIndex_inj {p : Params} {x y x' y' : Nat} (hx : x < p.width) (hy : y < p.height) (hx' : x' < p.width)
    (hy' : y' < p.height) (h : sweepIndex p x y = sweepIndex p x' y') : x = x' ∧ y = y' := by
  obtain ⟨hcol, hrow⟩ := pixelIndex_inj hx hx' h
  exact ⟨hcol, by omega⟩

theorem sweepIndex_lt {p : Params} {x y : Nat} (hx : x < p.width) (hy : y < p.height) : sweepIndex p x y < p.npix :=
  pixelIndex_lt hx (by omega)

/-- `out` holds the palette entry of pixel (x, y) as red, green, blue at the pixel's place in the sweep (R89, R161). -/
def PixelShown (s : State) (out : Cells 8) (x y : Nat) : Prop :=
  ∃ (k : Byte) (c : Colour), unitAt s.img (pixelIndex s.params x y) = some k ∧ unitAt s.palExp k.toNat = some c ∧
    unitAt out (3 * sweepIndex s.params x y) = some (red8 c) ∧
    unitAt out (3 * sweepIndex s.params x y + 1) = some (green8 c) ∧
    unitAt out (3 * sweepIndex s.params x y + 2) = some (blue8 c)

/-- `out` shows the first `n` pixels of the sweep. -/
def ShownBelow (s : State) (n : Nat) (out : Cells 8) : Prop :=
  ∀ x y, x < s.params.width → y < s.params.height → sweepIndex s.params x y < n → PixelShown s out x y

theorem shownBelow_zero (s : State) (out : Cells 8) : ShownBelow s 0 out :=
  fun _ _ _ _ h => absurd h (Nat.not_lt_zero _)

/-- The bytes appended for the pixel whose turn it is show that pixel, and leave those before it as they were. -/
theorem ShownBelow.writePixel {s : State} {n cap x y : Nat} {out m : Cells 8} {k : Byte} {c : Colour}
    (h : ShownBelow s n out) (hx : x < s.params.width) (hy : y < s.params.height) (hn : n = sweepIndex s.params x y)
    (hk : unitAt s.img (pixelIndex s.params x y) = some k) (hc : unitAt s.palExp k.toNat = some c)
    (hm : writeRun .out cap out (3 * n) (pixelBytes c) = .ok m) : ShownBelow s (n + 1) m := by
  intro x' y' hx' hy' hlt
  obtain hlt | heq := Nat.lt_succ_iff_lt_or_eq.1 hlt
  · obtain ⟨k', c', hk', hc', hred, hgreen, hblue⟩ := h x' y' hx' hy' hlt
    have hkept {b : Nat} (hb : b < 3 * n) : unitAt m b = unitAt out b := by
      rw [unitAt_writePixel hm, if_neg (by omega), if_neg (by omega), if_neg (by omega)]
    exact ⟨k', c', hk', hc', (hkept (by omega)).trans hred, (hkept (by omega)).trans hgreen,
      (hkept (by omega)).trans hblue⟩
  · obtain ⟨rfl, rfl⟩ := sweepIndex_inj hx' hy' hx hy (heq.trans hn)
    refine ⟨k, c, hk, hc, ?_⟩
    simp [← hn, unitAt_writePixel hm]

/-! ### The run of FRC (R161) -/

/-- FRC started in `s` and standing at pixel (x, y) after `n` pixels, with `out` in `OUT`. -/
def atPixel (out : Cells 8) (n x y : Nat) (s : State) : State :=
  { startFrc s with out := out, wp := 3 * n, fx := x, fy := y }

/-- One PIX of the run: while pixels are due the next one of the sweep is shown. -/
theorem step_atPixel {s : State} {out : Cells 8} {n x y : Nat} (hinv : BlockInv (atPixel out n x y s))
    (ht : s.turns = []) (hn : n < s.params.npix) (hshown : ShownBelow s n out) :
    ∃ out' x' y', step (atPixel out n x y s) = .next (atPixel out' (n + 1) x' y' s) ∧
      BlockInv (atPixel out' (n + 1) x' y' s) ∧ ShownBelow s (n + 1) out' := by
  have hdue : 3 * n < s.params.outLen := Nat.mul_lt_mul_of_pos_left hn (by decide)
  have hs : select (atPixel out n x y s) = some .pix := select_pix.2 ⟨rfl, rfl, hdue⟩
  have hfrc := hinv.frc rfl rfl
  have hplace : n = sweepIndex s.params x y := Nat.eq_of_mul_eq_mul_left (by decide) (hfrc.wp_eq hdue)
  obtain ⟨k, c, m, hk, hc, hm, hstep⟩ := blockStep_pix_of_inv hinv hs
  exact ⟨m, _, _, step_of_select ht hs hstep, hinv.afterPixel hs hm,
    hshown.writePixel hfrc.fx_lt hfrc.fy_lt hplace hk hc hm⟩

/-- `n` steps after the start of FRC, by RECON or by FRAME, the first `n` pixels of the sweep are shown, and beside
`OUT`, `wp` and the sweep nothing has changed. -/
theorem run_startFrc {s : State} {n : Nat} (hinv : BlockInv (startFrc s)) (ht : s.turns = [])
    (hn : n ≤ s.params.npix) : ∃ out x y, ShownBelow s n out ∧ BlockInv (atPixel out n x y s) ∧
      Host.Core.run Sys2Proof.core n (startFrc s) = .next (atPixel out n x y s) := by
  induction n with
  | zero => exact ⟨[], 0, s.params.height - 1, shownBelow_zero s [], hinv, rfl⟩
  | succ n ih =>
    obtain ⟨out, x, y, hshown, hat, hrun⟩ := ih (Nat.le_of_succ_le hn)
    obtain ⟨out', x', y', hstep, hat', hshown'⟩ := step_atPixel hat ht hn hshown
    exact ⟨out', x', y', hshown', hat', (run_add hrun).trans (run_one hstep)⟩

/-- After the last pixel RFIN completes the command (R159, R176). -/
theorem step_atPixel_npix {s : State} (out : Cells 8) (x y : Nat) (ht : s.turns = [])
    (hc : s.cmd = .recon ∨ s.cmd = .frame) :
    step (atPixel out s.params.npix x y s) =
      .next (complete { atPixel out s.params.npix x y s with outValid := true }) :=
  have hs : select (atPixel out s.params.npix x y s) = some .rfin := select_rfin.2 ⟨rfl, rfl, rfl⟩
  step_of_select ht hs ((blockStep_rfin hs).trans (execRfin_of hs hc))

/-- The whole run of FRC: `NPIX + 1` steps after its start the command is complete and every pixel is shown. -/
theorem run_frc {s : State} (hinv : BlockInv (startFrc s)) (ht : s.turns = [])
    (hc : s.cmd = .recon ∨ s.cmd = .frame) : ∃ out x y,
      (∀ a b, a < s.params.width → b < s.params.height → PixelShown s out a b) ∧
      Host.Core.run Sys2Proof.core (s.params.npix + 1) (startFrc s) =
        .next (complete { atPixel out s.params.npix x y s with outValid := true }) := by
  obtain ⟨out, x, y, hshown, -, hrun⟩ := run_startFrc hinv ht (Nat.le_refl s.params.npix)
  exact ⟨out, x, y, fun a b ha hb => hshown a b ha hb (sweepIndex_lt ha hb),
    (run_add hrun).trans (run_one (step_atPixel_npix out x y ht hc))⟩

end Sys2Proof.Machine

namespace Sys2Proof.Proofs

open Sys2Proof.Machine Sys2Proof.Safety

/-- Settles O55: each PIX shows the next pixel of the sweep, whose place in the sweep is its place in the reversed
rows, and RFIN ends the run. -/
theorem reconReversesRows : Obligations.ReconReversesRows := by
  intro s s1 hinv hrun hturns hfull hexp h
  have hstarted : BlockInv s1 := execRecon_keeps_inv hinv h
  obtain ⟨-, -, -, rfl⟩ | ⟨-, hnot, -⟩ | ⟨-, -, hnot, -⟩ | ⟨hb, -⟩ | ⟨hf, -⟩ := execRecon_next h
  · obtain ⟨out, x, y, hshown, hend⟩ := run_frc (s := accepted .recon s) hstarted hturns (.inl rfl)
    obtain ⟨hcause, -⟩ := hinv.unfaulted (by simp [hrun])
    exact ⟨_, hend, ⟨rfl, rfl, hcause⟩, rfl, hshown⟩
  · exact absurd hfull hnot
  · simp [hexp] at hnot
  · simp [hrun] at hb
  · simp [hrun] at hf

/-- Settles O22: both commands that run FRC have the same row, and RFIN fetches nothing. -/
theorem rfinEndsTheFrame : Obligations.RfinEndsTheFrame := by
  intro s hb hu hw hc
  have hs : select s = some .rfin := select_rfin.2 ⟨hb, hu, hw⟩
  exact ⟨execRfin_of hs hc, blockStep_rfin hs⟩

end Sys2Proof.Proofs

/-! SUPPORT. The bytes of `frame` (R161, R185): the place of each, and `OUT` after a finished sweep against them. -/

namespace Sys2Proof.Machine

open Sys2Proof.Safety

/-! ### Pieces of one length in a row -/

section Pieces

variable {α : Type} {f : Nat → List α} {c : Nat}

theorem length_flatMap_range (hlen : ∀ i, (f i).length = c) (n : Nat) :
    ((List.range n).flatMap f).length = c * n := by
  simp [List.length_flatMap, hlen, Nat.mul_comm]

/-- Item `j` of piece `i`. -/
theorem getElem?_flatMap_range (hlen : ∀ i, (f i).length = c) {n i j : Nat} (hi : i < n) (hj : j < c) :
    ((List.range n).flatMap f)[c * i + j]? = (f i)[j]? := by
  induction n with
  | zero => exact absurd hi (Nat.not_lt_zero i)
  | succ n ih =>
    have hpieces := length_flatMap_range hlen n
    rw [List.range_succ, List.flatMap_append, List.flatMap_singleton]
    obtain hlt | rfl := Nat.lt_succ_iff_lt_or_eq.1 hi
    · have hbefore : c * i + j < c * n :=
        calc c * i + j < c * i + c := Nat.add_lt_add_left hj _
          _ ≤ c * n := Nat.mul_le_mul_left c hlt
      rw [List.getElem?_append_left (hpieces ▸ hbefore), ih hlt]
    · rw [List.getElem?_append_right (hpieces ▸ Nat.le_add_right _ j), hpieces, Nat.add_sub_cancel_left]

end Pieces

/-! ### The place of a pixel's bytes -/

section Places

variable (p : Params) (img : List Byte) (raw : List RawEntry)

/-- The bytes of row `y` of the image. -/
def frameRow (y : Nat) : List Byte := (List.range p.width).flatMap fun x => framePixel p img raw x y

theorem frameBytes_eq_rows :
    frameBytes p img raw = (List.range p.height).flatMap fun r => frameRow p img raw (p.height - 1 - r) := rfl

theorem length_framePixel (x y : Nat) : (framePixel p img raw x y).length = 3 := rfl

theorem length_frameRow (y : Nat) : (frameRow p img raw y).length = 3 * p.width :=
  length_flatMap_range (length_framePixel p img raw · y) p.width

theorem length_frameBytes : (frameBytes p img raw).length = p.outLen := by
  rw [frameBytes_eq_rows, length_flatMap_range (fun r => length_frameRow p img raw _), Nat.mul_assoc]
  rfl

/-- The bytes of pixel (x, y) stand at the pixel's place in the sweep (R161). -/
theorem getElem?_frameBytes {x y j : Nat} (hx : x < p.width) (hy : y < p.height) (hj : j < 3) :
    (frameBytes p img raw)[3 * sweepIndex p x y + j]? = (framePixel p img raw x y)[j]? := by
  have hplace : 3 * sweepIndex p x y + j = 3 * p.width * (p.height - 1 - y) + (3 * x + j) := by
    rw [sweepIndex, pixelIndex]
    ring
  rw [hplace, frameBytes_eq_rows, getElem?_flatMap_range (fun r => length_frameRow p img raw _) (by omega) (by omega),
    show p.height - 1 - (p.height - 1 - y) = y by omega]
  exact getElem?_flatMap_range (length_framePixel p img raw · y) hx hj

end Places

/-- Every index of `OUT` is one of the three bytes of one pixel. -/
theorem exists_pixel_of_lt {p : Params} {a : Nat} (ha : a < p.outLen) :
    ∃ x y j, x < p.width ∧ y < p.height ∧ j < 3 ∧ a = 3 * sweepIndex p x y + j := by
  have hpix : a / 3 < p.width * p.height := Nat.div_lt_of_lt_mul ha
  have hwidth : 0 < p.width := Nat.pos_of_mul_pos_right (Nat.zero_lt_of_lt hpix)
  have hrow : a / 3 / p.width < p.height := Nat.div_lt_of_lt_mul hpix
  refine ⟨a / 3 % p.width, p.height - 1 - a / 3 / p.width, a % 3, Nat.mod_lt _ hwidth,
    (Nat.sub_le _ _).trans_lt (Nat.sub_one_lt_of_lt hrow), Nat.mod_lt _ (by decide), ?_⟩
  rw [sweepIndex, pixelIndex, Nat.sub_sub_self (Nat.le_sub_one_of_lt hrow), Nat.div_add_mod', Nat.div_add_mod]

/-! ### `OUT` against `frame` -/

/-- A shown pixel has the bytes that R185 gives it, where `IMG` holds `img` and `PAL_EXP` the expansions of `raw`. -/
theorem PixelShown.bytes {s : State} {out : Cells 8} {img : List Byte} {raw : List RawEntry} {x y j : Nat}
    (h : PixelShown s out x y) (himg : ∀ a, unitAt s.img a = img[a]?)
    (hexp : ∀ k, k < palSize → unitAt s.palExp k = raw[k]?.map (expand s.params.layout)) (hj : j < 3) :
    unitAt out (3 * sweepIndex s.params x y + j) = (framePixel s.params img raw x y)[j]? := by
  obtain ⟨k, c, hk, hc, hred, hgreen, hblue⟩ := h
  rw [himg, pixelIndex] at hk
  rw [hexp _ (index_lt_palSize k)] at hc
  obtain ⟨v, hv, rfl⟩ := Option.map_eq_some_iff.1 hc
  have hpixel : framePixel s.params img raw x y = pixelBytes (expand s.params.layout v) := by
    rw [framePixel, List.getD_eq_getElem?_getD (l := img), hk, Option.getD_some, List.getD_eq_getElem?_getD, hv,
      Option.getD_some]
  rw [hpixel]
  match j, hj with
  | 0, _ => exact hred
  | 1, _ => exact hgreen
  | 2, _ => exact hblue

/-- When every pixel is shown and nothing stands above them, `OUT` holds the bytes of `frame`. -/
theorem unitAt_eq_frameBytes {s : State} {out : Cells 8} {img : List Byte} {raw : List RawEntry}
    (himg : ∀ a, unitAt s.img a = img[a]?)
    (hexp : ∀ k, k < palSize → unitAt s.palExp k = raw[k]?.map (expand s.params.layout))
    (hshown : ∀ x y, x < s.params.width → y < s.params.height → PixelShown s out x y)
    (hbelow : ∀ a, holds out a → a < s.params.outLen) (a : Nat) :
    unitAt out a = (frameBytes s.params img raw)[a]? := by
  obtain ha | ha := Nat.lt_or_ge a s.params.outLen
  · obtain ⟨x, y, j, hx, hy, hj, rfl⟩ := exists_pixel_of_lt ha
    rw [getElem?_frameBytes _ _ _ hx hy hj]
    exact (hshown x y hx hy).bytes himg hexp hj
  · rw [not_holds_iff.1 fun h => Nat.not_lt.2 ha (hbelow a h), List.getElem?_eq_none]
    rwa [length_frameBytes]

end Sys2Proof.Machine

/-! SUPPORT. A FRAME run (R178): the LZD's part ends at FIN, PEX follows on the loaded palette, and FRC on the whole
image. -/

namespace Sys2Proof.Machine

open Sys2Proof.Safety

/-- What every step keeps, every run keeps. -/
theorem core_run_keeps {M : Host.Core} {P : M.State → Prop} (hstep : ∀ s t, P s → M.step s = .next t → P t)
    {n : Nat} {s t : M.State} (hs : P s) (h : M.run n s = .next t) : P t := by
  induction n generalizing s with
  | zero =>
    obtain rfl := Host.Outcome.next.inj h
    exact hs
  | succ n ih =>
    rw [Host.Core.run] at h
    split at h
    · next u hu => exact ih (hstep s u hs hu) h
    · cases h
    · cases h

theorem Reaches.keeps_inv {s t : State} (h : Reaches s t) (hinv : BlockInv s) : BlockInv t :=
  have ⟨_, hn⟩ := h
  core_run_keeps (M := Sys2Proof.core) Proofs.stepKeepsInvariant hinv hn

section LastEntry

variable {s : State} (exp : Cells 24) (ht : s.turns = []) (hc : s.cmd = .frame)

include ht hc

/-- After the last entry PFIN starts FRC on a whole image under FRAME (R147, R176). -/
theorem step_atEntry_frame (hi : s.imgValid = s.params.npix) :
    step (atEntry exp palSize s) = .next (startFrc (markPalExp (atEntry exp palSize s))) :=
  have hs : select (atEntry exp palSize s) = some .pfin := select_pfin.2 ⟨rfl, rfl, rfl⟩
  step_of_select ht hs ((blockStep_pfin hs).trans (execPfin_of_frame hs hc hi))

/-- On an image that is not whole it faults (R176, R195). -/
theorem step_atEntry_incomplete (hi : s.imgValid ≠ s.params.npix) :
    step (atEntry exp palSize s) =
      .next (raiseFault .imageIncomplete s.imgValid (markPalExp (atEntry exp palSize s))) :=
  have hs : select (atEntry exp palSize s) = some .pfin := select_pfin.2 ⟨rfl, rfl, rfl⟩
  step_of_select ht hs ((blockStep_pfin hs).trans (execPfin_of_incomplete hs hc hi))

end LastEntry

/-- From the start of FRC by FRAME the run ends well with the bytes of `frame` in `OUT`, where `IMG` holds `img` and
`PAL_EXP` the expansions of `raw`. -/
theorem frc_computes_frame {s : State} {img : List Byte} {raw : List RawEntry} (hinv : BlockInv (startFrc s))
    (ht : s.turns = []) (hc : s.cmd = .frame) (himg : ∀ a, unitAt s.img a = img[a]?)
    (hexp : ∀ k, k < palSize → unitAt s.palExp k = raw[k]?.map (expand s.params.layout)) :
    ∃ t, Reaches (startFrc s) t ∧ endedWell t ∧ t.outValid = true ∧
      ∀ a, unitAt t.out a = (frameBytes s.params img raw)[a]? := by
  obtain ⟨out, x, y, hshown, hrun⟩ := run_frc hinv ht (.inr hc)
  have hend : Reaches (startFrc s) (complete { atPixel out s.params.npix x y s with outValid := true }) := ⟨_, hrun⟩
  have hinv' := hend.keeps_inv hinv
  obtain ⟨hcause, -⟩ := hinv'.unfaulted (by simp)
  exact ⟨_, hend, ⟨rfl, rfl, hcause⟩, rfl, unitAt_eq_frameBytes himg hexp hshown hinv'.out_below⟩

section WholeStream

variable {s0 s : State} {input out : List Byte} {raw : List RawEntry} {declared ip : Nat}

theorem AtToken.hostSide_eq (h : AtToken s0 declared out ip s) :
    s.params = s0.params ∧ s.palRaw = s0.palRaw ∧ s.palRawValid = s0.palRawValid := by
  have hhost := h.host
  simp only [hostSide, Prod.mk.injEq] at hhost
  obtain ⟨hparams, -, -, hraw, hvalid, -, -⟩ := hhost
  exact ⟨hparams, hraw, hvalid⟩

theorem AtToken.imgValid (h : AtToken s0 declared out ip s) : s.imgValid = out.length :=
  (h.inv.lzd h.run h.unit).img_op.trans h.op

variable (h : AtToken s0 declared out ip s) (h0 : InputReady s0 input) (hlen : out.length = declared)
  (hc : s0.cmd = .frame) (hp : s0.palRawValid = true) (hraw : ∀ k, k < palSize → unitAt s0.palRaw k = raw[k]?)

include h h0 hlen hc hp hraw

/-- With the whole output written, FIN starts PEX under FRAME (R122, R176), and PEX expands the palette. -/
theorem AtToken.palette : ∃ exp, (∀ k, k < palSize → unitAt exp k = raw[k]?.map (expand s0.params.layout)) ∧
    Reaches s (atEntry exp palSize s) := by
  obtain ⟨hparams, hpalRaw, hvalid⟩ := h.hostSide_eq
  have hloaded : s.palRawValid = true := hvalid.trans hp
  have hs : select s = some .fin := select_fin.2 ⟨h.run, h.unit, h.phase, by rw [h.op, h.endAt, hlen]⟩
  have hfin := (h.ready h0).step h.run ((blockStep_fin hs).trans (execFin_of_frame hs (h.cmd.trans hc) hloaded))
  have hheld : ∀ a, a < palSize → holds s.palRaw a := fun a ha => (h.inv.palRaw_held a).2 ⟨hloaded, ha⟩
  obtain ⟨exp, hexp, hrun⟩ := run_startPex (h.ready h0).turns hheld (Nat.le_refl palSize)
  refine ⟨exp, fun k hk => ?_, .head hfin ⟨palSize, hrun⟩⟩
  rw [hexp k, if_pos hk, hpalRaw, hraw k hk, hparams]

/-- A FRAME whose stream gave the whole image ends well with the bytes of `frame` in `OUT` (R178, R185). -/
theorem AtToken.frame_of_whole (hfull : out.length = s0.params.npix) :
    ∃ t, Reaches s t ∧ endedWell t ∧ t.outValid = true ∧
      ∀ a, unitAt t.out a = (frameBytes s0.params out raw)[a]? := by
  obtain ⟨hparams, -⟩ := h.hostSide_eq
  obtain ⟨exp, hexp, hentries⟩ := h.palette h0 hlen hc hp hraw
  rw [← hparams] at hexp hfull ⊢
  have hturns := (h.ready h0).turns
  have hcmd := h.cmd.trans hc
  have hstart := hentries.trans (.head (step_atEntry_frame exp hturns hcmd (h.imgValid.trans hfull)) (.refl _))
  obtain ⟨t, ht, hend⟩ := frc_computes_frame (hstart.keeps_inv h.inv) hturns hcmd h.img hexp
  exact ⟨t, hstart.trans ht, hend⟩

/-- A FRAME whose stream gave less than the image ends in `ImageIncomplete` with the length it gave (R176, R178). -/
theorem AtToken.frame_of_incomplete (hne : out.length ≠ s0.params.npix) :
    ReachesFault s .imageIncomplete out.length := by
  obtain ⟨hparams, -⟩ := h.hostSide_eq
  obtain ⟨exp, -, hentries⟩ := h.palette h0 hlen hc hp hraw
  rw [← hparams, ← h.imgValid] at hne
  have hturns := (h.ready h0).turns
  rw [← h.imgValid]
  exact ⟨_, hentries.trans (.head (step_atEntry_incomplete exp hturns (h.cmd.trans hc) hne) (.refl _)), hturns⟩

end WholeStream

end Sys2Proof.Machine

namespace Sys2Proof.Proofs

open Sys2Proof.Machine Sys2Proof.Safety

/-- Settles O56: the LZD's part gives `lz` of the input or its fault, and after it the palette is expanded and the
whole image shown, or `ImageIncomplete` is raised. -/
theorem frameComputesFrame : Obligations.FrameComputesFrame := by
  intro s s1 input raw hinv hrun hturns hlen hbytes hvalid _ hraw h
  obtain ⟨-, rfl⟩ | ⟨hb, -⟩ | ⟨hf, -⟩ := execFrame_next h
  · have hinv1 : BlockInv (startLzd .frame s) := execFrame_keeps_inv hinv h
    have hready : InputReady (startLzd .frame s) input := ⟨hturns, hlen, hbytes⟩
    have hlz := lzd_computes_lz hinv1 hready (select_hdr.2 ⟨rfl, rfl, rfl⟩)
    rw [startLzd_params, Params.imgCap] at hlz
    rw [frame]
    cases hr : lz input s.params.npix with
    | fault c info =>
      rw [hr] at hlz
      obtain ⟨u, ⟨n, hn⟩, -⟩ := hlz
      exact ⟨n, _, hn, rfl, rfl, rfl⟩
    | ok img used =>
      rw [hr] at hlz
      obtain ⟨hdeclared, u, hu, hat⟩ := hlz
      dsimp only
      by_cases hfull : img.length = s.params.npix
      · obtain ⟨t, ht, hended, hvalid', hout⟩ := hat.frame_of_whole hready hdeclared rfl hvalid hraw hfull
        obtain ⟨n, hn⟩ := hu.trans ht
        rw [if_pos hfull]
        exact ⟨n, t, hn, hended, hvalid', hdeclared.symm.trans hfull, length_frameBytes s.params img raw, hout⟩
      · obtain ⟨t, ht, -⟩ := hat.frame_of_incomplete hready hdeclared rfl hvalid hraw hfull
        obtain ⟨n, hn⟩ := hu.trans ht
        rw [if_neg hfull]
        exact ⟨n, _, hn, rfl, rfl, rfl⟩
  · simp [hrun] at hb
  · simp [hrun] at hf

end Sys2Proof.Proofs

/-! SUPPORT. The host's port: what a command write, a load and a read of a buffer answer in each state of the block
(R171, R177, R179 to R181). -/

namespace Sys2Proof.Machine

open Sys2Proof.Safety

/-! ### Commands (R171, R177) -/

theorem commandWrite_of_idle {s : State} (c : Cmd) (onIdle : State) (hr : s.run = .idle) :
    commandWrite c onIdle s = onIdle := by
  rw [commandWrite, hr]

theorem commandWrite_of_busy {s : State} (c : Cmd) (onIdle : State) (hr : s.run = .busy) :
    commandWrite c onIdle s = raiseFault .hostProtocol c.code.toNat s := by
  rw [commandWrite, hr]

theorem commandWrite_of_fault {s : State} (c : Cmd) (onIdle : State) (hr : s.run = .fault) :
    commandWrite c onIdle s = s := by
  rw [commandWrite, hr]

theorem exec_decomp_of_idle {s : State} (hr : s.run = .idle) : exec .decomp s = .next (startLzd .decomp s) :=
  congrArg Host.Outcome.next (commandWrite_of_idle _ _ hr)

theorem exec_palx_of_idle {s : State} (hr : s.run = .idle) :
    exec .palx s = .next (startChecked (pexCheck s) (startPex (accepted .palx s)) s) :=
  congrArg Host.Outcome.next (commandWrite_of_idle _ _ hr)

theorem exec_recon_of_idle {s : State} (hr : s.run = .idle) :
    exec .recon s = .next (startChecked (frcCheck s) (startFrc (accepted .recon s)) s) :=
  congrArg Host.Outcome.next (commandWrite_of_idle _ _ hr)

theorem exec_frame_of_idle {s : State} (hr : s.run = .idle) : exec .frame s = .next (startLzd .frame s) :=
  congrArg Host.Outcome.next (commandWrite_of_idle _ _ hr)

/-- Every command is a command write. -/
theorem exec_instr_eq_commandWrite (c : Cmd) (s : State) :
    ∃ onIdle, exec c.instr s = .next (commandWrite c onIdle s) := by
  cases c <;> exact ⟨_, rfl⟩

/-- A code is that of a command, or names none (R90, R96). -/
theorem code_names_command (code : BitVec 3) :
    (∃ c : Cmd, code = c.code ∧ decode .cmd [code.setWidth 8] = .ok (c.instr, [])) ∨
    ((code = 0 ∨ code = 5 ∨ code = 6 ∨ code = 7) ∧
      decode .cmd [code.setWidth 8] = .error (.noSuchCommand (code.setWidth 8))) := by
  obtain h | h | h | h | h := decode_cmd_code code
  · exact .inl ⟨.decomp, h⟩
  · exact .inl ⟨.palx, h⟩
  · exact .inl ⟨.recon, h⟩
  · exact .inl ⟨.frame, h⟩
  · exact .inr h

/-! ### The host's writes (R177) -/

theorem hostWrite_of_idle {s : State} (info : Nat) (onIdle : Out) (hr : s.run = .idle) :
    hostWrite info onIdle s = onIdle := by
  rw [hostWrite, hr]

theorem hostWrite_of_busy {s : State} (info : Nat) (onIdle : Out) (hr : s.run = .busy) :
    hostWrite info onIdle s = .next (raiseFault .hostProtocol info s) := by
  rw [hostWrite, hr]

theorem hostWrite_of_fault {s : State} (info : Nat) (onIdle : Out) (hr : s.run = .fault) :
    hostWrite info onIdle s = .next s := by
  rw [hostWrite, hr]

/-- A code that names no command is a host's write like any other. -/
theorem hostWriteCmd_of_noCommand {code : BitVec 3} {e : DecodeError} (s : State)
    (hd : decode .cmd [code.setWidth 8] = .error e) :
    hostWriteCmd code s = hostWrite code.toNat (.next (raiseFault .badCommand code.toNat s)) s := by
  rw [hostWriteCmd, hd]

theorem hostWriteCmd_of_busy {s : State} (code : BitVec 3) (hr : s.run = .busy) :
    hostWriteCmd code s = .next (raiseFault .hostProtocol code.toNat s) := by
  obtain ⟨c, rfl, hd⟩ | ⟨-, hd⟩ := code_names_command code
  · obtain ⟨onIdle, hc⟩ := exec_instr_eq_commandWrite c s
    rw [hostWriteCmd_of s hd, hc, commandWrite_of_busy c onIdle hr]
  · rw [hostWriteCmd_of_noCommand s hd, hostWrite_of_busy _ _ hr]

theorem hostWriteCmd_of_fault {s : State} (code : BitVec 3) (hr : s.run = .fault) : hostWriteCmd code s = .next s := by
  obtain ⟨c, rfl, hd⟩ | ⟨-, hd⟩ := code_names_command code
  · obtain ⟨onIdle, hc⟩ := exec_instr_eq_commandWrite c s
    rw [hostWriteCmd_of s hd, hc, commandWrite_of_fault c onIdle hr]
  · rw [hostWriteCmd_of_noCommand s hd, hostWrite_of_fault _ _ hr]

/-- A 3-bit code as the information of a fault loses nothing. -/
theorem raiseFault_code (c : Cause) (code : BitVec 3) (s : State) :
    raiseFault c code.toNat s = enterFault c.code (code.setWidth 32) s := by
  rw [raiseFault, BitVec.ofNat_toNat]

/-! ### The host's reads (R181) -/

/-- A run of units inside the space that all hold values can be read, and gives those values in index order. -/
theorem readRun_of_holds {w : Nat} {sp : Space} {cap : Nat} {m : Cells w} {n : Nat}
    (h : ∀ a, a < n → a < cap ∧ holds m a) :
    ∃ vs, readRun sp cap m 0 n = .ok vs ∧ vs.length = n ∧ ∀ a, a < n → unitAt m a = vs[a]? := by
  cases hr : readRun sp cap m 0 n with
  | error f =>
    obtain ⟨a, -, ha, ⟨-, hnone, -⟩ | ⟨hout, -⟩⟩ := readRun_error hr
    · exact absurd (h a (by omega)).2 (not_holds_iff.2 hnone)
    · exact absurd (h a (by omega)).1 (Nat.not_lt.2 hout)
  | ok vs =>
    obtain ⟨hlen, hvals⟩ := readRun_ok_iff.1 hr
    refine ⟨vs, rfl, hlen, fun a ha => ?_⟩
    obtain ⟨-, hval⟩ := hvals a ha
    rwa [Nat.zero_add] at hval

theorem hostReadImg_of_readRun {s : State} {bs : List Byte} (hr : s.run ≠ .busy)
    (h : readRun .img s.params.imgCap s.img 0 s.imgValid = .ok bs) :
    hostReadImg s = .next { s with reply := .bytes bs } := by
  rw [hostReadImg, if_neg hr, h]

theorem hostReadOut_of_readRun {s : State} {bs : List Byte} (hr : s.run = .idle) (hv : s.outValid = true)
    (h : readRun .out s.params.outLen s.out 0 s.params.outLen = .ok bs) :
    hostReadOut s = .next { s with reply := .bytes bs } := by
  rw [hostReadOut, if_pos ⟨hr, hv⟩, h]

end Sys2Proof.Machine

namespace Sys2Proof.Proofs

open Sys2Proof.Machine Sys2Proof.Safety

/-- Settles O32: under the invariant `img_valid` and `out_valid` say which units hold values, so the runs read give
them. -/
theorem bufferReads : Obligations.BufferReads := by
  refine ⟨fun s hinv hr => ?_, fun s hinv hr hv => ?_, fun s hb => if_pos hb, fun s hno => if_neg ?_⟩
  · obtain ⟨bs, hread, hbs⟩ := readRun_of_holds (sp := .img) (cap := s.params.imgCap) (m := s.img)
      fun a ha => ⟨ha.trans_le hinv.imgValid_le, (hinv.img_held a).2 ha⟩
    exact ⟨bs, hostReadImg_of_readRun hr hread, hbs⟩
  · obtain ⟨bs, hread, hbs⟩ := readRun_of_holds (sp := .out) (cap := s.params.outLen) (m := s.out)
      fun a ha => ⟨ha, hinv.out_held hv a ha⟩
    exact ⟨bs, hostReadOut_of_readRun hr hv hread, hbs⟩
  · rintro ⟨hidle, hv⟩
    obtain hr | hnot := hno
    · exact hr hidle
    · simp [hv] at hnot

/-- Settles O42: the invariant places the running unit where one of its conditions holds, and what is fetched there
decodes or faults. -/
theorem runningBlockAdvances : Obligations.RunningBlockAdvances := fun _ hinv hb =>
  ⟨select_of_inv hinv hb, blockStep_isNext hinv⟩

/-- Settles O23: an idle block accepts the command, and DECOMP has no check. -/
theorem decompStartsLzd : Obligations.DecompStartsLzd := fun _ hr => exec_decomp_of_idle hr

/-- Settles O24: the one check of PALX decides between the start and its fault. -/
theorem palxStartsPex : Obligations.PalxStartsPex := by
  intro s hr
  rw [exec_palx_of_idle hr]
  obtain ⟨hp, hcheck⟩ | ⟨hp, hcheck⟩ := pexCheck_cases s <;> rw [hcheck]
  · exact ⟨fun _ => rfl, fun hnot => by simp [hp] at hnot⟩
  · exact ⟨fun hloaded => by simp [hp] at hloaded, fun _ => rfl⟩

/-- Settles O25: the two checks of RECON, in their order, decide between the start and its faults. -/
theorem reconStartsFrc : Obligations.ReconStartsFrc := by
  intro s hr
  rw [exec_recon_of_idle hr]
  obtain ⟨hi, hp, hcheck⟩ | ⟨hi, hcheck⟩ | ⟨hi, hp, hcheck⟩ := frcCheck_cases s <;> rw [hcheck]
  · exact ⟨fun _ _ => rfl, fun hne => absurd hi hne, fun _ hnot => by simp [hp] at hnot⟩
  · exact ⟨fun heq => absurd heq hi, fun _ => rfl, fun heq => absurd heq hi⟩
  · exact ⟨fun _ hexp => by simp [hp] at hexp, fun hne => absurd hi hne, fun _ _ => rfl⟩

/-- Settles O26: both commands start the LZD by `startLzd`, each under its own name. -/
theorem frameStartsLzd : Obligations.FrameStartsLzd := fun _ hr =>
  ⟨exec_frame_of_idle hr, _, exec_decomp_of_idle hr, exec_frame_of_idle hr⟩

/-- Settles O27: a command code and every other write meet the same three cases of `run`. -/
theorem hostWritesOutOfTurn : Obligations.HostWritesOutOfTurn := by
  refine fun s => ⟨fun hr code hcode => ?_, fun hr code => ?_, fun hr m hm => ?_, fun hr m hm => ?_⟩
  · show hostWriteCmd code s = _
    obtain ⟨c, rfl, -⟩ | ⟨-, hd⟩ := code_names_command code
    · cases c <;> simp [Cmd.code] at hcode
    · rw [hostWriteCmd_of_noCommand s hd, hostWrite_of_idle _ _ hr, raiseFault_code]
      rfl
  · show hostWriteCmd code s = _
    rw [hostWriteCmd_of_busy code hr, raiseFault_code]
    rfl
  · obtain ⟨bs, rfl⟩ | ⟨vs, rfl⟩ | ⟨v, rfl⟩ := hm <;> exact hostWrite_of_busy _ _ hr
  · obtain ⟨c, rfl⟩ | ⟨bs, rfl⟩ | ⟨vs, rfl⟩ | ⟨v, rfl⟩ | ⟨n, rfl⟩ := hm
    · exact hostWriteCmd_of_fault c hr
    · exact hostWrite_of_fault _ _ hr
    · exact hostWrite_of_fault _ _ hr
    · exact hostWrite_of_fault _ _ hr
    · show hostWriteOther n s = _
      rw [hostWriteOther, hr]

/-- Settles O28: a load of a length that fits leaves `cellsFrom 0` of what it was given. -/
theorem hostLoadsFillBuffers : Obligations.HostLoadsFillBuffers := by
  intro s hr
  refine ⟨fun bs hfits => ⟨cellsFrom 0 bs, ?_, unitAt_cellsFrom bs 0⟩, fun vs hwhole => ⟨cellsFrom 0 vs, ?_,
    unitAt_cellsFrom vs 0⟩⟩
  · exact (hostWrite_of_idle _ _ hr).trans (if_neg (Nat.not_lt.2 hfits))
  · exact (hostWrite_of_idle _ _ hr).trans (if_pos hwhole)

end Sys2Proof.Proofs

/-! SUPPORT. A block that does not run: raising a fault leaves one, and it keeps what it holds at every turn but an idle
block's host write and the host's reset (R200, R203, R221). -/

namespace Sys2Proof.Machine

open Sys2Proof.Safety

/-- Only a running unit has an enabled step (R200, R221). -/
theorem select_of_rest {s : State} (hr : s.run ≠ .busy) : select s = none :=
  Option.eq_none_iff_forall_ne_some.2 fun _ hs => hr (select_busy hs)

/-- With no turn listed, a block that does not run stays as it is (log entries 6, 7). -/
theorem step_of_rest {s : State} (hr : s.run ≠ .busy) (ht : s.turns = []) : step s = .next s := by
  rw [step_eq, ht]
  exact blockStep_of_rest hr

/-- A turn of a block that does not run is used up (log entries 6, 7). -/
theorem step_of_block_at_rest {s : State} {ts : List Turn} (hr : s.run ≠ .busy) (ht : s.turns = .block :: ts) :
    step s = .next { s with turns := ts } := by
  rw [step_eq, ht]
  exact blockStep_of_rest hr

theorem step_of_host {s : State} {m : HostMove} {ts : List Turn} (ht : s.turns = .host m :: ts) :
    step s = hostStep m { s with turns := ts } := by
  rw [step_eq, ht]

theorem hostWriteOther_of_fault {s : State} (n : Nat) (hr : s.run = .fault) : hostWriteOther n s = .next s := by
  rw [hostWriteOther, hr]

/-- After a fault the host's writes are ignored (R177), and its reads change the reply alone (R181). -/
theorem hostStep_next_of_fault {m : HostMove} {s t : State} (hr : s.run = .fault) (hm : m ≠ .reset)
    (h : hostStep m s = .next t) : ∃ r, t = { s with reply := r } := by
  have ignored (hs : hostStep m s = .next s) : ∃ r, t = { s with reply := r } :=
    ⟨s.reply, Host.Outcome.next.inj (h.symm.trans hs)⟩
  cases m with
  | reset => exact absurd rfl hm
  | loadIn | loadPal | writeInLen => exact ignored (hostWrite_of_fault _ _ hr)
  | writeCmd code => exact ignored (hostWriteCmd_of_fault code hr)
  | writeOther n => exact ignored (hostWriteOther_of_fault n hr)
  | readReg => exact hostReadReg_next h
  | readImg => exact hostReadImg_next h
  | readOut => exact hostReadOut_next h

end Sys2Proof.Machine

namespace Sys2Proof.Proofs

open Sys2Proof.Machine

/-- Settles O38: a faulted block is at rest, so its own turns use up the schedule alone; a move of the host other than
reset leaves at most a reply. -/
theorem faultIsSticky : Obligations.FaultIsSticky := by
  intro s t hr hreset h
  have hrest : s.run ≠ .busy := by simp [hr]
  cases hturns : s.turns with
  | nil => cases (step_of_rest hrest hturns).symm.trans h; rfl
  | cons turn ts =>
    cases turn with
    | block => cases (step_of_block_at_rest hrest hturns).symm.trans h; rfl
    | await => cases (step_of_wait_over hrest hturns).symm.trans h; rfl
    | host m =>
      have hm : m ≠ .reset := fun hm => hreset ts (hm ▸ hturns)
      rw [step_of_host hturns] at h
      obtain ⟨r, rfl⟩ := hostStep_next_of_fault (s := { s with turns := ts }) hr hm h
      rfl

/-- Settles O8: a block at rest stutters, so a turn that is its own, or the end of a wait, is all a step uses up. -/
theorem idleBlockDoesNothing : Obligations.IdleBlockDoesNothing :=
  ⟨fun _ hr => ⟨blockStep_of_rest hr, step_of_rest hr, fun _ => step_of_block_at_rest hr,
    fun _ => step_of_wait_over hr⟩, step_of_rest (by decide) rfl⟩

/-- Settles O33: raising a fault leaves a block at rest. -/
theorem faultEntry : Obligations.FaultEntry := by
  intro c info s
  have hrest : (raiseFault c info s).run ≠ .busy := by simp
  exact ⟨rfl, select_of_rest hrest, blockStep_of_rest hrest⟩

end Sys2Proof.Proofs
